-- ==== Sys2Proof/Word.lean ====
section
/-! DEFINITION. The codec's units of data: bytes, 32-bit words and byte strings (00_scope R7, R8). -/

namespace Sys2Proof

/-- A byte: 8 bits, bit 7 the most significant (R7). -/
abbrev Byte := BitVec 8

/-- A `u32`, or the unchanged 32-bit pattern of an `i32` or `f32` field (R8, R91). -/
abbrev Word := BitVec 32

/-- A side-channel line without its `0A` terminator (R92). -/
abbrev Line := List Byte

end Sys2Proof
end

