-- ==== Sys2Proof/Config.lean ====
section
/-! DEFINITION. The build parameters of 00_scope R5 with their constraints, the name table and layout
classes of 30_encoding R88 and R90, and the free bytes of buffers nothing has written (93 U6). -/

namespace Sys2Proof

/-- What is done with payload bytes beyond a layout (R5, R150). -/
inductive TrailingPolicy where
  | reject
  | ignore
  deriving DecidableEq, Repr

/-- Which outcomes disarm the watchdog (R5, R240). The spec leaves it OPEN (92 D25). -/
inductive WdClearOn where
  | ackOnly
  | waitEnd
  deriving DecidableEq, Repr

/-- The layout classes of R90: how many fixed words, and which variable part. -/
inductive LayoutClass where
  /-- `Wk`: k words, no variable part. -/
  | fixed (k : Nat)
  /-- `WkA4`: k words, then `u32` elements to the end. -/
  | array4 (k : Nat)
  /-- `W3A8`: 3 words, then `(count, color)` pairs to the end. -/
  | w3A8
  /-- `W3P`: 3 words, then as many `u32` elements as the product of the first two words. -/
  | w3P
  deriving DecidableEq, Repr

/-- One entry of `NAME_TABLE`: the bytes of the name on the wire and its layout class (R88). -/
structure NameEntry where
  name : List Byte
  cls : LayoutClass
  deriving DecidableEq, Repr

/-- The parameters of R5, before their constraints are checked. -/
structure Params where
  marker : List Byte
  nameTable : List NameEntry
  nameMax : Nat
  lenCap : Nat
  payloadRamBytes : Nat
  rxbufCap : Nat
  trailingPolicy : TrailingPolicy
  ackToken : List Byte
  errToken : List Byte
  retryBudget : Nat
  pollTimeoutMs : Nat
  wdCeilingMs : Nat
  wdClearOn : WdClearOn
  deriving DecidableEq, Repr

/-- The default `NAME_TABLE`, byte for byte the table of R88. -/
def standardTable : List NameEntry :=
  [ ⟨[0x53, 0x65, 0x74, 0x43, 0x6F, 0x6C, 0x6F, 0x72], .array4 2⟩,
    ⟨[0x42, 0x72, 0x65, 0x61, 0x74, 0x68, 0x65], .fixed 3⟩,
    ⟨[0x47, 0x72, 0x61, 0x64, 0x69, 0x65, 0x6E, 0x74], .array4 3⟩,
    ⟨[0x4D, 0x6F, 0x76, 0x69, 0x6E, 0x67, 0x47, 0x72, 0x61, 0x64, 0x69, 0x65, 0x6E, 0x74], .array4 3⟩,
    ⟨[0x43, 0x72, 0x6F, 0x73, 0x73, 0x46, 0x61, 0x64, 0x65], .array4 1⟩,
    ⟨[0x52, 0x61, 0x69, 0x6E, 0x62, 0x6F, 0x77], .fixed 2⟩,
    ⟨[0x46, 0x69, 0x72, 0x65], .fixed 3⟩,
    ⟨[0x54, 0x77, 0x69, 0x6E, 0x6B, 0x6C, 0x65], .fixed 4⟩,
    ⟨[0x4E, 0x65, 0x75, 0x72, 0x61, 0x6C, 0x44, 0x72, 0x6F, 0x70], .fixed 1⟩,
    ⟨[0x57, 0x61, 0x74, 0x65, 0x72, 0x44, 0x72, 0x6F, 0x70], .fixed 3⟩,
    ⟨[0x53, 0x74, 0x61, 0x72, 0x74, 0x52, 0x61, 0x69, 0x6E], .fixed 2⟩,
    ⟨[0x53, 0x74, 0x6F, 0x70, 0x52, 0x61, 0x69, 0x6E], .fixed 0⟩,
    ⟨[0x53, 0x74, 0x61, 0x74, 0x75, 0x73], .fixed 0⟩,
    ⟨[0x45, 0x6E, 0x63, 0x6F, 0x64, 0x65, 0x64, 0x42, 0x75, 0x66, 0x66, 0x65, 0x72], .w3A8⟩,
    ⟨[0x46, 0x75, 0x6C, 0x6C, 0x42, 0x75, 0x66, 0x66, 0x65, 0x72], .w3P⟩,
    ⟨[0x53, 0x70, 0x65, 0x65, 0x64, 0x54, 0x65, 0x73, 0x74], .fixed 0⟩ ]

/-- The constraints R5 puts on a legal configuration, with the ranges of its parameter table. The last
one is R88's: the layout of each of the 16 variants is fixed, whatever its spelling (log 19). -/
def Params.legal (p : Params) : Bool :=
  p.marker ≠ []
    && decide (1 ≤ p.payloadRamBytes) && decide (p.payloadRamBytes ≤ p.lenCap) && decide (p.lenCap < 2 ^ 32)
    && p.nameTable.all (fun e => e.name ≠ [] && decide (e.name.length ≤ p.nameMax) && !e.name.contains 0#8)
    && decide (p.nameTable.map (·.name)).Nodup
    && p.ackToken ≠ [] && p.errToken ≠ []
    && !p.ackToken.isPrefixOf p.errToken && !p.errToken.isPrefixOf p.ackToken
    && (p.ackToken ++ p.errToken).all (fun b => b ≠ 0x0A#8 && b ≠ 0x0D#8)
    && decide (1 ≤ p.rxbufCap) && decide (1 ≤ p.retryBudget) && decide (1 ≤ p.pollTimeoutMs)
    && decide ((p.nameTable.map (·.cls)).take 16 = (standardTable.map (·.cls)).take p.nameTable.length)

/-- A configuration: parameters that meet R5's constraints. An illegal one cannot be built (93 U12). -/
structure Config extends Params where
  isLegal : toParams.legal = true
  deriving DecidableEq, Repr

/-- Building the block refuses parameters that break a constraint (R5, 93 U12). -/
def Config.build (p : Params) : Option Config :=
  if h : p.legal = true then some { toParams := p, isLegal := h } else none

/-- The defaults of R5. -/
def Params.standard : Params where
  marker := [0x7E, 0x41, 0x44, 0x41]
  nameTable := standardTable
  nameMax := 32
  lenCap := 50000
  payloadRamBytes := 50000
  rxbufCap := 1024
  trailingPolicy := .reject
  ackToken := [0x4F, 0x4B]
  errToken := [0x45, 0x52, 0x52, 0x4F, 0x52]
  retryBudget := 1000
  pollTimeoutMs := 50
  wdCeilingMs := 60000
  wdClearOn := .ackOnly

/-- The default configuration. `WD_CLEAR_ON` is OPEN; the vectors of 95 use `ack_only`.
DESIGN CHOICE (log 2, unsafe for statements about this one configuration only). -/
def Config.standard : Config where
  toParams := Params.standard
  isLegal := by decide +kernel

/-- A border-free byte string: no proper prefix of it equals a proper suffix of it (R6). -/
def borderFree (m : List Byte) : Bool :=
  (List.range m.length).all fun k => k = 0 || m.take k ≠ m.drop (m.length - k)

/-- The three byte-addressed spaces of the block (R21, R62, R65). -/
inductive Space where
  | nameBuf
  | pbuf
  | txbuf
  deriving DecidableEq, Repr

/-- The unspecified contents (93 U6, R270, R271) of a byte of a buffer that nothing has written since
the last reset: a FREE VALUE, one for each space, reset and address. DESIGN CHOICE, log 12, safe:
nothing can be proved of it. -/
opaque Config.freeByte (space : Space) (epoch address : Nat) : Byte

end Sys2Proof
end

