-- ==== Sys2Proof/Syntax.lean ====
section
/-! DEFINITION. The instructions: one constructor for each row of spec/opcode_table.json. -/

namespace Sys2Proof

/-- One element of a record's variable part: a `u32`, or a `(count, color)` pair (10_state R41). -/
inductive Elem where
  | one (w : Word)
  | pair (count color : Word)
  deriving DecidableEq, Repr

/-- A command record `(name_id, words, elems)` (R41). It has no identity beyond its fields. -/
structure Cmd where
  nameId : Nat
  words : List Word
  elems : List Elem
  deriving DecidableEq, Repr

/-- The rows of the opcode table. A frame carries its payload bytes (`L` is their number) and its CRC
field, whatever they are: a payload that does not fit the row's layout, or a CRC that does not match,
is a form of the frame too, and the receiver reports it (R94). -/
inductive Instr where
  -- frames: `MARKER ++ name ++ 00 ++ LE32(L) ++ payload ++ LE32(crc)` (R80)
  | setColor (payload : List Byte) (crc : Word)
  | breathe (payload : List Byte) (crc : Word)
  | gradient (payload : List Byte) (crc : Word)
  | movingGradient (payload : List Byte) (crc : Word)
  | crossFade (payload : List Byte) (crc : Word)
  | rainbow (payload : List Byte) (crc : Word)
  | fire (payload : List Byte) (crc : Word)
  | twinkle (payload : List Byte) (crc : Word)
  | neuralDrop (payload : List Byte) (crc : Word)
  | waterDrop (payload : List Byte) (crc : Word)
  | startRain (payload : List Byte) (crc : Word)
  | stopRain (payload : List Byte) (crc : Word)
  | status (payload : List Byte) (crc : Word)
  | encodedBuffer (payload : List Byte) (crc : Word)
  | fullBuffer (payload : List Byte) (crc : Word)
  | speedTest (payload : List Byte) (crc : Word)
  -- port operations of the receive half (R100)
  | feed (bytes : List Byte)
  | decode
  | drain
  | cmdDone
  | resetRx
  -- port operations of the send half (R100)
  | send (cmd : Cmd)
  /-- The operand is the Sink's answer to `write` (R186). -/
  | writeStep (count : Nat)
  /-- The operand is the environment's answer to `readLine`: a line, or null (R201). -/
  | poll (answer : Option Line)
  | time (deltaMs : Nat)
  | resetTx
  -- side-channel lines: the token, then `rest`, then `0A` (R92, R93)
  | ackLine (rest : List Byte)
  | errLine (rest : List Byte)
  deriving DecidableEq, Repr

/-- What reaches the block from outside, by the channel it comes on (R40, R50). -/
inductive Request where
  /-- Bytes the byte pipe delivers to the receive half. -/
  | pipe (bytes : List Byte)
  /-- Bytes the side channel delivers to the send half, the line's `0A` among them. -/
  | side (bytes : List Byte)
  /-- A port operation, presented at its port. -/
  | port (op : Instr)
  deriving DecidableEq, Repr

end Sys2Proof
end

