-- ==== Sys2Proof/WellFormed.lean ====
section
/-! DEFINITION. Which operands an instruction can have, whatever the state. -/

namespace Sys2Proof

/-- A payload's length fits the 32-bit length field (30_encoding R83). -/
def payloadFits (payload : List Byte) : Bool := decide (payload.length < 2 ^ 32)

/-- A line as a reader sees it: no `0A` inside (R92). -/
def lineClean (l : Line) : Bool := !l.contains 0x0A#8

/-- The operands of `i` are ones its encoding admits. -/
def Instr.wellFormed : Instr → Bool
  | .setColor p _ | .breathe p _ | .gradient p _ | .movingGradient p _ | .crossFade p _ | .rainbow p _
  | .fire p _ | .twinkle p _ | .neuralDrop p _ | .waterDrop p _ | .startRain p _ | .stopRain p _
  | .status p _ | .encodedBuffer p _ | .fullBuffer p _ | .speedTest p _ => payloadFits p
  | .feed _ | .decode | .drain | .cmdDone | .resetRx => true
  | .send _ | .writeStep _ | .time _ | .resetTx => true
  | .poll none => true
  | .poll (some l) => lineClean l
  | .ackLine rest | .errLine rest => lineClean rest

end Sys2Proof
end

