-- ==== Sys2Proof/Decode.lean ====
section
/-! DEFINITION. Little-endian fields, the decoder from what stands on a channel to an instruction, and
the encoder, from 30_encoding R80 to R93. -/

namespace Sys2Proof

/-- `LE32(v)`: least significant byte first (00_scope R9, R60). -/
def le32 (v : Word) : List Byte :=
  [v.extractLsb' 0 8, v.extractLsb' 8 8, v.extractLsb' 16 8, v.extractLsb' 24 8]

/-- The word whose bytes, least significant first, are these four (R9). -/
def word4 (b0 b1 b2 b3 : Byte) : Word := b3 ++ b2 ++ b1 ++ b0

/-- `U32LE(s, i)` (R9). Every use is at an `i` with `i + 4 <= |s|`. -/
def u32le (s : List Byte) (i : Nat) : Word :=
  word4 (s.getD i 0#8) (s.getD (i + 1) 0#8) (s.getD (i + 2) 0#8) (s.getD (i + 3) 0#8)

/-- The bytes before the first `00`, and those after it (R82). -/
def splitAtZero : List Byte → Option (List Byte × List Byte)
  | [] => none
  | b :: bs =>
    if b = 0#8 then some ([], bs)
    else (splitAtZero bs).map fun (n, rest) => (b :: n, rest)

/-- The bytes before the first `0A`, and those after it (R92). -/
def splitAtNewline : List Byte → Option (Line × List Byte)
  | [] => none
  | b :: bs =>
    if b = 0x0A#8 then some ([], bs)
    else (splitAtNewline bs).map fun (l, rest) => (b :: l, rest)

/-- A line's trailing `0D` is removed (R92). -/
def stripCr (l : Line) : Line := if l.getLast? = some 0x0D#8 then l.dropLast else l

/-- The whole line that `bytes` are, if they are exactly one (R92, R244). -/
def readWholeLine (bytes : List Byte) : Option Line :=
  match splitAtNewline bytes with
  | some (l, []) => some (stripCr l)
  | _ => none

/-- A line as it stands on the side channel (R93). -/
def wireLine (l : Line) : List Byte := l ++ [0x0A#8]

/-- The bytes whose line is `l`: the reader removes one trailing `0D` (R92), so a line whose own last byte
is `0D` stands on the channel with one more. -/
def lineBytes (l : Line) : List Byte :=
  if l.getLast? = some 0x0D#8 then wireLine (l ++ [0x0D#8]) else wireLine l

/-- The `name_id` of a name: the index of the equal entry of `NAME_TABLE` (R89, R116). -/
def nameIndex (c : Config) (name : List Byte) : Option Nat :=
  c.nameTable.findIdx? fun e => e.name == name

/-- The bytes of the name of variant `id` on the wire (R88). A variant that a shorter `NAME_TABLE` leaves out
has no name in that configuration; its frame row is written with R88's default spelling all the same, and an
index that R88 has not either is written with none (DESIGN CHOICE, log 32). -/
def spelling (c : Config) (id : Nat) : List Byte :=
  match c.nameTable[id]? with
  | some e => e.name
  | none => ((standardTable[id]?).map (·.name)).getD []

/-- Why bytes are no instruction of the opcode table. -/
inductive DecodeError where
  /-- The bytes do not begin with `MARKER` (R81). -/
  | noMarker
  /-- No `00` ends the name (R82). -/
  | nameNotTerminated
  /-- The name is longer than `NAME_MAX` (R94). -/
  | nameTooLong
  /-- The name equals no entry of `NAME_TABLE` (R94). -/
  | unknownName
  /-- The name is a custom command's: an entry of `NAME_TABLE` beyond the 16 rows (R95; log 18). -/
  | customCommand (id : Nat)
  /-- The bytes end before the frame does (R85). -/
  | truncated
  /-- There are bytes after the frame's end (R85). -/
  | trailingBytes
  /-- The bytes are not exactly one line ended by `0A` (R92). -/
  | notOneLine
  /-- The line begins with neither token: an ordinary line (R92). -/
  | ordinaryLine
  /-- What is presented at the ports is no port operation (R100), or its line holds a terminator. -/
  | notAPortOperation
  deriving DecidableEq, Repr

/-- The frame of variant `id` (R88's numbering). -/
def frameInstr (id : Nat) (payload : List Byte) (crc : Word) : Option Instr :=
  match id with
  | 0 => some (.setColor payload crc)
  | 1 => some (.breathe payload crc)
  | 2 => some (.gradient payload crc)
  | 3 => some (.movingGradient payload crc)
  | 4 => some (.crossFade payload crc)
  | 5 => some (.rainbow payload crc)
  | 6 => some (.fire payload crc)
  | 7 => some (.twinkle payload crc)
  | 8 => some (.neuralDrop payload crc)
  | 9 => some (.waterDrop payload crc)
  | 10 => some (.startRain payload crc)
  | 11 => some (.stopRain payload crc)
  | 12 => some (.status payload crc)
  | 13 => some (.encodedBuffer payload crc)
  | 14 => some (.fullBuffer payload crc)
  | 15 => some (.speedTest payload crc)
  | _ => none

/-- The frame at the start of `bytes`, and the bytes after it: its extent is found as R85 says. -/
def decodeFramePrefix (c : Config) (bytes : List Byte) : Except DecodeError (Instr × List Byte) :=
  if c.marker.isPrefixOf bytes then
    match splitAtZero (bytes.drop c.marker.length) with
    | none => .error .nameNotTerminated
    | some (name, t) =>
      if name.length > c.nameMax then .error .nameTooLong
      else match nameIndex c name with
        | none => .error .unknownName
        | some id =>
          let len := (u32le t 0).toNat
          if t.length < 4 + len + 4 then .error .truncated
          else match frameInstr id ((t.drop 4).take len) (u32le t (4 + len)) with
            | none => .error (.customCommand id)
            | some i => .ok (i, t.drop (4 + len + 4))
  else .error .noMarker

/-- The frame that `bytes` are. -/
def decodeFrame (c : Config) (bytes : List Byte) : Except DecodeError Instr :=
  match decodeFramePrefix c bytes with
  | .ok (i, []) => .ok i
  | .ok (_, _ :: _) => .error .trailingBytes
  | .error e => .error e

/-- The acknowledgment or error line that `bytes` are (R92: the acknowledgment test comes first). -/
def decodeLine (c : Config) (bytes : List Byte) : Except DecodeError Instr :=
  match readWholeLine bytes with
  | none => .error .notOneLine
  | some l =>
    if c.ackToken.isPrefixOf l then .ok (.ackLine (l.drop c.ackToken.length))
    else if c.errToken.isPrefixOf l then .ok (.errLine (l.drop c.errToken.length))
    else .error .ordinaryLine

/-- A port operation, as opposed to a wire encoding (R100). -/
def Instr.isPortOp : Instr → Bool
  | .setColor _ _ | .breathe _ _ | .gradient _ _ | .movingGradient _ _ | .crossFade _ _ | .rainbow _ _
  | .fire _ _ | .twinkle _ _ | .neuralDrop _ _ | .waterDrop _ _ | .startRain _ _ | .stopRain _ _
  | .status _ _ | .encodedBuffer _ _ | .fullBuffer _ _ | .speedTest _ _ => false
  | .feed _ | .decode | .drain | .cmdDone | .resetRx => true
  | .send _ | .writeStep _ | .poll _ | .time _ | .resetTx => true
  | .ackLine _ | .errLine _ => false

/-- The instruction a request is. Frames and lines are read from their bytes. A port operation has no
wire encoding and stands at its port as it is (30_encoding, opening). -/
def decode (c : Config) : Request → Except DecodeError Instr
  | .pipe bytes => decodeFrame c bytes
  | .side bytes => decodeLine c bytes
  | .port op => if op.isPortOp && op.wellFormed then .ok op else .error .notAPortOperation

/-- `MARKER ++ name ++ 00 ++ LE32(L) ++ payload ++ LE32(crc)` (R80), with the CRC field as given. -/
def frameBytes (c : Config) (id : Nat) (payload : List Byte) (crc : Word) : List Byte :=
  c.marker ++ spelling c id ++ [0#8] ++ le32 (BitVec.ofNat 32 payload.length) ++ payload ++ le32 crc

/-- What stands on the channel for an instruction (R80, R92, R100). -/
def encode (c : Config) : Instr → Request
  | .setColor p crc => .pipe (frameBytes c 0 p crc)
  | .breathe p crc => .pipe (frameBytes c 1 p crc)
  | .gradient p crc => .pipe (frameBytes c 2 p crc)
  | .movingGradient p crc => .pipe (frameBytes c 3 p crc)
  | .crossFade p crc => .pipe (frameBytes c 4 p crc)
  | .rainbow p crc => .pipe (frameBytes c 5 p crc)
  | .fire p crc => .pipe (frameBytes c 6 p crc)
  | .twinkle p crc => .pipe (frameBytes c 7 p crc)
  | .neuralDrop p crc => .pipe (frameBytes c 8 p crc)
  | .waterDrop p crc => .pipe (frameBytes c 9 p crc)
  | .startRain p crc => .pipe (frameBytes c 10 p crc)
  | .stopRain p crc => .pipe (frameBytes c 11 p crc)
  | .status p crc => .pipe (frameBytes c 12 p crc)
  | .encodedBuffer p crc => .pipe (frameBytes c 13 p crc)
  | .fullBuffer p crc => .pipe (frameBytes c 14 p crc)
  | .speedTest p crc => .pipe (frameBytes c 15 p crc)
  | .feed bytes => .port (.feed bytes)
  | .decode => .port .decode
  | .drain => .port .drain
  | .cmdDone => .port .cmdDone
  | .resetRx => .port .resetRx
  | .send cmd => .port (.send cmd)
  | .writeStep n => .port (.writeStep n)
  | .poll a => .port (.poll a)
  | .time d => .port (.time d)
  | .resetTx => .port .resetTx
  | .ackLine rest => .side (lineBytes (c.ackToken ++ rest))
  | .errLine rest => .side (lineBytes (c.errToken ++ rest))

/-- The bytes of a table word, the first at bits 7..0. -/
def tableBytes (nbits w : Nat) : List Byte :=
  (List.range (nbits / 8)).map fun i => BitVec.ofNat 8 (w >>> (8 * i))

/-- What stands on a channel for a table word. Bytes that begin with `MARKER` are a frame, and the
bytes above `nbits` are zero up to the frame's end. Bytes that begin with a token are a line, which its
`0A` ends (the row's own words). A port operation has no bits in the table (log 24). -/
def tableRequest (c : Config) (nbits w : Nat) : Request :=
  let bytes := tableBytes nbits w
  if c.marker.isPrefixOf bytes then
    let padded := bytes ++ List.replicate 64 0#8
    match decodeFramePrefix c padded with
    | .ok (_, rest) => .pipe (padded.take (padded.length - rest.length))
    | .error _ => .pipe bytes
  else if c.ackToken.isPrefixOf bytes || c.errToken.isPrefixOf bytes then
    match splitAtNewline bytes with
    | some (l, _) => .side (wireLine l)
    | none => .side (wireLine bytes)
  else .pipe bytes

/-- The instruction the decoder reads from a word of the opcode table. -/
def decodeTableWord (nbits w : Nat) : Option Instr :=
  match decode Config.standard (tableRequest Config.standard nbits w) with
  | .ok i => some i
  | .error _ => none

end Sys2Proof
end

