-- ==== Sys2Proof/Machine/State.lean ====
section
/-! DEFINITION. The state of the codec (10_state R21, R36, R50), what it drives on its ports, why a step
can stop, and the state after reset (70_reset_and_hazards R270, R271). -/

namespace Sys2Proof.Machine

/-- A byte-addressed space: `(address, byte)` pairs, addresses strictly rising. An address that is not
listed holds no value that anything wrote; `readByte` gives it a free byte (log 12). -/
abbrev Memory := List Host.Cell

/-- The parser's control state (R22). Its 3-bit encoding is `Phase.code`. -/
inductive Phase where
  | seekMarker
  | readName
  | readLength
  | readPayload
  | readCrc
  deriving DecidableEq, Repr

/-- The sender's control state (R36). Its 2-bit encoding is `TxMode.code`. -/
inductive TxMode where
  | idle
  | writing
  | waiting
  | fatal
  deriving DecidableEq, Repr

/-- The receive errors (60_exceptions R231). Their 8-bit codes are `RxError.code`. -/
inductive RxError where
  | crc
  | oversize
  | unknownName
  | nameTooLong
  | resync
  | malformed
  | alloc
  deriving DecidableEq, Repr

/-- The send outcomes (60_exceptions R232). Their 8-bit codes are `SendOutcome.code`. -/
inductive SendOutcome where
  | none
  | ackOk
  | ackError
  | ackTimeout
  | encMalformed
  | encOversize
  | wdFatal
  deriving DecidableEq, Repr

/-- The event a byte step can emit (R45, R122). -/
inductive Event where
  | frameOk (cmd : Cmd)
  | err (code : RxError)
  deriving DecidableEq, Repr

/-- What the block drives on an output port in a step (R40). -/
inductive PortOut where
  /-- `FEED` responds with how many bytes it accepted (R110). -/
  | feedCount (k : Nat)
  /-- `DECODE` responds with an event (R111). -/
  | event (e : Event)
  /-- `DECODE` responds `INCOMPLETE` (R111). -/
  | incomplete
  /-- `SC_OUT`: a line with its terminator (R93). -/
  | scOut (bytes : List Byte)
  /-- `SEND` is accepted (R182). -/
  | accepted
  /-- `SEND` is not accepted, and its source holds the request (R207). -/
  | notAccepted
  /-- An operation its half is not ready for: nothing happens (R186, R201, R241). -/
  | disabled
  /-- `SINK_WRITE`: the bytes offered, and the count the Sink took (R186). -/
  | sinkWrite (offered : List Byte) (count : Nat)
  /-- `SINK_READLINE`: a poll with its timeout in ms (R201). -/
  | sinkReadline (timeoutMs : Nat)
  /-- `SC_FLUSH` (R203). -/
  | scFlush
  /-- `OUTCOME`: the outcome just recorded (R202 to R205, R241). -/
  | outcome (o : SendOutcome)
  deriving DecidableEq, Repr

/-- What the environment chooses for one step (R237 item 6, R207, R50; log 4). -/
inductive Turn where
  /-- The next request is served, while bytes arrive, and between two byte steps of a `DECODE` where it may
  be (logs 5, 21). -/
  | serve
  /-- Nothing is chosen for this step: what is in progress goes on, though a request could come now
  (R73, 92 D41). -/
  | proceed
  /-- A source presents again the k-th request that is held. -/
  | retry (k : Nat)
  /-- The environment appends a line to the side channel (R50), its terminator removed. That `l` is a line,
  holding no `0A` (R92), is not asked: the model's choice (log 31). -/
  | arrive (l : Line)
  deriving DecidableEq, Repr

/-- The receive half's registers (R21). -/
structure RxRegs where
  phase : Phase
  mhist : List Byte
  nameBuf : Memory
  nameLen : Nat
  nameId : Nat
  lenAcc : Word
  lenCnt : Fin 4
  plen : Nat
  payCnt : Nat
  pbuf : Memory
  hwm : Nat
  crcRun : Word
  crcAcc : Word
  crcCnt : Fin 4
  rxq : List Byte
  acksOwed : Nat
  /-- A `DECODE` has begun and not yet responded (R111, R270). -/
  decoding : Bool
  /-- How many `RESET_RX` there were: the free bytes of this half are read at it (model's own, log 12). -/
  epoch : Nat
  deriving DecidableEq, Repr

/-- The send half's registers (R36). -/
structure TxRegs where
  txState : TxMode
  txbuf : Memory
  txLen : Nat
  txPos : Nat
  polls : Nat
  lastOutcome : SendOutcome
  wdArmed : Bool
  wdElapsed : Nat
  /-- How many `RESET_TX` there were: the free bytes of this half are read at it (model's own, log 12). -/
  epoch : Nat
  deriving DecidableEq, Repr

/-- The machine: both halves of the codec, and the environment's state that R50 tells a model to keep.
`cfg` is the configuration: no operation writes it (R5, log 1). -/
structure State where
  cfg : Config
  rx : RxRegs
  tx : TxRegs
  /-- The side-channel line queue `SC`, head first (R50). -/
  sc : List Line
  /-- The byte pipe (R50). While bytes arrive it is `some` of those that `FEED` has not accepted yet, and
  the device's loop feeds and decodes (R280; log 5). -/
  pipe : Option (List Byte)
  /-- The `SEND` requests their sources hold (R207). -/
  held : List Cmd
  /-- What the callers and the channels present next, in order (model's own, log 4). -/
  reqs : List Request
  /-- The environment's choices, for the next steps (model's own, log 4). -/
  sched : List Turn
  /-- What the output ports carry for the step just made (model's own, log 15). -/
  out : List PortOut
  deriving DecidableEq, Repr

/-- Why a step stops. Each is raised only in states that no run reaches (log 13). -/
inductive Fault where
  /-- An access at an index outside `name_buf`, PBUF or TXBUF (R21, R62, R65). Raised by the parser,
  the encoder and the writer. Safe: the machine stops where the spec has no such byte. -/
  | bufferRange (space : Space) (address : Nat)
  /-- `name_id` indexes no entry of `NAME_TABLE` (R21). Raised by the parser. Safe. -/
  | nameIdRange (id : Nat)
  deriving DecidableEq, Repr

/-- Why a step answers nothing. -/
inductive Refusal where
  /-- The instruction has no meaning in this model. Raised by `exec`. Safe. -/
  | notModelled (mnemonic : String)
  /-- The Sink's answer to `write` is more than it was offered (R244's contract is broken, so R186 gives
  no effect). Raised by `WRITE_STEP`. Safe (log 9). -/
  | sinkOverrun (offered count : Nat)
  /-- The answer to a poll is a line that is not the head of a nonempty `SC`: R201 allows no such draw.
  Raised by `POLL`. Safe (log 10). -/
  | pollAnswerNotHead
  /-- The side channel delivers bytes that are not one whole line (R92, R244). Raised by `step`. Safe
  (log 11). -/
  | notOneLine
  /-- What is presented at the ports is no port operation (R100). Raised by `step`. Safe (log 27). -/
  | notAPortOperation
  deriving DecidableEq, Repr

/-- The receive half after power-on (R270). Buffer contents are unspecified: nothing is listed. -/
def RxRegs.reset : RxRegs where
  phase := .seekMarker
  mhist := []
  nameBuf := []
  nameLen := 0
  nameId := 0
  lenAcc := 0#32
  lenCnt := 0
  plen := 0
  payCnt := 0
  pbuf := []
  hwm := 0
  crcRun := 0xFFFFFFFF#32
  crcAcc := 0#32
  crcCnt := 0
  rxq := []
  acksOwed := 0
  decoding := false
  epoch := 0

/-- The send half after reset (R271). -/
def TxRegs.reset : TxRegs where
  txState := .idle
  txbuf := []
  txLen := 0
  txPos := 0
  polls := 0
  lastOutcome := .none
  wdArmed := false
  wdElapsed := 0
  epoch := 0

/-- A block built with a configuration, right after the reset of both halves, its environment empty
(log 23). -/
def State.resetWith (c : Config) : State where
  cfg := c
  rx := RxRegs.reset
  tx := TxRegs.reset
  sc := []
  pipe := none
  held := []
  reqs := []
  sched := []
  out := []

/-- The machine right after reset, with the default configuration (R5, R270, R271). -/
def State.reset : State := State.resetWith Config.standard

end Sys2Proof.Machine
end

