-- ==== Sys2Proof/Machine/Ops.lean ====
section
/-! DEFINITION. The shared operations: byte-addressed spaces, the CRC, the ports, the message-level clear,
taking a receive error (the codec's exception entry; there is no return from one, R238), the watchdog. -/

namespace Sys2Proof.Machine

/-! ### Byte-addressed spaces (R21, R62, R65) -/

/-- The byte something wrote at an address, if anything did. -/
def memRead : Memory → Nat → Option Byte
  | [], _ => none
  | (a, b) :: m, i => if a = i then some b else memRead m i

/-- Writing one byte keeps addresses strictly rising. -/
def memWrite : Memory → Nat → Byte → Memory
  | [], i, b => [(i, b)]
  | (a, x) :: m, i, b =>
    if i < a then (i, b) :: (a, x) :: m
    else if i = a then (i, b) :: m
    else (a, x) :: memWrite m i b

/-- The canonical form: addresses strictly rising. (An unlisted address reads as no written value, so no
entry can equal what it reads as.) -/
def memWf : Memory → Bool
  | [] => true
  | [_] => true
  | (a, _) :: (b, y) :: m => decide (a < b) && memWf ((b, y) :: m)

/-- Writing consecutive bytes. -/
def memWriteN (m : Memory) (i : Nat) : List Byte → Memory
  | [] => m
  | b :: bs => memWriteN (memWrite m i b) (i + 1) bs

/-- The byte at an address of a space: what was written, or its unspecified contents (U6, log 12). -/
def readByte (space : Space) (epoch : Nat) (m : Memory) (i : Nat) : Byte :=
  (memRead m i).getD (Config.freeByte space epoch i)

/-- `MemRead(space, i, n)` (00_scope R10). -/
def memReadN (space : Space) (epoch : Nat) (m : Memory) (i n : Nat) : List Byte :=
  (List.range n).map fun j => readByte space epoch m (i + j)

/-- How many bytes a space has (R21, R62, R65). -/
def spaceSize (c : Config) : Space → Nat
  | .nameBuf => c.nameMax
  | .pbuf => c.payloadRamBytes
  | .txbuf => c.marker.length + c.nameMax + 1 + 4 + c.lenCap + 4

/-- A write of consecutive bytes, inside the space (R62, R65). -/
def bufWrite (c : Config) (space : Space) (m : Memory) (i : Nat) (bs : List Byte) : Except Fault Memory :=
  if i + bs.length ≤ spaceSize c space then .ok (memWriteN m i bs) else .error (.bufferRange space i)

/-- A read of consecutive bytes, inside the space (R62, R65). -/
def bufRead (c : Config) (space : Space) (epoch : Nat) (m : Memory) (i n : Nat) : Except Fault (List Byte) :=
  if i + n ≤ spaceSize c space then .ok (memReadN space epoch m i n) else .error (.bufferRange space i)

/-! ### The checksum (20_memory R66; log 16) -/

/-- One shift of the reflected CRC register. -/
def crcShift (c : Word) : Word :=
  if c.getLsbD 0 then (c >>> 1) ^^^ 0xEDB88320#32 else c >>> 1

/-- `crc_update(c, b)`: one byte, least significant bit first. -/
def crcUpdate (c : Word) (b : Byte) : Word :=
  crcShift (crcShift (crcShift (crcShift (crcShift (crcShift (crcShift (crcShift (c ^^^ b.setWidth 32))))))))

/-- The CRC register before the first byte. -/
def crcInit : Word := 0xFFFFFFFF#32

/-- The CRC register after some bytes. -/
def crcFold (c : Word) (s : List Byte) : Word := s.foldl crcUpdate c

/-- `CRC32(s)`. -/
def crc32 (s : List Byte) : Word := crcFold crcInit s ^^^ 0xFFFFFFFF#32

/-! ### Ports -/

/-- The block drives an output port (R40, R45). -/
def State.emit (s : State) (o : PortOut) : State := { s with out := s.out ++ [o] }

/-- A new step begins: no port carries anything yet (R45: nothing is held after the response). -/
def State.clearOut (s : State) : State := { s with out := [] }

/-- The 8-bit code of a receive error (R231). -/
def RxError.code : RxError → Byte
  | .crc => 0x01#8
  | .oversize => 0x02#8
  | .unknownName => 0x03#8
  | .nameTooLong => 0x04#8
  | .resync => 0x05#8
  | .malformed => 0x06#8
  | .alloc => 0x07#8

/-- The 8-bit code of a send outcome (R232). -/
def SendOutcome.code : SendOutcome → Byte
  | .none => 0x00#8
  | .ackOk => 0x10#8
  | .ackError => 0x11#8
  | .ackTimeout => 0x12#8
  | .encMalformed => 0x13#8
  | .encOversize => 0x14#8
  | .wdFatal => 0x1F#8

/-- The upper-case hexadecimal ASCII digit of a nibble (R93). -/
def hexDigit (n : Nat) : Byte := if n < 10 then BitVec.ofNat 8 (0x30 + n) else BitVec.ofNat 8 (0x41 + (n - 10))

/-- `HEX2(code)` (R93). -/
def hex2 (code : Byte) : List Byte := [hexDigit (code.toNat / 16), hexDigit (code.toNat % 16)]

/-- The error line of a receive error, without its terminator (R93, R211). -/
def errorLine (c : Config) (e : RxError) : Line := c.errToken ++ [0x20#8] ++ hex2 e.code

/-- The responder puts a line on the side channel (R73, R93). -/
def State.scPush (s : State) (l : Line) : State :=
  { s with sc := s.sc ++ [l], out := s.out ++ [.scOut (wireLine l)] }

/-! ### Message-level clear and recovery (R33, R235, R236) -/

/-- `MsgClear` (R33). -/
def msgClear (r : RxRegs) : RxRegs :=
  { r with nameLen := 0, lenAcc := 0#32, lenCnt := 0, plen := 0, payCnt := 0,
           crcRun := crcInit, crcAcc := 0#32, crcCnt := 0 }

/-- `raise RxError(code)`: the message in flight is discarded, and the parser hunts for a marker (R235).
Nothing is saved. -/
def raiseRxError (e : RxError) (r : RxRegs) : RxRegs × Option Event :=
  ({ msgClear r with phase := .seekMarker }, some (.err e))

/-- The responder's part of a response (R45, R211): the event on the port, and an error line for every
error but `ERR_RESYNC`. -/
def respond (e : Event) (s : State) : State :=
  match e with
  | .frameOk _ => s.emit (.event e)
  | .err .resync => s.emit (.event e)
  | .err code => (s.emit (.event e)).scPush (errorLine s.cfg code)

/-! ### The watchdog and the outcomes (R232, R240, R241) -/

/-- An outcome is recorded and presented on `OUTCOME` (R230; log 22). -/
def State.setOutcome (s : State) (o : SendOutcome) : State :=
  { s with tx := { s.tx with lastOutcome := o }, out := s.out ++ [.outcome o] }

/-- `WatchdogFire()` (R241). -/
def watchdogFire (s : State) : State :=
  { s with tx := { s.tx with txState := .fatal, wdArmed := false } }.setOutcome .wdFatal

/-- `WatchdogAdvance(Δ)` (R240). -/
def watchdogAdvance (delta : Nat) (s : State) : State :=
  if s.tx.wdArmed then
    let s := { s with tx := { s.tx with wdElapsed := s.tx.wdElapsed + delta } }
    if s.tx.wdElapsed > s.cfg.wdCeilingMs then watchdogFire s else s
  else s

/-- A meaning's answer, from a computation that can only fault. -/
def answer : Except Fault State → Host.Outcome State Fault Refusal
  | .ok s => .next s
  | .error f => .fault f

end Sys2Proof.Machine
end

