-- ==== Sys2Proof/Machine/Operands.lean ====
section
/-! DEFINITION. Operand forms: payload fields and the sub-decoder (30_encoding R90, 41_payload_layouts),
the record check and the payload encoder (42_tx_encoder R181, R183), side-channel lines (R92), and the
records of the 16 variants with their fields by name (R151 to R167). -/

namespace Sys2Proof.Machine

/-- The number of fixed words of a class, `k`; its fixed part is `F = 4k` bytes (R90). -/
def classWords : LayoutClass → Nat
  | .fixed k => k
  | .array4 k => k
  | .w3A8 => 3
  | .w3P => 3

/-- `n` consecutive 32-bit fields from an offset (R90). -/
def wordsAt (p : List Byte) (off n : Nat) : List Word :=
  (List.range n).map fun j => u32le p (off + 4 * j)

/-- `n` consecutive `(count, color)` pairs from an offset, count first (R90). -/
def pairsAt (p : List Byte) (off n : Nat) : List Elem :=
  (List.range n).map fun e => .pair (u32le p (off + 8 * e)) (u32le p (off + 4 + 8 * e))

/-- `words[0] · words[1]`, on unbounded integers (R90). -/
def productCount (words : List Word) : Nat := (words.getD 0 0).toNat * (words.getD 1 0).toNat

/-- `SubDecode(id, p)` for a layout class (R150); `none` is `malformed`. -/
def subDecode (policy : TrailingPolicy) (id : Nat) (cls : LayoutClass) (p : List Byte) : Option Cmd :=
  let f := 4 * classWords cls
  if p.length < f then none
  else
    let words := wordsAt p 0 (classWords cls)
    let rest := p.length - f
    match cls with
    | .fixed _ =>
      if rest ≠ 0 ∧ policy = .reject then none else some ⟨id, words, []⟩
    | .array4 _ =>
      if rest % 4 ≠ 0 ∧ policy = .reject then none
      else some ⟨id, words, (wordsAt p f (rest / 4)).map .one⟩
    | .w3A8 =>
      if rest % 8 ≠ 0 ∧ policy = .reject then none
      else some ⟨id, words, pairsAt p f (rest / 8)⟩
    | .w3P =>
      let n := productCount words
      if rest < 4 * n then none
      else if rest ≠ 4 * n ∧ policy = .reject then none
      else some ⟨id, words, (wordsAt p f n).map .one⟩

/-- A plain `u32` element. -/
def elemIsOne : Elem → Bool
  | .one _ => true
  | .pair _ _ => false

/-- `elems` fits the class (R181). -/
def elemsFit (cls : LayoutClass) (words : List Word) (elems : List Elem) : Bool :=
  match cls with
  | .fixed _ => elems.isEmpty
  | .array4 _ => elems.all elemIsOne
  | .w3A8 => elems.all fun e => !elemIsOne e
  | .w3P => elems.all elemIsOne && elems.length == productCount words

/-- `WellFormed(cmd)` (R181). -/
def wellFormedCmd (c : Config) (cmd : Cmd) : Bool :=
  match c.nameTable[cmd.nameId]? with
  | none => false
  | some e => cmd.words.length == classWords e.cls && elemsFit e.cls cmd.words cmd.elems

/-- The bytes of one element (R183). -/
def elemBytes : Elem → List Byte
  | .one w => le32 w
  | .pair count color => le32 count ++ le32 color

/-- `Payload(cmd)` (R183). -/
def payloadOf (cmd : Cmd) : List Byte := cmd.words.flatMap le32 ++ cmd.elems.flatMap elemBytes

/-- `ENCODE(cmd)`: the frame of a record (R80, R184). -/
def encodeCmd (c : Config) (cmd : Cmd) : List Byte :=
  frameBytes c cmd.nameId (payloadOf cmd) (crc32 (payloadOf cmd))

/-- The frame of a record as an instruction, for the 16 variants. -/
def cmdInstr (cmd : Cmd) : Option Instr := frameInstr cmd.nameId (payloadOf cmd) (crc32 (payloadOf cmd))

/-- An acknowledgment line (R92). -/
def isAckLine (c : Config) (l : Line) : Bool := c.ackToken.isPrefixOf l

/-- An error line (R92): not an acknowledgment line, and begins with the error token. -/
def isErrLine (c : Config) (l : Line) : Bool := !isAckLine c l && c.errToken.isPrefixOf l

/-- `s32(w)`: how a consumer reads an `i32` field (R8, R91). The codec itself never does. -/
def s32 (w : Word) : Int := if w.getLsbD 31 then (w.toNat : Int) - 2 ^ 32 else w.toNat

/-! ### The records of the 16 variants, fields in layout order (R151 to R167) -/

/-- R151. -/
def cmdSetColor (strip index : Word) (colors : List Word) : Cmd := ⟨0, [strip, index], colors.map .one⟩
/-- R152. -/
def cmdBreathe (seconds f1 f2 : Word) : Cmd := ⟨1, [seconds, f1, f2], []⟩
/-- R153. -/
def cmdGradient (strip colorsPerStrip seconds : Word) (colors : List Word) : Cmd :=
  ⟨2, [strip, colorsPerStrip, seconds], colors.map .one⟩
/-- R154. -/
def cmdMovingGradient (speed direction size : Word) (colors : List Word) : Cmd :=
  ⟨3, [speed, direction, size], colors.map .one⟩
/-- R155. -/
def cmdCrossFade (seconds : Word) (colors : List Word) : Cmd := ⟨4, [seconds], colors.map .one⟩
/-- R156. -/
def cmdRainbow (length seconds : Word) : Cmd := ⟨5, [length, seconds], []⟩
/-- R157. -/
def cmdFire (cooling sparkle seconds : Word) : Cmd := ⟨6, [cooling, sparkle, seconds], []⟩
/-- R158. -/
def cmdTwinkle (density seconds color0 color1 : Word) : Cmd := ⟨7, [density, seconds, color0, color1], []⟩
/-- R159. -/
def cmdNeuralDrop (iterations : Word) : Cmd := ⟨8, [iterations], []⟩
/-- R160. -/
def cmdWaterDrop (iterations size amount : Word) : Cmd := ⟨9, [iterations, size, amount], []⟩
/-- R161. -/
def cmdStartRain (size amount : Word) : Cmd := ⟨10, [size, amount], []⟩
/-- R162. -/
def cmdStopRain : Cmd := ⟨11, [], []⟩
/-- R163. -/
def cmdStatus : Cmd := ⟨12, [], []⟩
/-- R164. -/
def cmdEncodedBuffer (numStrips ledsPerStrip seconds : Word) (runs : List (Word × Word)) : Cmd :=
  ⟨13, [numStrips, ledsPerStrip, seconds], runs.map fun r => .pair r.1 r.2⟩
/-- R165. -/
def cmdFullBuffer (numStrips ledsPerStrip seconds : Word) (colors : List Word) : Cmd :=
  ⟨14, [numStrips, ledsPerStrip, seconds], colors.map .one⟩
/-- R166. -/
def cmdSpeedTest : Cmd := ⟨15, [], []⟩

end Sys2Proof.Machine
end

