-- ==== Sys2Proof/Machine/Parser.lean ====
section
/-! DEFINITION. The receive half's byte step (40_rx_parser R112 to R121): the marker test, then one phase
rule; and one byte taken by the whole receive half with its responder. -/

namespace Sys2Proof.Machine

/-- The last `n` bytes of a byte string, or all of it if it is shorter. -/
def lastN (n : Nat) (w : List Byte) : List Byte := w.drop (w.length - n)

/-- Whether `b` completes a marker (R113): the last `M` bytes of the history and `b` are `MARKER`. -/
def completesMarker (c : Config) (mhist : List Byte) (b : Byte) : Bool :=
  decide (c.marker.length ≤ (mhist ++ [b]).length) && lastN c.marker.length (mhist ++ [b]) == c.marker

/-- `MarkerTest(b)` (R113): the history after `b`. -/
def nextMhist (c : Config) (mhist : List Byte) (b : Byte) : List Byte :=
  if completesMarker c mhist b then [] else lastN (c.marker.length - 1) (mhist ++ [b])

/-- `MarkerDetected()` (R114). Its error is `ERR_RESYNC`, whose recovery lands in `READ_NAME` (R236). -/
def markerDetected (r : RxRegs) : RxRegs × Option Event :=
  ({ msgClear r with phase := .readName },
   if r.phase ≠ .seekMarker then some (.err .resync) else none)

/-- `NameByte(b)` (R115). -/
def nameByte (c : Config) (b : Byte) (r : RxRegs) : Except Fault (RxRegs × Option Event) :=
  if r.nameLen = c.nameMax then .ok (raiseRxError .nameTooLong r)
  else match bufWrite c .nameBuf r.nameBuf r.nameLen [b] with
    | .ok m => .ok ({ r with nameBuf := m, nameLen := r.nameLen + 1 }, none)
    | .error f => .error f

/-- `NameEnd()` (R116). -/
def nameEnd (c : Config) (r : RxRegs) : Except Fault (RxRegs × Option Event) :=
  match bufRead c .nameBuf r.epoch r.nameBuf 0 r.nameLen with
  | .error f => .error f
  | .ok name =>
    match nameIndex c name with
    | some i => .ok ({ r with nameId := i, lenAcc := 0#32, lenCnt := 0, phase := .readLength }, none)
    | none => .ok (raiseRxError .unknownName r)

/-- An accumulator with its next byte, least significant first (R25, R117, R120). -/
def accumulate (acc : Word) (cnt : Fin 4) (b : Byte) : Word := acc ||| (b.setWidth 32 <<< (8 * cnt.val))

/-- `LengthByte(b)` (R117 while `len_cnt < 3`, R118 on the fourth byte). -/
def lengthByte (c : Config) (b : Byte) (r : RxRegs) : RxRegs × Option Event :=
  if r.lenCnt < 3 then
    ({ r with lenAcc := accumulate r.lenAcc r.lenCnt b, lenCnt := r.lenCnt + 1 }, none)
  else
    let len := (accumulate r.lenAcc 3 b).toNat
    if len > c.lenCap then raiseRxError .oversize r
    else if len > c.payloadRamBytes then raiseRxError .alloc r
    else
      ({ r with plen := len, payCnt := 0, crcRun := crcInit, crcAcc := 0#32, crcCnt := 0, lenCnt := 0,
                hwm := max r.hwm len, phase := if len = 0 then .readCrc else .readPayload }, none)

/-- `PayloadByte(b)` (R119). -/
def payloadByte (c : Config) (b : Byte) (r : RxRegs) : Except Fault (RxRegs × Option Event) :=
  match bufWrite c .pbuf r.pbuf r.payCnt [b] with
  | .error f => .error f
  | .ok m =>
    .ok ({ r with pbuf := m, crcRun := crcUpdate r.crcRun b, payCnt := r.payCnt + 1,
                  phase := if r.payCnt + 1 = r.plen then .readCrc else r.phase }, none)

/-- `CrcByte(b)` (R120 while `crc_cnt < 3`, R121 on the fourth byte). -/
def crcByte (c : Config) (b : Byte) (r : RxRegs) : Except Fault (RxRegs × Option Event) :=
  if r.crcCnt < 3 then
    .ok ({ r with crcAcc := accumulate r.crcAcc r.crcCnt b, crcCnt := r.crcCnt + 1 }, none)
  else if accumulate r.crcAcc 3 b ≠ r.crcRun ^^^ 0xFFFFFFFF#32 then .ok (raiseRxError .crc r)
  else match c.nameTable[r.nameId]?, bufRead c .pbuf r.epoch r.pbuf 0 r.plen with
    | none, _ => .error (.nameIdRange r.nameId)
    | some _, .error f => .error f
    | some e, .ok p =>
      match subDecode c.trailingPolicy r.nameId e.cls p with
      | none => .ok (raiseRxError .malformed r)
      | some cmd =>
        .ok ({ msgClear r with phase := .seekMarker, acksOwed := r.acksOwed + 1 }, some (.frameOk cmd))

/-- `ByteStep(b)` (R112): every byte meets the marker test first. -/
def byteStep (c : Config) (b : Byte) (r : RxRegs) : Except Fault (RxRegs × Option Event) :=
  let r' := { r with mhist := nextMhist c r.mhist b }
  if completesMarker c r.mhist b then .ok (markerDetected r')
  else match r.phase with
    | .seekMarker => .ok (r', none)
    | .readName => if b = 0#8 then nameEnd c r' else nameByte c b r'
    | .readLength => .ok (lengthByte c b r')
    | .readPayload => payloadByte c b r'
    | .readCrc => crcByte c b r'

/-- One byte taken by the receive half: the byte step, then the response to its event (R111, R211). -/
def receiveByte (b : Byte) (s : State) : Except Fault (State × Option Event) :=
  match byteStep s.cfg b s.rx with
  | .error f => .error f
  | .ok (r, none) => .ok ({ s with rx := r }, none)
  | .ok (r, some e) => .ok (respond e { s with rx := r }, some e)

end Sys2Proof.Machine
end

