-- ==== Sys2Proof/Machine/RxPorts.lean ====
section
/-! DEFINITION. The meanings of the receive half's port operations (R110, R111, R123, R210, R270). -/

namespace Sys2Proof.Machine

/-- How many of the bytes offered the FIFO has room for (R110). -/
def feedRoom (bytes : List Byte) (s : State) : Nat := min bytes.length (s.cfg.rxbufCap - s.rx.rxq.length)

/-- The FIFO takes the bytes it has room for, and the count is the response (R110). -/
def feedTake (bytes : List Byte) (s : State) : State :=
  { s.clearOut with rx := { s.rx with rxq := s.rx.rxq ++ bytes.take (feedRoom bytes s) } }.emit
    (.feedCount (feedRoom bytes s))

/-- `FEED(bytes)` (R110). What is not accepted stays with the transport that called it (log 28). -/
def execFeed (bytes : List Byte) (s : State) : Host.Outcome State Fault Refusal := .next (feedTake bytes s)

/-- One machine step of `DECODE` (R111): it responds `INCOMPLETE` on an empty FIFO, else takes one byte,
and responds if that byte's step emits an event. A `DECODE` that has not responded is in progress. -/
def execDecode (s : State) : Host.Outcome State Fault Refusal :=
  match s.rx.rxq with
  | [] => .next ({ s.clearOut with rx := { s.rx with decoding := false } }.emit .incomplete)
  | b :: q =>
    match receiveByte b { s.clearOut with rx := { s.rx with rxq := q } } with
    | .error f => .fault f
    | .ok (t, ev) => .next { t with rx := { t.rx with decoding := ev.isNone } }

/-- The transport offers to `FEED` what stands on the byte pipe, and keeps what is not accepted
(R50, R110). -/
def pipeOffer (bytes : List Byte) (s : State) : State :=
  { feedTake bytes s with pipe := some (bytes.drop (feedRoom bytes s)) }

/-- Bytes arrive on the byte pipe, behind those that stand there, and the transport makes one `FEED` of
them. No byte passes the parser in this step (R11, R110): the steps after it do that one by one, by
`pipeTurn` (log 5). -/
def pipeArrives (bytes : List Byte) (s : State) : State := pipeOffer (s.pipe.getD [] ++ bytes) s

/-- `DRAIN` (R123). -/
def execDrain (s : State) : Host.Outcome State Fault Refusal :=
  .next { s.clearOut with rx := { s.rx with rxq := [] } }

/-- `CMD_DONE` (R210). -/
def execCmdDone (s : State) : Host.Outcome State Fault Refusal :=
  if s.rx.acksOwed > 0 then
    .next ({ s.clearOut with rx := { s.rx with acksOwed := s.rx.acksOwed - 1 } }.scPush s.cfg.ackToken)
  else .next s.clearOut

/-- `RESET_RX` (R270). It ends a `DECODE` in progress. The contents of `name_buf` and PBUF are
unspecified again: nothing is listed, and the free bytes are those of a new epoch (log 12). -/
def execResetRx (s : State) : Host.Outcome State Fault Refusal :=
  .next { s.clearOut with
    rx := { msgClear s.rx with
      phase := .seekMarker, mhist := [], nameId := 0, hwm := 0, rxq := [], acksOwed := 0,
      nameBuf := [], pbuf := [], decoding := false, epoch := s.rx.epoch + 1 } }

end Sys2Proof.Machine
end

