-- ==== Sys2Proof/Machine/Frames.lean ====
section
/-! DEFINITION. The meanings of the 16 frames. A frame stands on the byte pipe, and the transport offers it to
the receive half, whose parser then takes it one byte a step (R11; log 5). The layout of each is the class its
`name_id` has in `NAME_TABLE` (R88), which the final CRC step hands to the sub-decoder (R121, R150). -/

namespace Sys2Proof.Machine

/-- A frame of variant `id` arrives (R80). -/
def frameArrives (id : Nat) (payload : List Byte) (crc : Word) (s : State) :
    Host.Outcome State Fault Refusal :=
  .next (pipeArrives (frameBytes s.cfg id payload crc) s)

/-- R151: `strip: i32 @0`, `index: i32 @4`, `colors: u32[] @8`. -/
def execSetColor (payload : List Byte) (crc : Word) (s : State) : Host.Outcome State Fault Refusal :=
  frameArrives 0 payload crc s

/-- R152: `seconds: f32 @0`, `f1: f32 @4`, `f2: f32 @8`. -/
def execBreathe (payload : List Byte) (crc : Word) (s : State) : Host.Outcome State Fault Refusal :=
  frameArrives 1 payload crc s

/-- R153: `strip: i32 @0`, `colorsPerStrip: i32 @4`, `seconds: f32 @8`, `colors: u32[] @12`. -/
def execGradient (payload : List Byte) (crc : Word) (s : State) : Host.Outcome State Fault Refusal :=
  frameArrives 2 payload crc s

/-- R154: `speed: f32 @0`, `direction: f32 @4`, `size: u32 @8`, `colors: u32[] @12`. -/
def execMovingGradient (payload : List Byte) (crc : Word) (s : State) : Host.Outcome State Fault Refusal :=
  frameArrives 3 payload crc s

/-- R155: `seconds: f32 @0`, `colors: u32[] @4`. -/
def execCrossFade (payload : List Byte) (crc : Word) (s : State) : Host.Outcome State Fault Refusal :=
  frameArrives 4 payload crc s

/-- R156: `length: u32 @0`, `seconds: f32 @4`. -/
def execRainbow (payload : List Byte) (crc : Word) (s : State) : Host.Outcome State Fault Refusal :=
  frameArrives 5 payload crc s

/-- R157: `cooling: f32 @0`, `sparkle: f32 @4`, `seconds: f32 @8`. -/
def execFire (payload : List Byte) (crc : Word) (s : State) : Host.Outcome State Fault Refusal :=
  frameArrives 6 payload crc s

/-- R158: `density: u32 @0`, `seconds: f32 @4`, `colors[0]: u32 @8`, `colors[1]: u32 @12`. -/
def execTwinkle (payload : List Byte) (crc : Word) (s : State) : Host.Outcome State Fault Refusal :=
  frameArrives 7 payload crc s

/-- R159: `iterations: u32 @0`. -/
def execNeuralDrop (payload : List Byte) (crc : Word) (s : State) : Host.Outcome State Fault Refusal :=
  frameArrives 8 payload crc s

/-- R160: `iterations: u32 @0`, `size: u32 @4`, `amount: f32 @8`. -/
def execWaterDrop (payload : List Byte) (crc : Word) (s : State) : Host.Outcome State Fault Refusal :=
  frameArrives 9 payload crc s

/-- R161: `size: u32 @0`, `amount: f32 @4`. -/
def execStartRain (payload : List Byte) (crc : Word) (s : State) : Host.Outcome State Fault Refusal :=
  frameArrives 10 payload crc s

/-- R162: no fields. -/
def execStopRain (payload : List Byte) (crc : Word) (s : State) : Host.Outcome State Fault Refusal :=
  frameArrives 11 payload crc s

/-- R163: no fields. -/
def execStatus (payload : List Byte) (crc : Word) (s : State) : Host.Outcome State Fault Refusal :=
  frameArrives 12 payload crc s

/-- R164: `numStrips: u32 @0`, `ledsPerStrip: u32 @4`, `seconds: f32 @8`, `runs @12`. -/
def execEncodedBuffer (payload : List Byte) (crc : Word) (s : State) : Host.Outcome State Fault Refusal :=
  frameArrives 13 payload crc s

/-- R165: `numStrips: u32 @0`, `ledsPerStrip: u32 @4`, `seconds: f32 @8`, `colors: u32[N] @12`. -/
def execFullBuffer (payload : List Byte) (crc : Word) (s : State) : Host.Outcome State Fault Refusal :=
  frameArrives 14 payload crc s

/-- R166: no fields. -/
def execSpeedTest (payload : List Byte) (crc : Word) (s : State) : Host.Outcome State Fault Refusal :=
  frameArrives 15 payload crc s

end Sys2Proof.Machine
end

