-- ==== Sys2Proof/Machine/Flags.lean ====
section
/-! DEFINITION. The status outputs of 10_state R46 (the codec has no flags), and the encodings of the
control registers (R22, R36). No operation writes a status output: each is a function of the state. -/

namespace Sys2Proof.Machine

/-- The 3-bit encoding of `phase` (R22). -/
def Phase.code : Phase → BitVec 3
  | .seekMarker => 0
  | .readName => 1
  | .readLength => 2
  | .readPayload => 3
  | .readCrc => 4

/-- The 2-bit encoding of `tx_state` (R36). -/
def TxMode.code : TxMode → BitVec 2
  | .idle => 0
  | .writing => 1
  | .waiting => 2
  | .fatal => 3

/-- `rx_in_frame` (R46). -/
def State.rxInFrame (s : State) : Bool := s.rx.phase ≠ .seekMarker

/-- `rx_fifo_count` (R46). -/
def State.rxFifoCount (s : State) : Nat := s.rx.rxq.length

/-- `tx_ready` (R46, R182). -/
def State.txReady (s : State) : Bool := s.tx.txState = .idle

/-- `FATAL`, a level (R46, R241). -/
def State.fatalOut (s : State) : Bool := s.tx.txState = .fatal

end Sys2Proof.Machine
end

