-- ==== Sys2Proof/Machine/TxPorts.lean ====
section
/-! DEFINITION. The send half: frame assembly (R183), the wait engine (R201 to R205), and the meanings of
its port operations (R182, R186, R201, R240, R271). -/

namespace Sys2Proof.Machine

/-- `Assemble(cmd, p)` (R183): marker, name and `00`, four bytes reserved for the length, the fields,
then the length patched in and the CRC appended. -/
def assemble (c : Config) (cmd : Cmd) (p : List Byte) (t : TxRegs) : Except Fault TxRegs := do
  let nm := spelling c cmd.nameId
  let at_ := c.marker.length + nm.length
  let m ← bufWrite c .txbuf t.txbuf 0 c.marker
  let m ← bufWrite c .txbuf m c.marker.length nm
  let m ← bufWrite c .txbuf m at_ [0#8]
  let m ← bufWrite c .txbuf m (at_ + 1) [0#8, 0#8, 0#8, 0#8]
  let m ← bufWrite c .txbuf m (at_ + 5) p
  let m ← bufWrite c .txbuf m (at_ + 1) (le32 (BitVec.ofNat 32 p.length))
  let m ← bufWrite c .txbuf m (at_ + 5 + p.length) (le32 (crc32 p))
  pure { t with txbuf := m, txLen := at_ + 9 + p.length }

/-- A request that is not accepted is held by its source (R207; log 8). -/
def holdRequest (cmd : Cmd) (s : State) : State := { s with held := s.held ++ [cmd] }.emit .notAccepted

/-- An accepted `SEND` begins the write, and arms the watchdog if it is not armed (R182, R185). -/
def beginWrite (t : TxRegs) (s : State) : State :=
  { s with tx := { t with
      txPos := 0, polls := 0, txState := .writing, wdArmed := true,
      wdElapsed := if t.wdArmed then t.wdElapsed else 0 } }.emit .accepted

/-- `SEND(cmd)` (R182). Of a record that the encoder refuses, R37 says that it is accepted and R185 and R240
do not: the model takes it from its source, and the ports carry its outcome and no `accepted` (log 30). -/
def execSend (cmd : Cmd) (s : State) : Host.Outcome State Fault Refusal :=
  if !s.txReady then .next (holdRequest cmd s.clearOut)
  else if !wellFormedCmd s.cfg cmd then .next (s.clearOut.setOutcome .encMalformed)
  else if (payloadOf cmd).length > s.cfg.lenCap then .next (s.clearOut.setOutcome .encOversize)
  else match assemble s.cfg cmd (payloadOf cmd) s.tx with
    | .error f => .fault f
    | .ok t => .next (beginWrite t s.clearOut)

/-- `WRITE_STEP` answered `count` (R186). When it is not enabled nothing happens (log 7). What the
byte pipe makes of the bytes is not the machine's (R50; log 29). -/
def execWriteStep (count : Nat) (s : State) : Host.Outcome State Fault Refusal :=
  if s.tx.txState ≠ .writing then .next (s.clearOut.emit .disabled)
  else match bufRead s.cfg .txbuf s.tx.epoch s.tx.txbuf s.tx.txPos (s.tx.txLen - s.tx.txPos) with
    | .error f => .fault f
    | .ok offered =>
      if count > offered.length then .refused (.sinkOverrun offered.length count)
      else
        let pos := s.tx.txPos + count
        let s' := { s.clearOut with tx := { s.tx with txPos := pos } }.emit (.sinkWrite offered count)
        if pos = s.tx.txLen then .next { s' with tx := { s'.tx with txState := .waiting, polls := 0 } }
        else .next s'

/-- `AckOk()` (R202). -/
def ackOk (s : State) : State :=
  { s with tx := { s.tx with txState := .idle, wdArmed := false } }.setOutcome .ackOk

/-- The watchdog after an error line or a timeout (R203, R205): disarmed under `wait_end` only. -/
def armedAfterWait (s : State) : Bool :=
  match s.cfg.wdClearOn with
  | .waitEnd => false
  | .ackOnly => s.tx.wdArmed

/-- `AckError()` (R203): it flushes the side channel. -/
def ackError (s : State) : State :=
  let s := { s with tx := { s.tx with txState := .idle, wdArmed := armedAfterWait s } }.setOutcome .ackError
  { s with sc := [] }.emit .scFlush

/-- `AckTimeout()` (R205). -/
def ackTimeout (s : State) : State :=
  { s with tx := { s.tx with txState := .idle, wdArmed := armedAfterWait s } }.setOutcome .ackTimeout

/-- A poll is counted, and its answer judged (R201, R204): the tokens first, then the budget. -/
def countPoll (ans : Option Line) (s : State) : State :=
  let s := { s with tx := { s.tx with polls := s.tx.polls + 1 } }
  match ans with
  | some l =>
    if isAckLine s.cfg l then ackOk s
    else if isErrLine s.cfg l then ackError s
    else if s.tx.polls = s.cfg.retryBudget then ackTimeout s
    else s
  | none => if s.tx.polls = s.cfg.retryBudget then ackTimeout s else s

/-- A poll with its answer (R201). A null answer took `POLL_TIMEOUT_MS`, and a watchdog that this fires
comes first (R237 item 5). -/
def pollAnswered (ans : Option Line) (s : State) : State :=
  let s := s.emit (.sinkReadline s.cfg.pollTimeoutMs)
  match ans with
  | some _ => countPoll ans s
  | none =>
    let s := watchdogAdvance s.cfg.pollTimeoutMs s
    if s.tx.txState = .fatal then s else countPoll none s

/-- `POLL` (R201). A line answer is the head of `SC`, or a line that has just arrived on an empty `SC`
(log 10). When it is not enabled nothing happens (log 7). -/
def execPoll (ans : Option Line) (s : State) : Host.Outcome State Fault Refusal :=
  if s.tx.txState ≠ .waiting then .next (s.clearOut.emit .disabled)
  else match ans, s.sc with
    | none, _ => .next (pollAnswered none s.clearOut)
    | some l, [] => .next (pollAnswered (some l) s.clearOut)
    | some l, h :: rest =>
      if h = l then .next (pollAnswered (some l) { s.clearOut with sc := rest })
      else .refused .pollAnswerNotHead

/-- `TIME(Δ)` (R240). -/
def execTime (deltaMs : Nat) (s : State) : Host.Outcome State Fault Refusal :=
  .next (watchdogAdvance deltaMs s.clearOut)

/-- `RESET_TX` (R271). The contents of TXBUF are unspecified again (log 12). Held requests and `SC`
stay. -/
def execResetTx (s : State) : Host.Outcome State Fault Refusal :=
  .next { s.clearOut with
    tx := { s.tx with
      txState := .idle, txLen := 0, txPos := 0, polls := 0, lastOutcome := .none,
      wdArmed := false, wdElapsed := 0, txbuf := [], epoch := s.tx.epoch + 1 } }

end Sys2Proof.Machine
end

