-- ==== Sys2Proof/Machine/Lines.lean ====
section
/-! DEFINITION. The meanings of the two side-channel lines (R92, R93): the line arrives on the side channel,
and a sender that waits makes one poll (R11; log 6). -/

namespace Sys2Proof.Machine

/-- A line arrives at the tail of `SC` (R50, R73). In the same step a sender that waits polls once, and its
answer is the head of `SC` (R201). -/
def lineArrives (l : Line) (s : State) : State :=
  let q := s.sc ++ [l]
  if s.tx.txState = .waiting then pollAnswered q.head? { s.clearOut with sc := q.tail }
  else { s.clearOut with sc := q }

/-- `ACK_LINE` (R92): a line that begins with the completion token. The rest is ignored. -/
def execAckLine (rest : List Byte) (s : State) : Host.Outcome State Fault Refusal :=
  .next (lineArrives (s.cfg.ackToken ++ rest) s)

/-- `ERR_LINE` (R92, R93): a line that begins with the error token. The device's form has `20 HEX2(code)`
as its rest. -/
def execErrLine (rest : List Byte) (s : State) : Host.Outcome State Fault Refusal :=
  .next (lineArrives (s.cfg.errToken ++ rest) s)

end Sys2Proof.Machine
end

