-- ==== Sys2Proof/Machine/Dispatch.lean ====
section
/-! DEFINITION. One arm per instruction, each one call of its meaning. -/

namespace Sys2Proof.Machine

def exec (i : Instr) (s : State) : Host.Outcome State Fault Refusal :=
  match i with
  | .setColor payload crc => Sys2Proof.Machine.execSetColor payload crc s
  | .breathe payload crc => Sys2Proof.Machine.execBreathe payload crc s
  | .gradient payload crc => Sys2Proof.Machine.execGradient payload crc s
  | .movingGradient payload crc => Sys2Proof.Machine.execMovingGradient payload crc s
  | .crossFade payload crc => Sys2Proof.Machine.execCrossFade payload crc s
  | .rainbow payload crc => Sys2Proof.Machine.execRainbow payload crc s
  | .fire payload crc => Sys2Proof.Machine.execFire payload crc s
  | .twinkle payload crc => Sys2Proof.Machine.execTwinkle payload crc s
  | .neuralDrop payload crc => Sys2Proof.Machine.execNeuralDrop payload crc s
  | .waterDrop payload crc => Sys2Proof.Machine.execWaterDrop payload crc s
  | .startRain payload crc => Sys2Proof.Machine.execStartRain payload crc s
  | .stopRain payload crc => Sys2Proof.Machine.execStopRain payload crc s
  | .status payload crc => Sys2Proof.Machine.execStatus payload crc s
  | .encodedBuffer payload crc => Sys2Proof.Machine.execEncodedBuffer payload crc s
  | .fullBuffer payload crc => Sys2Proof.Machine.execFullBuffer payload crc s
  | .speedTest payload crc => Sys2Proof.Machine.execSpeedTest payload crc s
  | .feed bytes => Sys2Proof.Machine.execFeed bytes s
  | .decode => Sys2Proof.Machine.execDecode s
  | .drain => Sys2Proof.Machine.execDrain s
  | .cmdDone => Sys2Proof.Machine.execCmdDone s
  | .resetRx => Sys2Proof.Machine.execResetRx s
  | .send cmd => Sys2Proof.Machine.execSend cmd s
  | .writeStep count => Sys2Proof.Machine.execWriteStep count s
  | .poll ans => Sys2Proof.Machine.execPoll ans s
  | .time deltaMs => Sys2Proof.Machine.execTime deltaMs s
  | .resetTx => Sys2Proof.Machine.execResetTx s
  | .ackLine rest => Sys2Proof.Machine.execAckLine rest s
  | .errLine rest => Sys2Proof.Machine.execErrLine rest s

end Sys2Proof.Machine
end

