-- ==== Sys2Proof/Machine/Fetch.lean ====
section
/-! DEFINITION. How the next operation is chosen and presented (R73, R207, R237 item 6; log 4): a DECODE in
progress and bytes that arrive go on byte by byte, the requests come in order, and the environment's choices
in `sched` may let another agent move first. -/

namespace Sys2Proof.Machine

/-- A request is presented: the instruction it decodes to is executed. Bytes on the pipe that are no
frame of the table reach the parser all the same (R50, R94; log 20), and an ordinary line enters `SC`
(R92). -/
def present (r : Request) (s : State) : Host.Outcome State Fault Refusal :=
  match Sys2Proof.decode s.cfg r, r with
  | .ok i, _ => exec i s
  | .error _, .pipe bytes => .next (pipeArrives bytes s)
  | .error _, .side bytes =>
    match readWholeLine bytes with
    | some l => .next (lineArrives l s)
    | none => .refused .notOneLine
  | .error _, .port _ => .refused .notAPortOperation

/-- Whether a request may be served between two byte steps of a DECODE: `RESET_RX` at any time (R270), and
whatever concerns the send half (R73). The receive half's other operations wait for its response. -/
def mayInterleave : Request → Bool
  | .pipe _ => false
  | .side _ => true
  | .port op => match op with
    | .feed _ | .decode | .drain | .cmdDone => false
    | .resetRx | .send _ | .writeStep _ | .poll _ | .time _ | .resetTx => true
    | .ackLine _ | .errLine _ => true
    | .setColor _ _ | .breathe _ _ | .gradient _ _ | .movingGradient _ _ | .crossFade _ _ | .rainbow _ _
    | .fire _ _ | .twinkle _ _ | .neuralDrop _ _ | .waterDrop _ _ | .startRain _ _ | .stopRain _ _
    | .status _ _ | .encodedBuffer _ _ | .fullBuffer _ _ | .speedTest _ _ => false

/-- A source presents again the k-th request that is held, if the sender is ready (R207). -/
def retryHeld (k : Nat) (s : State) : Host.Outcome State Fault Refusal :=
  match s.held[k]? with
  | some cmd => if s.txReady then exec (.send cmd) { s with held := s.held.eraseIdx k } else .next s.clearOut
  | none => .next s.clearOut

/-- The next request is served. With none left, a held request is tried; else the block idles (R247). -/
def serveNext (s : State) : Host.Outcome State Fault Refusal :=
  match s.reqs with
  | r :: rest => present r { s with reqs := rest }
  | [] => retryHeld 0 s

/-- One step of the device's loop while bytes arrive (R11, R110, R111, R280): a `DECODE` in progress takes
its next byte; else the transport feeds, if it has bytes and there is room; else the loop calls `DECODE`. It
ends with the `DECODE` that finds nothing left. -/
def pipeTurn (s : State) : Host.Outcome State Fault Refusal :=
  match s.pipe with
  | some (b :: bs) =>
    if !s.rx.decoding && decide (s.rx.rxq.length < s.cfg.rxbufCap) then .next (pipeOffer (b :: bs) s)
    else exec .decode s
  | some [] => exec .decode (if s.rx.rxq = [] then { s with pipe := none } else s)
  | none => exec .decode s

/-- What happens where the environment chooses nothing: a DECODE in progress goes on, and so do the arrival
of bytes and the loop that decodes them (log 5); else the next request is served. -/
def stepDefault (s : State) : Host.Outcome State Fault Refusal :=
  if s.rx.decoding || s.pipe.isSome then pipeTurn s else serveNext s

/-- What happens where the environment chooses. `arrive l` appends `l` to `SC` as it is: where it holds a `0A`,
and so is no line (R92) and nothing that `readLine` returns (R244), the model neither refuses nor splits it
(DESIGN CHOICE, safe; log 31). -/
def stepTurn (t : Turn) (s : State) : Host.Outcome State Fault Refusal :=
  match t with
  | .serve =>
    if s.rx.decoding && !(s.reqs.head?.map mayInterleave).getD false then stepDefault s else serveNext s
  | .proceed => stepDefault s
  | .retry k => retryHeld k s
  | .arrive l => .next { s.clearOut with sc := s.sc ++ [l] }

/-- One step of the machine. -/
def nextStep (s : State) : Host.Outcome State Fault Refusal :=
  match s.sched with
  | [] => stepDefault s
  | t :: ts => stepTurn t { s with sched := ts }

end Sys2Proof.Machine
end

