-- ==== Sys2Proof/Machine/Step.lean ====
section
/-! DEFINITION. The machine's step, and where the next instruction is placed. -/

namespace Sys2Proof.Machine

/-- One step: the next operation is chosen, decoded and executed. It has no duration (R287; log 26). -/
def step (s : State) : Host.Outcome State Fault Refusal := nextStep s

/-- `s` with the instruction of a table word presented next: before the other requests, with no DECODE in
progress, no bytes that arrive and no choice of the environment before it (log 3). -/
def State.withFetchWord (s : State) (nbits w : Nat) : State :=
  { s with
    reqs := tableRequest s.cfg nbits w :: s.reqs
    sched := []
    pipe := none
    rx := { s.rx with decoding := false } }

end Sys2Proof.Machine
end

