-- ==== Sys2Proof/Machine/Notation.lean ====
section
/-! DEFINITION. The written form of frames and port operations (30_encoding R101): a program is one port
operation a line, and `FRAME`, `RAW` and plain hexadecimal stand for byte strings. The assembler reads
ASCII bytes. Log 17 says which spellings it takes beyond R101's words. -/

namespace Sys2Proof.Machine

/-- ASCII text as bytes (R7). -/
def ascii (cs : List Char) : List Byte := cs.map fun c => BitVec.ofNat 8 c.toNat

/-- A token: a run of letters, digits, `_`, `.` and `-`, or one other character but a space. -/
inductive Tok where
  | word (w : List Byte)
  | punct (b : Byte)
  deriving DecidableEq, Repr

def inRange (lo hi : Nat) (b : Byte) : Bool := decide (lo ≤ b.toNat) && decide (b.toNat ≤ hi)

def isWordByte (b : Byte) : Bool :=
  inRange 0x30 0x39 b || inRange 0x41 0x5A b || inRange 0x61 0x7A b || b = 0x5F || b = 0x2E || b = 0x2D

def flushWord (w : List Byte) : List Tok := if w.isEmpty then [] else [.word w]

/-- The tokens of a line, given the word begun before it. -/
def tokens : List Byte → List Byte → List Tok
  | [], w => flushWord w
  | b :: bs, w =>
    if isWordByte b then tokens bs (w ++ [b])
    else flushWord w ++ (if b = 0x20 then [] else [.punct b]) ++ tokens bs []

/-- The value of a digit in a base of at most 16. -/
def digitValue (base : Nat) (b : Byte) : Option Nat :=
  let v := if inRange 0x30 0x39 b then some (b.toNat - 0x30)
    else if inRange 0x41 0x46 b then some (b.toNat - 0x41 + 10)
    else if inRange 0x61 0x66 b then some (b.toNat - 0x61 + 10)
    else none
  v.filter fun n => decide (n < base)

def digitsFrom (base : Nat) : Nat → List Byte → Option Nat
  | acc, [] => some acc
  | acc, b :: bs =>
    match digitValue base b with
    | some v => digitsFrom base (acc * base + v) bs
    | none => none

/-- A nonempty run of digits. -/
def natural (base : Nat) (w : List Byte) : Option Nat := if w.isEmpty then none else digitsFrom base 0 w

/-- The bytes before and after the first `.`, if there is one. -/
def splitAtDot : List Byte → Option (List Byte × List Byte)
  | [] => none
  | b :: bs => if b = 0x2E then some ([], bs) else (splitAtDot bs).map fun (l, r) => (b :: l, r)

/-- The IEEE 754 binary32 pattern of `p / q`, rounded to nearest, ties to even. PRESUMED from outside the
source, as R8 and R101 mark it (log 17). -/
def binary32 (p q : Nat) : Nat :=
  let x := (p <<< 256) / q
  let e := Nat.log2 x - 130
  let sh := 107 + e
  let m := x >>> sh
  let r := 2 * (x % 2 ^ sh) + (if (p <<< 256) % q = 0 then 0 else 1)
  let up := decide (r > 2 ^ sh) || (decide (r = 2 ^ sh) && decide (m % 2 = 1))
  min (e * 2 ^ 23 + m + (if up then 1 else 0)) 0x7F800000

/-- A field's value: decimal, `0x` hexadecimal, or a decimal real (R101). -/
def scalar (w : List Byte) : Option Word :=
  if (ascii ['0', 'x']).isPrefixOf w then
    (natural 16 (w.drop 2)).bind fun n => if n < 2 ^ 32 then some (BitVec.ofNat 32 n) else none
  else
    let neg := w.head? = some 0x2D
    let u := if neg then w.drop 1 else w
    match splitAtDot u with
    | some (l, r) =>
      match natural 10 l, natural 10 r with
      | some a, some b =>
        let v := binary32 (a * 10 ^ r.length + b) (10 ^ r.length)
        some (BitVec.ofNat 32 (if neg then v + 2 ^ 31 else v))
      | _, _ => none
    | none =>
      (natural 10 u).bind fun n =>
        if neg then if n ≤ 2 ^ 31 then some (BitVec.ofNat 32 (2 ^ 32 - n)) else none
        else if n < 2 ^ 32 then some (BitVec.ofNat 32 n) else none

/-- Where in a record's braces the reader is. -/
inductive FieldMode where
  | top
  | list
  | pairFirst
  | pairSecond (first : Word)
  | pairEnd
  deriving DecidableEq, Repr

/-- The fields of a record up to its closing brace: `key =` is passed over (fields stand in layout order),
values outside brackets are words, and those inside are elements. -/
def fields : List Tok → FieldMode → List Word → List Elem → Option (List Word × List Elem)
  | [], _, _, _ => none
  | .word w :: rest, mode, ws, es =>
    match mode with
    | .top =>
      if rest.head? = some (.punct 0x3D) then fields rest .top ws es
      else (scalar w).bind fun v => fields rest .top (ws ++ [v]) es
    | .list => (scalar w).bind fun v => fields rest .list ws (es ++ [.one v])
    | .pairFirst => (scalar w).bind fun v => fields rest (.pairSecond v) ws es
    | .pairSecond u => (scalar w).bind fun v => fields rest .pairEnd ws (es ++ [.pair u v])
    | .pairEnd => none
  | .punct b :: rest, mode, ws, es =>
    if b = 0x2C then fields rest mode ws es
    else match mode with
    | .top =>
      if b = 0x7D then if rest.isEmpty then some (ws, es) else none
      else if b = 0x5B then fields rest .list ws es
      else if b = 0x3D then fields rest .top ws es
      else none
    | .list =>
      if b = 0x5D then fields rest .top ws es else if b = 0x28 then fields rest .pairFirst ws es else none
    | .pairEnd => if b = 0x29 then fields rest .list ws es else none
    | .pairFirst | .pairSecond _ => none

/-- `Name{f1=v1, ..., elems=[...]}` (R101). A list that completes the words of a class without a variable
part is the rest of its words (`Twinkle`'s two colours, R158). -/
def record (c : Config) : List Tok → Option Cmd
  | .word name :: .punct 0x7B#8 :: rest =>
    match nameIndex c name, fields rest .top [] [] with
    | some id, some (ws, es) =>
      match c.nameTable[id]? with
      | some ⟨_, .fixed k⟩ =>
        if ws.length < k ∧ ws.length + es.length = k ∧ es.all elemIsOne then
          some ⟨id, ws ++ es.map (fun e => match e with | .one w => w | .pair _ w => w), []⟩
        else some ⟨id, ws, es⟩
      | _ => some ⟨id, ws, es⟩
    | _, _ => none
  | _ => none

/-- Two-digit hexadecimal bytes (R7). -/
def hexBytes : List Tok → Option (List Byte)
  | [] => some []
  | .word w :: rest =>
    if w.length = 2 then
      match natural 16 w, hexBytes rest with
      | some n, some bs => some (BitVec.ofNat 8 n :: bs)
      | _, _ => none
    else none
  | .punct _ :: _ => none

/-- A byte string: `FRAME Name{...}` is its bytes, `RAW` and plain hexadecimal are literal (R101). -/
def byteString (c : Config) : List Tok → Option (List Byte)
  | [] => some []
  | t :: ts =>
    if t = .word (ascii ['F', 'R', 'A', 'M', 'E']) then (record c ts).map (encodeCmd c)
    else if t = .word (ascii ['R', 'A', 'W']) then hexBytes ts
    else hexBytes (t :: ts)

/-- The answer of a `POLL` line: `null`, or a line in double quotes (R101). -/
def pollAnswer (t : List Byte) : Option (Option Line) :=
  if t = ascii ['n', 'u', 'l', 'l'] then some none
  else match t with
    | q :: body =>
      if q = 0x22 ∧ body.getLast? = some 0x22 then some (some body.dropLast) else none
    | [] => none

/-- One number, as the operand of an operation. -/
def oneNumber : List Tok → Option Nat
  | [.word w] => natural 10 w
  | _ => none

/-- One line of a program (R101). -/
def assembleLine (c : Config) (text : List Byte) : Option Instr :=
  let poll := ascii ['P', 'O', 'L', 'L', ' ', '-', '>', ' ']
  if poll.isPrefixOf text then (pollAnswer (text.drop poll.length)).map .poll
  else match tokens text [] with
    | .word op :: ts =>
      if op = ascii ['F', 'E', 'E', 'D'] then (byteString c ts).map .feed
      else if op = ascii ['S', 'E', 'N', 'D'] then (record c ts).map .send
      else if op = ascii ['W', 'R', 'I', 'T', 'E', '_', 'S', 'T', 'E', 'P'] then (oneNumber ts).map .writeStep
      else if op = ascii ['T', 'I', 'M', 'E'] then (oneNumber ts).map .time
      else if ts ≠ [] then none
      else if op = ascii ['D', 'E', 'C', 'O', 'D', 'E'] then some .decode
      else if op = ascii ['D', 'R', 'A', 'I', 'N'] then some .drain
      else if op = ascii ['C', 'M', 'D', '_', 'D', 'O', 'N', 'E'] then some .cmdDone
      else if op = ascii ['R', 'E', 'S', 'E', 'T', '_', 'R', 'X'] then some .resetRx
      else if op = ascii ['R', 'E', 'S', 'E', 'T', '_', 'T', 'X'] then some .resetTx
      else none
    | _ => none

/-- A program: its lines, assembled in order; the first argument is the line begun (R101). -/
def assembleProgram (c : Config) : List Byte → List Byte → Option (List Instr)
  | line, [] => if line.isEmpty then some [] else (assembleLine c line).map ([·])
  | line, b :: bs =>
    if b = 0x0A then
      match assembleLine c line, assembleProgram c [] bs with
      | some i, some rest => some (i :: rest)
      | _, _ => none
    else assembleProgram c (line ++ [b]) bs

/-- A program is loaded from outside: its operations are what the callers present next (log 3). -/
def State.load (s : State) (prog : List Instr) : State :=
  { s with reqs := s.reqs ++ prog.map (encode s.cfg) }

end Sys2Proof.Machine
end

