-- ==== Sys2Proof/Safety.lean ====
section
/-! DEFINITION. The terms claims are made in: the invariant of the two halves, what a frame that arrives
whole does, and runs of `DECODE`, of `POLL` and of the machine's own steps. -/

namespace Sys2Proof.Machine

/-! ### The invariant -/

/-- What holds of the receive half between steps (R21 to R27, R33, R62, R63). -/
structure RxInv (c : Config) (r : RxRegs) : Prop where
  /-- `mhist` keeps at most `M-1` bytes (R23). -/
  mhist_short : r.mhist.length < c.marker.length
  /-- `name_len` never exceeds `NAME_MAX` (R24). -/
  nameLen_le : r.nameLen ≤ c.nameMax
  nameBuf_wf : memWf r.nameBuf = true
  nameBuf_in : ∀ x ∈ r.nameBuf, x.1 < c.nameMax
  /-- The name's bytes are written before they are read. -/
  nameBuf_written : ∀ i < r.nameLen, (memRead r.nameBuf i).isSome = true
  pbuf_wf : memWf r.pbuf = true
  pbuf_in : ∀ x ∈ r.pbuf, x.1 < c.payloadRamBytes
  /-- PBUF below `pay_cnt` was written in the current frame (R62). -/
  pbuf_written : ∀ i < r.payCnt, (memRead r.pbuf i).isSome = true
  payCnt_le : r.payCnt ≤ r.plen
  plen_le : r.plen ≤ r.hwm
  hwm_le : r.hwm ≤ c.payloadRamBytes
  rxq_le : r.rxq.length ≤ c.rxbufCap
  /-- The running CRC is that of the payload bytes received (R27). -/
  crcRun_eq : r.crcRun = crcFold crcInit (memReadN .pbuf r.epoch r.pbuf 0 r.payCnt)
  /-- A frame past its name has a known one (R21). -/
  nameId_lt : r.phase ≠ .seekMarker → r.phase ≠ .readName → r.nameId < c.nameTable.length
  /-- What `MsgClear` left, up to the phase that writes it (R33, R118). -/
  seek_clear : r.phase = .seekMarker → r.nameLen = 0
  len_clear : r.phase = .seekMarker ∨ r.phase = .readName → r.lenAcc = 0#32 ∧ r.lenCnt = 0
  plen_clear : r.phase ≠ .readPayload → r.phase ≠ .readCrc → r.plen = 0
  crc_clear : r.phase ≠ .readCrc → r.crcAcc = 0#32 ∧ r.crcCnt = 0
  payload_open : r.phase = .readPayload → r.payCnt < r.plen
  payload_full : r.phase = .readCrc → r.payCnt = r.plen
  lenCnt_clear : r.phase = .readPayload ∨ r.phase = .readCrc → r.lenCnt = 0

/-- What holds of the send half between steps (R36, R65, R186, R201, R240, R241). -/
structure TxInv (c : Config) (t : TxRegs) : Prop where
  txbuf_wf : memWf t.txbuf = true
  txbuf_in : ∀ x ∈ t.txbuf, x.1 < spaceSize c .txbuf
  txLen_le : t.txLen ≤ spaceSize c .txbuf
  /-- The frame's bytes are written before they are read (R65). -/
  txbuf_written : ∀ i < t.txLen, (memRead t.txbuf i).isSome = true
  txPos_le : t.txPos ≤ t.txLen
  polls_le : t.polls ≤ c.retryBudget
  writing_open : t.txState = .writing → t.txPos < t.txLen
  waiting_open : t.txState = .waiting → t.txPos = t.txLen ∧ t.polls < c.retryBudget
  /-- `WD_FATAL` is the outcome exactly in `FATAL` (R232, R241). -/
  fatal_iff : t.txState = .fatal ↔ t.lastOutcome = .wdFatal
  /-- From an accepted `SEND` to the end of its wait the watchdog counts; in `FATAL` it does not. -/
  armed_busy : t.txState = .writing ∨ t.txState = .waiting → t.wdArmed = true
  disarmed_fatal : t.txState = .fatal → t.wdArmed = false
  /-- An armed watchdog has not passed the ceiling (R241). -/
  elapsed_le : t.wdArmed = true → t.wdElapsed ≤ c.wdCeilingMs

/-- The invariant of the machine. -/
structure State.Inv (s : State) : Prop where
  rx : RxInv s.cfg s.rx
  tx : TxInv s.cfg s.tx

/-! ### A frame that arrives whole -/

/-- The marker occurs nowhere in a byte string (R189). -/
abbrev markerFree (c : Config) (f : List Byte) : Prop := ¬ c.marker <:+: f

/-- The one event of a frame whose bytes arrive undisturbed, by the priorities of R237: oversize, then
allocation, then the CRC, then the layout. -/
def frameVerdict (c : Config) (id : Nat) (payload : List Byte) (crc : Word) : Event :=
  if payload.length > c.lenCap then .err .oversize
  else if payload.length > c.payloadRamBytes then .err .alloc
  else if crc ≠ crc32 payload then .err .crc
  else match c.nameTable[id]? with
    | none => .err .unknownName
    | some e =>
      match subDecode c.trailingPolicy id e.cls payload with
      | some cmd => .frameOk cmd
      | none => .err .malformed

/-- What the ports carry in response to an event (R45, R211). -/
def responsePorts (c : Config) : Event → List PortOut
  | .frameOk cmd => [.event (.frameOk cmd)]
  | .err e =>
    if e = .resync then [.event (.err e)]
    else [.event (.err e), .scOut (wireLine (errorLine c e))]

/-- The lines the responder appends for an event (R211). -/
def responseLines (c : Config) : Event → List Line
  | .frameOk _ => []
  | .err e => if e = .resync then [] else [errorLine c e]

/-- The payload is stored: its length was accepted (R118). -/
def payloadStored : Event → Bool
  | .frameOk _ => true
  | .err e => e ≠ .oversize && e ≠ .alloc

/-- The parser's registers after a frame of variant `id` that gave the event `e`: it hunts for a marker
again, its accumulators clear (R33, R121, R235); the name stands in `name_buf` and the payload, if its
length was accepted, in PBUF; a decoded command is owed its acknowledgment (R210). -/
def frameRx (c : Config) (id : Nat) (payload : List Byte) (crc : Word) (e : Event) (r : RxRegs) : RxRegs :=
  { r with
    phase := .seekMarker
    mhist := lastN (c.marker.length - 1) ((frameBytes c id payload crc).drop c.marker.length)
    nameBuf := memWriteN r.nameBuf 0 (spelling c id)
    nameLen := 0, nameId := id, lenAcc := 0#32, lenCnt := 0, plen := 0, payCnt := 0
    pbuf := if payloadStored e then memWriteN r.pbuf 0 payload else r.pbuf
    hwm := if payloadStored e then max r.hwm payload.length else r.hwm
    crcRun := crcInit, crcAcc := 0#32, crcCnt := 0
    acksOwed := match e with | .frameOk _ => r.acksOwed + 1 | .err _ => r.acksOwed }

/-- The premises of R189 on a frame and the state it arrives in, but for its length. -/
structure FrameArrives (s : State) (id : Nat) (payload : List Byte) (crc : Word) : Prop where
  inv : s.Inv
  /-- The receive half hunts for a marker. -/
  seek : s.rx.phase = .seekMarker
  /-- Nothing waits in the FIFO before the frame. -/
  fifo : s.rx.rxq = []
  /-- Nothing else stands on the byte pipe. -/
  pipe : s.pipe = none
  /-- The environment makes no choice of its own while the frame arrives (log 4). -/
  sched : s.sched = []
  /-- `MARKER` is border-free (R6). -/
  border : borderFree s.cfg.marker = true
  /-- The variant has its name in `NAME_TABLE`. -/
  known : id < s.cfg.nameTable.length
  /-- `MARKER` does not occur after the frame's own marker. -/
  free : markerFree s.cfg ((frameBytes s.cfg id payload crc).drop s.cfg.marker.length)

/-! ### One byte -/

/-- The machine after one byte left the FIFO, which holds `queue` from then on, and its step left the
registers `r` and gave the event `ev`: the event and its error line go out (R45, R211), and nothing else
changed. -/
def byteTaken (queue : List Byte) (r : RxRegs) (ev : Option Event) (s : State) : State :=
  { s with
    rx := { r with rxq := queue, decoding := ev.isNone }
    sc := s.sc ++ (ev.map (responseLines s.cfg)).getD []
    out := (ev.map (responsePorts s.cfg)).getD [] }

/-- The registers after the recovery of R235, the history of the marker test being `mhist`. -/
def recovered (mhist : List Byte) (r : RxRegs) : RxRegs :=
  { msgClear r with phase := .seekMarker, mhist := mhist }

/-- The history of the marker test after a byte string, from an empty one (R113). -/
def historyAfter (c : Config) (w : List Byte) : List Byte := w.foldl (nextMhist c) []

/-! ### Runs of bytes, of DECODE and of POLL -/

/-- The parser's registers after a byte string, one byte step for each byte, and its events in order. -/
def runRx (c : Config) : List Byte → RxRegs → Option (RxRegs × List Event)
  | [], r => some (r, [])
  | b :: bs, r =>
    match byteStep c b r with
    | .ok (r', ev) => (runRx c bs r').map fun x => (x.1, ev.toList ++ x.2)
    | .error _ => none

/-- The events among what the ports carry. -/
def eventsOf (out : List PortOut) : List Event :=
  out.filterMap fun o => match o with | .event e => some e | _ => none

/-- The machine's steps while bytes arrive, within a number of them: the events they emit, after those given,
and the state in which no bytes arrive any more. -/
def runArrival : Nat → State → List Event → Option (List Event × State)
  | 0, _, _ => none
  | n + 1, s, evs =>
    if s.pipe = none then some (evs, s)
    else match step s with
      | .next t => runArrival n t (evs ++ eventsOf t.out)
      | _ => none

/-- The state when the arrival of bytes has ended: the parser's registers are `r`, the pipe and the FIFO are
empty, the error lines that the events `es` get stand on the side channel (R211), the last `DECODE` has
responded `INCOMPLETE`, and nothing else changed. -/
def arrived (r : RxRegs) (es : List Event) (s : State) : State :=
  { s with
    rx := { r with rxq := [], decoding := false }
    sc := s.sc ++ es.flatMap (responseLines s.cfg)
    pipe := none
    out := [.incomplete] }

/-- The state after a frame of variant `id` arrived whole and gave the event `e`. -/
def delivered (id : Nat) (payload : List Byte) (crc : Word) (e : Event) (s : State) : State :=
  arrived (frameRx s.cfg id payload crc e s.rx) [e] s

/-- The instruction `i` answers a next state, in which `bytes` stand on the pipe as far as `FEED` has not
taken them (log 5), and the machine's steps from there, at most one byte each (R11), emit the events `es` and
end the arrival in the state `t`. -/
def Delivers (i : Instr) (bytes : List Byte) (s : State) (es : List Event) (t : State) : Prop :=
  exec i s = .next (pipeArrives bytes s) ∧ ∃ n, runArrival n (pipeArrives bytes s) [] = some (es, t)

/-- The frame instruction `i`, of variant `id`, arrives and is decoded as the command `cmd`: that is its one
event, and nothing but what a whole frame's arrival leaves has changed. -/
def DecodesTo (i : Instr) (id : Nat) (payload : List Byte) (crc : Word) (cmd : Cmd) (s : State) : Prop :=
  Delivers i (frameBytes s.cfg id payload crc) s [.frameOk cmd] (delivered id payload crc (.frameOk cmd) s)

/-- `DECODE` until it responds `INCOMPLETE`, within a number of machine steps, with the events. -/
def decodeUntilIncomplete : Nat → State → List Event → Option (List Event × State)
  | 0, _, _ => none
  | n + 1, s, evs =>
    match exec .decode s with
    | .next t =>
      if PortOut.incomplete ∈ t.out then some (evs, t)
      else decodeUntilIncomplete n t (evs ++ eventsOf t.out)
    | _ => none

/-- `FEED` a byte string, then `DECODE` until `INCOMPLETE` (R124). -/
def feedAndDecode (bytes : List Byte) (s : State) : Option (List Event × State) :=
  match exec (.feed bytes) s with
  | .next t => decodeUntilIncomplete (t.rx.rxq.length + 1) t []
  | _ => none

/-- A run of operations, as far as each answers a next state. -/
def runOps : List Instr → State → Option State
  | [], s => some s
  | i :: is, s =>
    match exec i s with
    | .next t => runOps is t
    | _ => none

/-- A run of `WRITE_STEP`, one for each of the Sink's answers, with all the bytes the Sink took (R186). -/
def runWrites : List Nat → State → List Byte → Option (List Byte × State)
  | [], s, taken => some (taken, s)
  | n :: ns, s, taken =>
    match exec (.writeStep n) s with
    | .next t =>
      runWrites ns t (taken ++ (t.out.filterMap fun o =>
        match o with | .sinkWrite offered k => some (offered.take k) | _ => none).flatten)
    | _ => none

/-- An operation that brings the sender no line, and does not reset it. -/
def bringsNoLine : Instr → Bool
  | .setColor _ _ | .breathe _ _ | .gradient _ _ | .movingGradient _ _ | .crossFade _ _ | .rainbow _ _
  | .fire _ _ | .twinkle _ _ | .neuralDrop _ _ | .waterDrop _ _ | .startRain _ _ | .stopRain _ _
  | .status _ _ | .encodedBuffer _ _ | .fullBuffer _ _ | .speedTest _ _ => true
  | .feed _ | .decode | .drain | .cmdDone | .resetRx => true
  | .send _ | .writeStep _ | .poll none | .time _ => true
  | .poll (some _) | .resetTx | .ackLine _ | .errLine _ => false

/-- The ms that the `TIME` operations of a run report (R240). -/
def timeReported : List Instr → Nat
  | [] => 0
  | .time d :: is => d + timeReported is
  | _ :: is => timeReported is

end Sys2Proof.Machine
end

