-- ==== Sys2Proof/Certificates/Slice0/Obligations.lean ====
section
/-! DEFINITION. The statements for the provers. Each formalises rules of spec/ or says that it is the model's
choice. A statement of what an instruction does gives the whole next state, so it is its frame too. The 16
frame instructions are an arrival of many steps (R11; log 5): `Delivers` says that the instruction answers a
next state, and which events and which state the machine's steps from there end in. -/

open Sys2Proof Sys2Proof.Machine

/-! ### Encoding -/

/-- R80, R82, R85, R89, R92, R100: what the encoder writes for a well-formed instruction, the decoder reads
back, every operand as it was. A frame's variant must have its name in the configured `NAME_TABLE`, which
may be shorter than 16 entries (R5). -/
def Obligations.DecodeOfEncode : Prop :=
  ∀ (c : Config) (i : Instr), i.wellFormed = true →
    (∀ id p crc, frameInstr id p crc = some i → id < c.nameTable.length) →
    Sys2Proof.decode c (encode c i) = .ok i

/-- R80, R85: the bytes that decode to a frame are exactly those the encoder writes for it: no byte string
but one is the frame of an instruction. -/
def Obligations.EncodeOfDecodedBytes : Prop :=
  ∀ (c : Config) (bytes : List Byte) (i : Instr),
    Sys2Proof.decode c (.pipe bytes) = .ok i → encode c i = .pipe bytes

/-- 95 V1, V9, V13, R93: words written out from the spec decode to the instructions they stand for. -/
def Obligations.WrittenWordsDecode : Prop :=
  Sys2Proof.decode Config.standard (.pipe [0x7E, 0x41, 0x44, 0x41, 0x53, 0x65, 0x74, 0x43, 0x6F, 0x6C, 0x6F,
      0x72, 0x00, 0x0C, 0x00, 0x00, 0x00, 0x03, 0x00, 0x00, 0x00, 0x0A, 0x00, 0x00, 0x00, 0x00, 0x00, 0xFF,
      0x00, 0x25, 0xF5, 0xAF, 0x0E])
    = .ok (.setColor [0x03, 0x00, 0x00, 0x00, 0x0A, 0x00, 0x00, 0x00, 0x00, 0x00, 0xFF, 0x00] 0x0EAFF525#32)
  ∧ Sys2Proof.decode Config.standard (.pipe [0x7E, 0x41, 0x44, 0x41, 0x4E, 0x65, 0x75, 0x72, 0x61, 0x6C, 0x44,
      0x72, 0x6F, 0x70, 0x00, 0x04, 0x00, 0x00, 0x00, 0x03, 0x00, 0x00, 0x00, 0xF2, 0x70, 0xF1, 0x33])
    = .ok (.neuralDrop [0x03, 0x00, 0x00, 0x00] 0x33F170F2#32)
  ∧ Sys2Proof.decode Config.standard (.pipe [0x7E, 0x41, 0x44, 0x41, 0x53, 0x74, 0x61, 0x74, 0x75, 0x73, 0x00,
      0x00, 0x00, 0x00, 0x00, 0x00, 0x00, 0x00, 0x00])
    = .ok (.status [] 0#32)
  ∧ Sys2Proof.decode Config.standard (.side [0x4F, 0x4B, 0x0A]) = .ok (.ackLine [])
  ∧ Sys2Proof.decode Config.standard (.side [0x45, 0x52, 0x52, 0x4F, 0x52, 0x20, 0x30, 0x31, 0x0A])
    = .ok (.errLine [0x20, 0x30, 0x31])

/-- R184: what an accepted `SEND` leaves in `TXBUF[0..tx_len)` is exactly the frame of R80 for the name and
the payload of its record, whatever the state before; so equal records give equal bytes; and two different
well-formed records give different bytes. -/
def Obligations.AssembledFrameExactAndInjective : Prop :=
  (∀ (s : State) (cmd : Cmd), s.Inv → s.tx.txState = .idle → wellFormedCmd s.cfg cmd = true →
    (payloadOf cmd).length ≤ s.cfg.lenCap →
    ∃ t, exec (.send cmd) s = .next t ∧
      memReadN .txbuf t.tx.epoch t.tx.txbuf 0 t.tx.txLen
        = s.cfg.marker ++ spelling s.cfg cmd.nameId ++ [0x00#8]
          ++ le32 (BitVec.ofNat 32 (payloadOf cmd).length) ++ payloadOf cmd ++ le32 (crc32 (payloadOf cmd)))
  ∧ ∀ (c : Config) (cmd cmd' : Cmd), wellFormedCmd c cmd = true → wellFormedCmd c cmd' = true →
    (payloadOf cmd).length ≤ c.lenCap → (payloadOf cmd').length ≤ c.lenCap →
    encodeCmd c cmd = encodeCmd c cmd' → cmd = cmd'

/-- R9: the bytes of `LE32`, the value of `U32LE`, and that the second undoes the first. -/
def Obligations.LittleEndianFields : Prop :=
  (∀ v : Word, le32 v = [BitVec.ofNat 8 v.toNat, BitVec.ofNat 8 (v.toNat / 2 ^ 8),
    BitVec.ofNat 8 (v.toNat / 2 ^ 16), BitVec.ofNat 8 (v.toNat / 2 ^ 24)])
  ∧ (∀ (s : List Byte) (i : Nat), i + 4 ≤ s.length →
    (u32le s i).toNat = (s.getD i 0).toNat + 2 ^ 8 * (s.getD (i + 1) 0).toNat
      + 2 ^ 16 * (s.getD (i + 2) 0).toNat + 2 ^ 24 * (s.getD (i + 3) 0).toNat)
  ∧ ∀ v : Word, u32le (le32 v) 0 = v

/-! ### The checksum -/

/-- R69: a single flipped bit anywhere in a payload changes its CRC32. -/
def Obligations.ChecksumDetectsOneFlippedBit : Prop :=
  ∀ (s : List Byte) (i k : Nat) (h : i < s.length), k < 8 →
    crc32 (s.set i (s[i] ^^^ BitVec.twoPow 8 k)) ≠ crc32 s

/-! ### Layouts -/

/-- R150, R90: when the sub-decoder finds a payload malformed, and which record it gives otherwise, for
every layout class and both trailing policies. -/
def Obligations.SubDecodeRule : Prop :=
  ∀ (policy : TrailingPolicy) (id : Nat) (p : List Byte),
    (∀ k, subDecode policy id (.fixed k) p =
      if p.length < 4 * k ∨ (p.length ≠ 4 * k ∧ policy = .reject) then none
      else some ⟨id, (List.range k).map fun j => u32le p (4 * j), []⟩)
    ∧ (∀ k, subDecode policy id (.array4 k) p =
      if p.length < 4 * k ∨ ((p.length - 4 * k) % 4 ≠ 0 ∧ policy = .reject) then none
      else some ⟨id, (List.range k).map fun j => u32le p (4 * j),
        (List.range ((p.length - 4 * k) / 4)).map fun e => .one (u32le p (4 * k + 4 * e))⟩)
    ∧ (subDecode policy id .w3A8 p =
      if p.length < 12 ∨ ((p.length - 12) % 8 ≠ 0 ∧ policy = .reject) then none
      else some ⟨id, [u32le p 0, u32le p 4, u32le p 8],
        (List.range ((p.length - 12) / 8)).map fun e =>
          .pair (u32le p (12 + 8 * e)) (u32le p (16 + 8 * e))⟩)
    ∧ (subDecode policy id .w3P p =
      if p.length < 12 ∨ p.length - 12 < 4 * ((u32le p 0).toNat * (u32le p 4).toNat)
          ∨ (p.length - 12 ≠ 4 * ((u32le p 0).toNat * (u32le p 4).toNat) ∧ policy = .reject) then none
      else some ⟨id, [u32le p 0, u32le p 4, u32le p 8],
        (List.range ((u32le p 0).toNat * (u32le p 4).toNat)).map fun e => .one (u32le p (12 + 4 * e))⟩)

/-- R150, R181, R183: under `reject` the sub-decoder and the payload encoder undo each other: a payload reads
as a record exactly if the record is well-formed, of that variant, and its payload is that one. And under
either policy a well-formed record's payload reads back as the record. -/
def Obligations.SubDecodeInvertsPayload : Prop :=
  ∀ (c : Config) (id : Nat) (e : NameEntry) (p : List Byte) (cmd : Cmd), c.nameTable[id]? = some e →
    (subDecode .reject id e.cls p = some cmd
      ↔ wellFormedCmd c cmd = true ∧ cmd.nameId = id ∧ payloadOf cmd = p)
    ∧ (wellFormedCmd c cmd = true → cmd.nameId = id →
      subDecode .ignore id e.cls (payloadOf cmd) = some cmd)

/-- R152, R156 to R163, R166: the fixed layouts. The fields stand in this order, four bytes each; the record
reads back; fewer bytes are malformed, and under `reject` so is any other number. -/
def Obligations.FixedLayouts : Prop :=
  ∀ (policy : TrailingPolicy) (w x y z : Word) (p : List Byte),
    (payloadOf (cmdBreathe w x y) = le32 w ++ le32 x ++ le32 y
      ∧ subDecode policy 1 (.fixed 3) (le32 w ++ le32 x ++ le32 y) = some (cmdBreathe w x y)
      ∧ (subDecode policy 1 (.fixed 3) p = none ↔ p.length < 12 ∨ (p.length ≠ 12 ∧ policy = .reject)))
    ∧ (payloadOf (cmdRainbow w x) = le32 w ++ le32 x
      ∧ subDecode policy 5 (.fixed 2) (le32 w ++ le32 x) = some (cmdRainbow w x)
      ∧ (subDecode policy 5 (.fixed 2) p = none ↔ p.length < 8 ∨ (p.length ≠ 8 ∧ policy = .reject)))
    ∧ (payloadOf (cmdFire w x y) = le32 w ++ le32 x ++ le32 y
      ∧ subDecode policy 6 (.fixed 3) (le32 w ++ le32 x ++ le32 y) = some (cmdFire w x y)
      ∧ (subDecode policy 6 (.fixed 3) p = none ↔ p.length < 12 ∨ (p.length ≠ 12 ∧ policy = .reject)))
    ∧ (payloadOf (cmdTwinkle w x y z) = le32 w ++ le32 x ++ le32 y ++ le32 z
      ∧ subDecode policy 7 (.fixed 4) (le32 w ++ le32 x ++ le32 y ++ le32 z) = some (cmdTwinkle w x y z)
      ∧ (subDecode policy 7 (.fixed 4) p = none ↔ p.length < 16 ∨ (p.length ≠ 16 ∧ policy = .reject)))
    ∧ (payloadOf (cmdNeuralDrop w) = le32 w
      ∧ subDecode policy 8 (.fixed 1) (le32 w) = some (cmdNeuralDrop w)
      ∧ (subDecode policy 8 (.fixed 1) p = none ↔ p.length < 4 ∨ (p.length ≠ 4 ∧ policy = .reject)))
    ∧ (payloadOf (cmdWaterDrop w x y) = le32 w ++ le32 x ++ le32 y
      ∧ subDecode policy 9 (.fixed 3) (le32 w ++ le32 x ++ le32 y) = some (cmdWaterDrop w x y)
      ∧ (subDecode policy 9 (.fixed 3) p = none ↔ p.length < 12 ∨ (p.length ≠ 12 ∧ policy = .reject)))
    ∧ (payloadOf (cmdStartRain w x) = le32 w ++ le32 x
      ∧ subDecode policy 10 (.fixed 2) (le32 w ++ le32 x) = some (cmdStartRain w x)
      ∧ (subDecode policy 10 (.fixed 2) p = none ↔ p.length < 8 ∨ (p.length ≠ 8 ∧ policy = .reject)))
    ∧ (payloadOf cmdStopRain = [] ∧ payloadOf cmdStatus = [] ∧ payloadOf cmdSpeedTest = []
      ∧ subDecode policy 11 (.fixed 0) [] = some cmdStopRain
      ∧ subDecode policy 12 (.fixed 0) [] = some cmdStatus
      ∧ subDecode policy 15 (.fixed 0) [] = some cmdSpeedTest
      ∧ ∀ id, id = 11 ∨ id = 12 ∨ id = 15 →
        (subDecode policy id (.fixed 0) p = none ↔ p ≠ [] ∧ policy = .reject))

/-- R151, R153, R154, R155, R164, R165: the layouts with a variable part. The fields stand in this order,
four bytes each, then the elements; the record reads back with as many elements, none among them; and which
lengths are malformed. -/
def Obligations.VariableLayouts : Prop :=
  ∀ (policy : TrailingPolicy) (w x y : Word) (colors : List Word) (runs : List (Word × Word)) (p : List Byte),
    (payloadOf (cmdSetColor w x colors) = le32 w ++ le32 x ++ colors.flatMap le32
      ∧ subDecode policy 0 (.array4 2) (le32 w ++ le32 x ++ colors.flatMap le32)
        = some (cmdSetColor w x colors)
      ∧ (subDecode policy 0 (.array4 2) p = none
        ↔ p.length < 8 ∨ ((p.length - 8) % 4 ≠ 0 ∧ policy = .reject)))
    ∧ (payloadOf (cmdGradient w x y colors) = le32 w ++ le32 x ++ le32 y ++ colors.flatMap le32
      ∧ subDecode policy 2 (.array4 3) (le32 w ++ le32 x ++ le32 y ++ colors.flatMap le32)
        = some (cmdGradient w x y colors)
      ∧ (subDecode policy 2 (.array4 3) p = none
        ↔ p.length < 12 ∨ ((p.length - 12) % 4 ≠ 0 ∧ policy = .reject)))
    ∧ (payloadOf (cmdMovingGradient w x y colors) = le32 w ++ le32 x ++ le32 y ++ colors.flatMap le32
      ∧ subDecode policy 3 (.array4 3) (le32 w ++ le32 x ++ le32 y ++ colors.flatMap le32)
        = some (cmdMovingGradient w x y colors)
      ∧ (subDecode policy 3 (.array4 3) p = none
        ↔ p.length < 12 ∨ ((p.length - 12) % 4 ≠ 0 ∧ policy = .reject)))
    ∧ (payloadOf (cmdCrossFade w colors) = le32 w ++ colors.flatMap le32
      ∧ subDecode policy 4 (.array4 1) (le32 w ++ colors.flatMap le32) = some (cmdCrossFade w colors)
      ∧ (subDecode policy 4 (.array4 1) p = none
        ↔ p.length < 4 ∨ ((p.length - 4) % 4 ≠ 0 ∧ policy = .reject)))
    ∧ (payloadOf (cmdEncodedBuffer w x y runs)
        = le32 w ++ le32 x ++ le32 y ++ runs.flatMap (fun r => le32 r.1 ++ le32 r.2)
      ∧ subDecode policy 13 .w3A8 (le32 w ++ le32 x ++ le32 y ++ runs.flatMap (fun r => le32 r.1 ++ le32 r.2))
        = some (cmdEncodedBuffer w x y runs)
      ∧ (subDecode policy 13 .w3A8 p = none
        ↔ p.length < 12 ∨ ((p.length - 12) % 8 ≠ 0 ∧ policy = .reject)))
    ∧ (payloadOf (cmdFullBuffer w x y colors) = le32 w ++ le32 x ++ le32 y ++ colors.flatMap le32
      ∧ (colors.length = w.toNat * x.toNat →
        subDecode policy 14 .w3P (le32 w ++ le32 x ++ le32 y ++ colors.flatMap le32)
          = some (cmdFullBuffer w x y colors))
      ∧ (subDecode policy 14 .w3P p = none
        ↔ p.length < 12 ∨ p.length - 12 < 4 * ((u32le p 0).toNat * (u32le p 4).toNat)
          ∨ (p.length - 12 ≠ 4 * ((u32le p 0).toNat * (u32le p 4).toNat) ∧ policy = .reject)))

/-! ### The receive half's port operations -/

/-- R110, R123: `FEED` takes what the FIFO has room for and responds with the count; it parses nothing. `DRAIN`
empties the FIFO and leaves the parser where it is. -/
def Obligations.FifoPorts : Prop :=
  (∀ (s : State) (bytes : List Byte),
    exec (.feed bytes) s = .next { s with
      rx := { s.rx with
        rxq := s.rx.rxq ++ bytes.take (min bytes.length (s.cfg.rxbufCap - s.rx.rxq.length)) }
      out := [.feedCount (min bytes.length (s.cfg.rxbufCap - s.rx.rxq.length))] })
  ∧ ∀ s : State, exec .drain s = .next { s with rx := { s.rx with rxq := [] }, out := [] }

/-- R111: a `DECODE` on an empty FIFO responds `INCOMPLETE` and changes nothing (it is no longer in
progress); on a FIFO that holds bytes it takes the first, whose byte step gives the registers and the event,
and leaves the others in order; it has responded exactly if there is an event. -/
def Obligations.DecodeTakesTheFirstByte : Prop :=
  (∀ s : State, s.rx.rxq = [] →
    exec .decode s = .next { s with rx := { s.rx with decoding := false }, out := [.incomplete] })
  ∧ ∀ (s : State) (b : Byte) (q : List Byte), s.Inv → s.rx.rxq = b :: q →
    ∃ r ev, byteStep s.cfg b s.rx = .ok (r, ev) ∧ exec .decode s = .next (byteTaken q r ev s)

/-- R113, R6: the marker test. A byte completes a marker exactly when the last `M` bytes of the history and
it are `MARKER`; then the history is empty, else it is their last `M-1` bytes. With a border-free marker,
however many detections there were before, that is exactly when the last `M` bytes received are `MARKER`. -/
def Obligations.MarkerTestRule : Prop :=
  ∀ (c : Config) (h : List Byte) (b : Byte),
    (completesMarker c h b = true ↔ c.marker <:+ h ++ [b])
    ∧ (c.marker <:+ h ++ [b] → nextMhist c h b = [])
    ∧ (¬ c.marker <:+ h ++ [b] →
      nextMhist c h b = (h ++ [b]).drop ((h ++ [b]).length - min (h ++ [b]).length (c.marker.length - 1)))
    ∧ (borderFree c.marker = true →
      (completesMarker c (historyAfter c h) b = true ↔ c.marker <:+ h ++ [b]))

/-- R112, R114, R126, R236: a byte that completes a marker is taken by it in every phase, and by no phase
rule. The accumulators are cleared and a name begins; a frame in flight is given up with `ERR_RESYNC`, which
gets no line. Any other byte is discarded in `SEEK_MARKER`. -/
def Obligations.MarkerRestartsTheParser : Prop :=
  ∀ (s : State) (b : Byte) (q : List Byte), s.rx.rxq = b :: q →
    (completesMarker s.cfg s.rx.mhist b = true →
      exec .decode s = .next { s with
        rx := { s.rx with
          phase := .readName, mhist := [], nameLen := 0, lenAcc := 0#32, lenCnt := 0, plen := 0, payCnt := 0
          crcRun := 0xFFFFFFFF#32, crcAcc := 0#32, crcCnt := 0, rxq := q
          decoding := decide (s.rx.phase = .seekMarker) }
        out := if s.rx.phase = .seekMarker then [] else [.event (.err .resync)] })
    ∧ (completesMarker s.cfg s.rx.mhist b = false → s.rx.phase = .seekMarker →
      exec .decode s = .next (byteTaken q { s.rx with mhist := nextMhist s.cfg s.rx.mhist b } none s))

/-- R115: a name byte is appended, but the one after `NAME_MAX` raises `ERR_NAME_TOO_LONG`. -/
def Obligations.NameByteRule : Prop :=
  ∀ (s : State) (b : Byte) (q : List Byte), s.Inv → s.rx.rxq = b :: q → s.rx.phase = .readName → b ≠ 0x00#8 →
    completesMarker s.cfg s.rx.mhist b = false →
    exec .decode s = .next (
      if s.rx.nameLen = s.cfg.nameMax then
        byteTaken q (recovered (nextMhist s.cfg s.rx.mhist b) s.rx) (some (.err .nameTooLong)) s
      else
        byteTaken q { s.rx with
          mhist := nextMhist s.cfg s.rx.mhist b
          nameBuf := memWrite s.rx.nameBuf s.rx.nameLen b
          nameLen := s.rx.nameLen + 1 } none s)

/-- R116, R89: the `00` ends the name. If it equals an entry of `NAME_TABLE` the length begins, with that
entry's index; else `ERR_UNKNOWN_NAME`. -/
def Obligations.NameEndRule : Prop :=
  ∀ (s : State) (q : List Byte), s.Inv → s.rx.rxq = 0x00#8 :: q → s.rx.phase = .readName →
    completesMarker s.cfg s.rx.mhist 0x00#8 = false →
    (∀ i, (s.cfg.nameTable[i]?).map (·.name)
        = some (memReadN .nameBuf s.rx.epoch s.rx.nameBuf 0 s.rx.nameLen) →
      exec .decode s = .next (byteTaken q { s.rx with
        mhist := nextMhist s.cfg s.rx.mhist 0x00#8
        nameId := i, lenAcc := 0#32, lenCnt := 0, phase := .readLength } none s))
    ∧ ((∀ e ∈ s.cfg.nameTable, e.name ≠ memReadN .nameBuf s.rx.epoch s.rx.nameBuf 0 s.rx.nameLen) →
      exec .decode s = .next (byteTaken q
        (recovered (nextMhist s.cfg s.rx.mhist 0x00#8) s.rx) (some (.err .unknownName)) s))

/-- R117, R118: the first three length bytes are accumulated, least significant first; on the fourth, a
length above `LEN_CAP` raises `ERR_OVERSIZE`, else one above `PAYLOAD_RAM_BYTES` raises `ERR_ALLOC`, else it
is latched, the high-water mark rises to it, and the payload begins, or the CRC if there is none. -/
def Obligations.LengthByteRule : Prop :=
  ∀ (s : State) (b : Byte) (q : List Byte), s.rx.rxq = b :: q → s.rx.phase = .readLength →
    completesMarker s.cfg s.rx.mhist b = false →
    (s.rx.lenCnt.val < 3 →
      exec .decode s = .next (byteTaken q { s.rx with
        mhist := nextMhist s.cfg s.rx.mhist b
        lenAcc := s.rx.lenAcc ||| (b.setWidth 32 <<< (8 * s.rx.lenCnt.val))
        lenCnt := s.rx.lenCnt + 1 } none s))
    ∧ (∀ l, s.rx.lenCnt.val = 3 → l = (s.rx.lenAcc ||| (b.setWidth 32 <<< 24)).toNat →
      exec .decode s = .next (
        if l > s.cfg.lenCap then
          byteTaken q (recovered (nextMhist s.cfg s.rx.mhist b) s.rx) (some (.err .oversize)) s
        else if l > s.cfg.payloadRamBytes then
          byteTaken q (recovered (nextMhist s.cfg s.rx.mhist b) s.rx) (some (.err .alloc)) s
        else
          byteTaken q { s.rx with
            mhist := nextMhist s.cfg s.rx.mhist b
            plen := l, payCnt := 0, crcRun := 0xFFFFFFFF#32, crcAcc := 0#32, crcCnt := 0, lenCnt := 0
            hwm := max s.rx.hwm l
            phase := if l = 0 then .readCrc else .readPayload } none s))

/-- R119: a payload byte is stored at `pay_cnt` and passes the running CRC; the last one moves on to the CRC
field. -/
def Obligations.PayloadByteRule : Prop :=
  ∀ (s : State) (b : Byte) (q : List Byte), s.Inv → s.rx.rxq = b :: q → s.rx.phase = .readPayload →
    completesMarker s.cfg s.rx.mhist b = false →
    exec .decode s = .next (byteTaken q { s.rx with
      mhist := nextMhist s.cfg s.rx.mhist b
      pbuf := memWrite s.rx.pbuf s.rx.payCnt b
      crcRun := crcUpdate s.rx.crcRun b
      payCnt := s.rx.payCnt + 1
      phase := if s.rx.payCnt + 1 = s.rx.plen then .readCrc else .readPayload } none s)

/-- R120, R121: the first three CRC bytes are accumulated; on the fourth, a CRC field that is not the CRC32
of the payload in PBUF raises `ERR_CRC`, else the layout decides between `ERR_MALFORMED` and `FRAME_OK`, and
a command then is owed its acknowledgment. That the running CRC is that of the bytes in PBUF is R27. -/
def Obligations.CrcByteRule : Prop :=
  ∀ (s : State) (b : Byte) (q : List Byte), s.Inv → s.rx.rxq = b :: q → s.rx.phase = .readCrc →
    completesMarker s.cfg s.rx.mhist b = false →
    (s.rx.crcCnt.val < 3 →
      exec .decode s = .next (byteTaken q { s.rx with
        mhist := nextMhist s.cfg s.rx.mhist b
        crcAcc := s.rx.crcAcc ||| (b.setWidth 32 <<< (8 * s.rx.crcCnt.val))
        crcCnt := s.rx.crcCnt + 1 } none s))
    ∧ (∀ payload e, s.rx.crcCnt.val = 3 → payload = memReadN .pbuf s.rx.epoch s.rx.pbuf 0 s.rx.plen →
      s.cfg.nameTable[s.rx.nameId]? = some e →
      exec .decode s = .next (
        if s.rx.crcAcc ||| (b.setWidth 32 <<< 24) ≠ crc32 payload then
          byteTaken q (recovered (nextMhist s.cfg s.rx.mhist b) s.rx) (some (.err .crc)) s
        else match subDecode s.cfg.trailingPolicy s.rx.nameId e.cls payload with
          | none => byteTaken q (recovered (nextMhist s.cfg s.rx.mhist b) s.rx) (some (.err .malformed)) s
          | some cmd => byteTaken q { recovered (nextMhist s.cfg s.rx.mhist b) s.rx with
              acksOwed := s.rx.acksOwed + 1 } (some (.frameOk cmd)) s))

/-- R235, R211: every receive error but `ERR_RESYNC` ends its byte step the same way, whatever raised it: the
raising byte is consumed, the later ones stay, the accumulators are cleared, the parser hunts for a marker,
and one error line goes out. PBUF, `name_buf`, `name_id`, `hwm` and the acknowledgments owed are untouched,
and so is the send half. -/
def Obligations.ErrorRecoveryIsPrecise : Prop :=
  ∀ (s t : State) (e : RxError), exec .decode s = .next t → .event (.err e) ∈ t.out → e ≠ .resync →
    ∃ b q, s.rx.rxq = b :: q ∧
      t = { s with
        rx := { s.rx with
          phase := .seekMarker, mhist := nextMhist s.cfg s.rx.mhist b, nameLen := 0, lenAcc := 0#32
          lenCnt := 0, plen := 0, payCnt := 0, crcRun := 0xFFFFFFFF#32, crcAcc := 0#32, crcCnt := 0
          rxq := q, decoding := false }
        sc := s.sc ++ [s.cfg.errToken ++ [0x20#8] ++ hex2 e.code]
        out := [.event (.err e), .scOut (s.cfg.errToken ++ [0x20#8] ++ hex2 e.code ++ [0x0A#8])] }

/-- R127: a `DECODE` responds after at most `|rxq|` byte steps: after some number of machine steps, each
taking one byte but an `INCOMPLETE` one at the end, it is no longer in progress. -/
def Obligations.DecodeResponds : Prop :=
  ∀ s : State, s.Inv → ∃ k t, 0 < k ∧ k ≤ s.rx.rxq.length + 1 ∧ runOps (List.replicate k .decode) s = some t ∧
    t.rx.decoding = false ∧ t.rx.rxq = s.rx.rxq.drop k

/-- R11, R111, R201, R237 (item 6), 92 D40: what one step can do, from any state. Either no byte passes the
parser, and the FIFO gains bytes at its end or is emptied; or one byte leaves it, and its byte step gives the
registers; or the receive half is reset. At most one event goes out, and the sender makes at most one poll. -/
def Obligations.OneActionAStep : Prop :=
  ∀ s t : State, step s = .next t →
    ((∃ q a d, t.rx = { s.rx with rxq := q, acksOwed := a, decoding := d }
        ∧ ((∃ bytes, q = s.rx.rxq ++ bytes) ∨ q = []))
      ∨ (∃ b q r ev, s.rx.rxq = b :: q ∧ byteStep s.cfg b s.rx = .ok (r, ev)
        ∧ t.rx = { r with rxq := q, decoding := ev.isNone })
      ∨ (∃ u, exec .resetRx s = .next u ∧ t.rx = u.rx))
    ∧ (eventsOf t.out).length ≤ 1
    ∧ t.out.count (.sinkReadline s.cfg.pollTimeoutMs) ≤ 1 ∧ t.tx.polls ≤ s.tx.polls + 1

/-- R210, R93: `CMD_DONE` puts one completion line on the side channel for a command that is owed one; with
none owed it does nothing. -/
def Obligations.CmdDoneAcknowledges : Prop :=
  ∀ s : State,
    (s.rx.acksOwed > 0 → exec .cmdDone s = .next { s with
      rx := { s.rx with acksOwed := s.rx.acksOwed - 1 }
      sc := s.sc ++ [s.cfg.ackToken]
      out := [.scOut (s.cfg.ackToken ++ [0x0A#8])] })
    ∧ (s.rx.acksOwed = 0 → exec .cmdDone s = .next { s with out := [] })

/-- R270: the values after `RESET_RX`, whatever it interrupts; no event, no line; the send half, the side
channel and what callers hold are untouched (R273). Of the contents of `name_buf` and PBUF nothing is said:
they are unspecified. -/
def Obligations.ResetRxValues : Prop :=
  ∀ s : State, ∃ t, exec .resetRx s = .next t
    ∧ t.rx.phase = .seekMarker ∧ t.rx.mhist = [] ∧ t.rx.nameLen = 0 ∧ t.rx.nameId = 0
    ∧ t.rx.lenAcc = 0#32 ∧ t.rx.lenCnt = 0 ∧ t.rx.plen = 0 ∧ t.rx.payCnt = 0 ∧ t.rx.hwm = 0
    ∧ t.rx.crcRun = 0xFFFFFFFF#32 ∧ t.rx.crcAcc = 0#32 ∧ t.rx.crcCnt = 0 ∧ t.rx.rxq = []
    ∧ t.rx.acksOwed = 0 ∧ t.rx.decoding = false ∧ t.out = []
    ∧ t.tx = s.tx ∧ t.sc = s.sc ∧ t.pipe = s.pipe ∧ t.held = s.held ∧ t.cfg = s.cfg ∧ t.reqs = s.reqs
    ∧ t.sched = s.sched

/-! ### Frames -/

/-- R122, R189, R94, R237 (items 2 and 3): a frame that arrives whole, from `SEEK_MARKER`, with no marker after
its own, gives exactly one event, whatever its payload and CRC field: oversize, then allocation, then the
CRC, then the layout, then `FRAME_OK`. The instruction answers a next state, and the whole state in which its
arrival ends is given, whatever the FIFO's capacity. This is said of every frame instruction: setColor, breathe,
gradient, movingGradient, crossFade, rainbow, fire, twinkle, neuralDrop, waterDrop, startRain, stopRain, status,
encodedBuffer, fullBuffer, speedTest (`frameInstr` gives each by its `name_id`). That the device's loop feeds
and decodes what arrives before it does anything else is the model's choice (log 5). -/
def Obligations.WholeFrameGivesOneEvent : Prop :=
  ∀ (s : State) (id : Nat) (p : List Byte) (crc : Word) (i : Instr), frameInstr id p crc = some i →
    i.wellFormed = true → FrameArrives s id p crc →
    Delivers i (frameBytes s.cfg id p crc) s [frameVerdict s.cfg id p crc]
      (delivered id p crc (frameVerdict s.cfg id p crc) s)

/-- R152, R156 to R163, R166, R121: a valid frame of a command of fixed fields, or of none, is `FRAME_OK` of
its record: the instruction answers a next state, and its arrival ends in that one event and the state given.
That the device's loop decodes what arrives before anything else is the model's choice (log 5). -/
def Obligations.FixedCommandsDecode : Prop :=
  ∀ (s : State) (w x y z : Word),
    (∀ p, p = le32 w ++ le32 x ++ le32 y → FrameArrives s 1 p (crc32 p) → 12 ≤ s.cfg.payloadRamBytes →
      DecodesTo (.breathe p (crc32 p)) 1 p (crc32 p) (cmdBreathe w x y) s)
    ∧ (∀ p, p = le32 w ++ le32 x → FrameArrives s 5 p (crc32 p) → 8 ≤ s.cfg.payloadRamBytes →
      DecodesTo (.rainbow p (crc32 p)) 5 p (crc32 p) (cmdRainbow w x) s)
    ∧ (∀ p, p = le32 w ++ le32 x ++ le32 y → FrameArrives s 6 p (crc32 p) → 12 ≤ s.cfg.payloadRamBytes →
      DecodesTo (.fire p (crc32 p)) 6 p (crc32 p) (cmdFire w x y) s)
    ∧ (∀ p, p = le32 w ++ le32 x ++ le32 y ++ le32 z → FrameArrives s 7 p (crc32 p) →
      16 ≤ s.cfg.payloadRamBytes →
      DecodesTo (.twinkle p (crc32 p)) 7 p (crc32 p) (cmdTwinkle w x y z) s)
    ∧ (∀ p, p = le32 w → FrameArrives s 8 p (crc32 p) → 4 ≤ s.cfg.payloadRamBytes →
      DecodesTo (.neuralDrop p (crc32 p)) 8 p (crc32 p) (cmdNeuralDrop w) s)
    ∧ (∀ p, p = le32 w ++ le32 x ++ le32 y → FrameArrives s 9 p (crc32 p) → 12 ≤ s.cfg.payloadRamBytes →
      DecodesTo (.waterDrop p (crc32 p)) 9 p (crc32 p) (cmdWaterDrop w x y) s)
    ∧ (∀ p, p = le32 w ++ le32 x → FrameArrives s 10 p (crc32 p) → 8 ≤ s.cfg.payloadRamBytes →
      DecodesTo (.startRain p (crc32 p)) 10 p (crc32 p) (cmdStartRain w x) s)
    ∧ (FrameArrives s 11 [] 0#32 →
      DecodesTo (.stopRain [] 0#32) 11 [] 0#32 cmdStopRain s)
    ∧ (FrameArrives s 12 [] 0#32 →
      DecodesTo (.status [] 0#32) 12 [] 0#32 cmdStatus s)
    ∧ (FrameArrives s 15 [] 0#32 →
      DecodesTo (.speedTest [] 0#32) 15 [] 0#32 cmdSpeedTest s)

/-- R151, R153, R154, R155, R164, R165, R121: a valid frame of a command with a variable part, of any number
of elements that fits PBUF, is `FRAME_OK` of its record: the instruction answers a next state, and its arrival
ends in that one event and the state given. That the device's loop decodes what arrives before anything else is
the model's choice (log 5). -/
def Obligations.VariableCommandsDecode : Prop :=
  ∀ (s : State) (w x y : Word) (colors : List Word) (runs : List (Word × Word)),
    (∀ p, p = le32 w ++ le32 x ++ colors.flatMap le32 → FrameArrives s 0 p (crc32 p) →
      p.length ≤ s.cfg.payloadRamBytes →
      DecodesTo (.setColor p (crc32 p)) 0 p (crc32 p) (cmdSetColor w x colors) s)
    ∧ (∀ p, p = le32 w ++ le32 x ++ le32 y ++ colors.flatMap le32 → FrameArrives s 2 p (crc32 p) →
      p.length ≤ s.cfg.payloadRamBytes →
      DecodesTo (.gradient p (crc32 p)) 2 p (crc32 p) (cmdGradient w x y colors) s)
    ∧ (∀ p, p = le32 w ++ le32 x ++ le32 y ++ colors.flatMap le32 → FrameArrives s 3 p (crc32 p) →
      p.length ≤ s.cfg.payloadRamBytes →
      DecodesTo (.movingGradient p (crc32 p)) 3 p (crc32 p) (cmdMovingGradient w x y colors) s)
    ∧ (∀ p, p = le32 w ++ colors.flatMap le32 → FrameArrives s 4 p (crc32 p) →
      p.length ≤ s.cfg.payloadRamBytes →
      DecodesTo (.crossFade p (crc32 p)) 4 p (crc32 p) (cmdCrossFade w colors) s)
    ∧ (∀ p, p = le32 w ++ le32 x ++ le32 y ++ (runs.flatMap fun r => le32 r.1 ++ le32 r.2) →
      FrameArrives s 13 p (crc32 p) → p.length ≤ s.cfg.payloadRamBytes →
      DecodesTo (.encodedBuffer p (crc32 p)) 13 p (crc32 p) (cmdEncodedBuffer w x y runs) s)
    ∧ (∀ p, p = le32 w ++ le32 x ++ le32 y ++ colors.flatMap le32 → colors.length = w.toNat * x.toNat →
      FrameArrives s 14 p (crc32 p) → p.length ≤ s.cfg.payloadRamBytes →
      DecodesTo (.fullBuffer p (crc32 p)) 14 p (crc32 p) (cmdFullBuffer w x y colors) s)

/-- R11, R50, R73, R110, R111, R94: bytes that arrive on the byte pipe, a frame's or any others (log 20). From
any state a frame instruction answers the next state in which `FEED` has taken the bytes it has room for, behind
those that stood on the pipe, and no byte has passed the parser. From a state of the invariant where nothing
else arrives, whatever the bytes and however many, the machine's steps then end the arrival: their events, and
the registers, are those of the parser's byte steps over what waited and what came, one for each byte. If the
FIFO takes them whole this is what `FEED` and `DECODE` until `INCOMPLETE` give. That the device's loop goes on by
itself is the model's choice (log 5). -/
def Obligations.ArrivingBytesAreFedAndDecoded : Prop :=
  (∀ (s : State) (id : Nat) (p : List Byte) (crc : Word) (i : Instr), frameInstr id p crc = some i →
    exec i s = .next (pipeArrives (frameBytes s.cfg id p crc) s))
  ∧ (∀ (s : State) (bytes all : List Byte) (k : Nat), all = s.pipe.getD [] ++ bytes →
    k = min all.length (s.cfg.rxbufCap - s.rx.rxq.length) →
    pipeArrives bytes s = { s with
      rx := { s.rx with rxq := s.rx.rxq ++ all.take k }, pipe := some (all.drop k), out := [.feedCount k] })
  ∧ ∀ (s : State) (bytes : List Byte), s.Inv → s.sched = [] → s.pipe = none →
    ∃ r es, runRx s.cfg (s.rx.rxq ++ bytes) s.rx = some (r, es)
      ∧ (∃ n, runArrival n (pipeArrives bytes s) [] = some (es, arrived r es s))
      ∧ (s.rx.rxq.length + bytes.length ≤ s.cfg.rxbufCap →
        feedAndDecode bytes s = some (es, arrived r es s))

/-- R124: splitting a byte string between two feeds, at any place, gives the same events, and the same state,
as feeding it whole. -/
def Obligations.FeedsMaySplitAnywhere : Prop :=
  ∀ (s : State) (a b : List Byte), s.Inv → s.rx.rxq.length + a.length + b.length ≤ s.cfg.rxbufCap →
    ∃ ea m eb u, feedAndDecode a s = some (ea, m) ∧ feedAndDecode b m = some (eb, u)
      ∧ feedAndDecode (a ++ b) s = some (ea ++ eb, u)

/-- R189: what `SEND` assembles for a well-formed record, fed to a receive half in `SEEK_MARKER` whose FIFO is
empty and takes it whole, gives exactly one event, `FRAME_OK` of that record, and leaves `SEEK_MARKER`, if
the marker is border-free and does not occur again in the frame. -/
def Obligations.SentFrameIsReceived : Prop :=
  ∀ (s r : State) (cmd : Cmd), r.cfg = s.cfg → borderFree s.cfg.marker = true →
    s.Inv → s.tx.txState = .idle → wellFormedCmd s.cfg cmd = true →
    (payloadOf cmd).length ≤ s.cfg.payloadRamBytes →
    markerFree s.cfg ((encodeCmd s.cfg cmd).drop s.cfg.marker.length) →
    r.Inv → r.rx.phase = .seekMarker → r.rx.rxq = [] → (encodeCmd s.cfg cmd).length ≤ s.cfg.rxbufCap →
    ∃ t u, exec (.send cmd) s = .next t
      ∧ feedAndDecode (memReadN .txbuf t.tx.epoch t.tx.txbuf 0 t.tx.txLen) r = some ([.frameOk cmd], u)
      ∧ u.rx.phase = .seekMarker

/-- R189's second sentence and R125's second part: a receive half that is mid-frame when the frame comes
answers `ERR_RESYNC` and then `FRAME_OK`, provided that the frame in flight is not ended by the marker's
bytes before the last (log 25 says why that premise is needed). -/
def Obligations.MidFrameResyncs : Prop :=
  ∀ (r m : State) (cmd : Cmd), borderFree r.cfg.marker = true → wellFormedCmd r.cfg cmd = true →
    (payloadOf cmd).length ≤ r.cfg.payloadRamBytes →
    markerFree r.cfg ((encodeCmd r.cfg cmd).drop r.cfg.marker.length) →
    r.Inv → r.rx.phase ≠ .seekMarker → r.rx.rxq = [] → (encodeCmd r.cfg cmd).length ≤ r.cfg.rxbufCap →
    feedAndDecode r.cfg.marker.dropLast r = some ([], m) → m.rx.phase ≠ .seekMarker →
    ∃ u, feedAndDecode (encodeCmd r.cfg cmd) r = some ([.err .resync, .frameOk cmd], u)
      ∧ u.rx.phase = .seekMarker

/-- R125: bytes whose parse from `SEEK_MARKER` is one error, and ends in `SEEK_MARKER`, followed by a valid
marker-free frame, give exactly that error and then `FRAME_OK`, with no drain. -/
def Obligations.ErrorThenValidFrame : Prop :=
  ∀ (s m : State) (cmd : Cmd) (c : List Byte) (e : RxError), s.Inv → s.rx.phase = .seekMarker →
    s.rx.rxq = [] → borderFree s.cfg.marker = true →
    feedAndDecode c s = some ([.err e], m) → m.rx.phase = .seekMarker →
    wellFormedCmd s.cfg cmd = true → (payloadOf cmd).length ≤ s.cfg.payloadRamBytes →
    markerFree s.cfg ((encodeCmd s.cfg cmd).drop s.cfg.marker.length) →
    (c ++ encodeCmd s.cfg cmd).length ≤ s.cfg.rxbufCap →
    ∃ u, feedAndDecode (c ++ encodeCmd s.cfg cmd) s = some ([.err e, .frameOk cmd], u)

/-! ### The send half -/

/-- R182, R183, R185, R207: a ready sender refuses a record that is not well-formed, then one whose payload is
too long, each with its outcome and no other effect; any other record it assembles and begins to write, and
arms the watchdog if it is not armed, leaving it counting if it is. A sender that is not ready does not
accept, and the source holds the request. How the ports say it is the model's choice: `accepted` and
`notAccepted` (log 15), that the held requests are a list (log 8), and that a refused record is taken from its
source and answered by its outcome alone (log 30). -/
def Obligations.SendRule : Prop :=
  ∀ (s : State) (cmd : Cmd), s.Inv →
    (s.tx.txState = .idle → wellFormedCmd s.cfg cmd = true → (payloadOf cmd).length ≤ s.cfg.lenCap →
      exec (.send cmd) s = .next { s with
        tx := { s.tx with
          txbuf := memWriteN s.tx.txbuf 0 (encodeCmd s.cfg cmd)
          txLen := s.cfg.marker.length + (spelling s.cfg cmd.nameId).length + 9 + (payloadOf cmd).length
          txPos := 0, polls := 0, txState := .writing, wdArmed := true
          wdElapsed := if s.tx.wdArmed then s.tx.wdElapsed else 0 }
        out := [.accepted] })
    ∧ (s.tx.txState = .idle → wellFormedCmd s.cfg cmd = false →
      exec (.send cmd) s = .next { s with
        tx := { s.tx with lastOutcome := .encMalformed }, out := [.outcome .encMalformed] })
    ∧ (s.tx.txState = .idle → wellFormedCmd s.cfg cmd = true → (payloadOf cmd).length > s.cfg.lenCap →
      exec (.send cmd) s = .next { s with
        tx := { s.tx with lastOutcome := .encOversize }, out := [.outcome .encOversize] })
    ∧ (s.tx.txState ≠ .idle →
      exec (.send cmd) s = .next { s with held := s.held ++ [cmd], out := [.notAccepted] })

/-- R186: `WRITE_STEP` offers the unwritten rest of the frame and advances by what the Sink took; the last
byte taken begins the wait. A Sink that answers more than it was offered breaks its contract, and the step
is refused (the model's choice, log 9). -/
def Obligations.WriteStepRule : Prop :=
  ∀ (s : State) (n : Nat), s.Inv → s.tx.txState = .writing →
    (n < s.tx.txLen - s.tx.txPos → exec (.writeStep n) s = .next { s with
      tx := { s.tx with txPos := s.tx.txPos + n }
      out := [.sinkWrite (memReadN .txbuf s.tx.epoch s.tx.txbuf s.tx.txPos (s.tx.txLen - s.tx.txPos)) n] })
    ∧ (n = s.tx.txLen - s.tx.txPos → exec (.writeStep n) s = .next { s with
      tx := { s.tx with txPos := s.tx.txLen, txState := .waiting, polls := 0 }
      out := [.sinkWrite (memReadN .txbuf s.tx.epoch s.tx.txbuf s.tx.txPos (s.tx.txLen - s.tx.txPos)) n] })
    ∧ (n > s.tx.txLen - s.tx.txPos →
      exec (.writeStep n) s = .refused (.sinkOverrun (s.tx.txLen - s.tx.txPos) n))

/-- R186, R206: over any run of writes that the Sink's answers allow, answers of 0 among them, the bytes taken
are those of the frame from where it stood, in order, with no gap and no repetition; when the frame is out the
wait has begun. (A `WRITE_STEP` after that is disabled, and has no effect: the model's choice, log 7.) -/
def Obligations.WritesDeliverTheFrameInOrder : Prop :=
  ∀ (s : State) (ns : List Nat), s.Inv → s.tx.txState = .writing →
    ns.sum ≤ s.tx.txLen - s.tx.txPos →
    ∃ t, runWrites ns s [] = some (memReadN .txbuf s.tx.epoch s.tx.txbuf s.tx.txPos ns.sum, t)
      ∧ t.tx.txbuf = s.tx.txbuf ∧ t.tx.txPos = s.tx.txPos + ns.sum ∧ t.rx = s.rx ∧ t.sc = s.sc
      ∧ (t.tx.txState = .waiting ↔ ns.sum = s.tx.txLen - s.tx.txPos)

/-- R201, R202, R92: a poll answered with a line that begins with the completion token ends the wait in
success, whatever the count, and disarms the watchdog under both policies. The line is the head of `SC`, and
only it is taken, or it has just arrived on an empty `SC` (log 10). -/
def Obligations.PollCompletionLine : Prop :=
  ∀ (s : State) (l : Line), s.tx.txState = .waiting → s.cfg.ackToken <+: l → s.sc = [] ∨ s.sc.head? = some l →
    exec (.poll (some l)) s = .next { s with
      sc := s.sc.tail
      tx := { s.tx with
        polls := s.tx.polls + 1, txState := .idle, lastOutcome := .ackOk, wdArmed := false }
      out := [.sinkReadline s.cfg.pollTimeoutMs, .outcome .ackOk] }

/-- R201, R203, R92: a poll answered with an error line ends the wait, empties `SC`, and disarms the watchdog
under `wait_end` only. The line is the head of `SC`, or has just arrived on an empty `SC` (log 10). -/
def Obligations.PollErrorLine : Prop :=
  ∀ (s : State) (l : Line), s.tx.txState = .waiting → s.cfg.errToken <+: l → s.sc = [] ∨ s.sc.head? = some l →
    exec (.poll (some l)) s = .next { s with
      sc := []
      tx := { s.tx with
        polls := s.tx.polls + 1, txState := .idle, lastOutcome := .ackError
        wdArmed := match s.cfg.wdClearOn with | .waitEnd => false | .ackOnly => s.tx.wdArmed }
      out := [.sinkReadline s.cfg.pollTimeoutMs, .outcome .ackError, .scFlush] }

/-- R201, R204, R205: an ordinary line costs a poll and is discarded; the poll that uses up the budget ends
the wait in a timeout. The line is the head of `SC`, or has just arrived on an empty `SC` (log 10). -/
def Obligations.PollOrdinaryLine : Prop :=
  ∀ (s : State) (l : Line), s.tx.txState = .waiting → ¬ s.cfg.ackToken <+: l → ¬ s.cfg.errToken <+: l →
    s.sc = [] ∨ s.sc.head? = some l →
    exec (.poll (some l)) s = .next (
      if s.tx.polls + 1 = s.cfg.retryBudget then { s with
        sc := s.sc.tail
        tx := { s.tx with
          polls := s.tx.polls + 1, txState := .idle, lastOutcome := .ackTimeout
          wdArmed := match s.cfg.wdClearOn with | .waitEnd => false | .ackOnly => s.tx.wdArmed }
        out := [.sinkReadline s.cfg.pollTimeoutMs, .outcome .ackTimeout] }
      else { s with
        sc := s.sc.tail
        tx := { s.tx with polls := s.tx.polls + 1 }
        out := [.sinkReadline s.cfg.pollTimeoutMs] })

/-- R201, R204, R205, R240, R241, R237 (item 5): a null poll takes `POLL_TIMEOUT_MS` of the watchdog's time,
and a watchdog that this fires comes before the count; else the poll is counted, and the one that uses up
the budget ends the wait in a timeout. `SC` is not touched. That a watchdog that fires is presented on `OUTCOME`
too is the model's choice (log 22): R241 names no port. -/
def Obligations.PollNull : Prop :=
  ∀ s : State, s.Inv → s.tx.txState = .waiting →
    exec (.poll none) s = .next (
      if s.tx.wdElapsed + s.cfg.pollTimeoutMs > s.cfg.wdCeilingMs then { s with
        tx := { s.tx with
          wdElapsed := s.tx.wdElapsed + s.cfg.pollTimeoutMs, txState := .fatal, wdArmed := false
          lastOutcome := .wdFatal }
        out := [.sinkReadline s.cfg.pollTimeoutMs, .outcome .wdFatal] }
      else if s.tx.polls + 1 = s.cfg.retryBudget then { s with
        tx := { s.tx with
          wdElapsed := s.tx.wdElapsed + s.cfg.pollTimeoutMs, polls := s.tx.polls + 1
          txState := .idle, lastOutcome := .ackTimeout
          wdArmed := match s.cfg.wdClearOn with | .waitEnd => false | .ackOnly => true }
        out := [.sinkReadline s.cfg.pollTimeoutMs, .outcome .ackTimeout] }
      else { s with
        tx := { s.tx with
          wdElapsed := s.tx.wdElapsed + s.cfg.pollTimeoutMs, polls := s.tx.polls + 1 }
        out := [.sinkReadline s.cfg.pollTimeoutMs] })

/-- R186, R201, R241: `WRITE_STEP` outside `WRITING` and `POLL` outside `WAITING` are disabled. That a
disabled operation completes with no effect is the model's choice (log 7). A poll answer that is neither the
head of a nonempty `SC` nor null is no draw of R201's, and is refused (log 10). -/
def Obligations.DisabledOperations : Prop :=
  ∀ s : State,
    (∀ n, s.tx.txState ≠ .writing → exec (.writeStep n) s = .next { s with out := [.disabled] })
    ∧ (∀ ans, s.tx.txState ≠ .waiting → exec (.poll ans) s = .next { s with out := [.disabled] })
    ∧ (∀ l h rest, s.tx.txState = .waiting → s.sc = h :: rest → l ≠ h →
      exec (.poll (some l)) s = .refused .pollAnswerNotHead)

/-- R208, R205: null polls to the end of the budget, with time left on the watchdog, end the wait in a
timeout, after exactly `RETRY_BUDGET` polls and `RETRY_BUDGET · POLL_TIMEOUT_MS` ms. -/
def Obligations.SilenceTimesOut : Prop :=
  ∀ s : State, s.Inv → s.tx.txState = .waiting → s.tx.polls = 0 →
    s.tx.wdElapsed + s.cfg.retryBudget * s.cfg.pollTimeoutMs ≤ s.cfg.wdCeilingMs →
    ∃ t, runOps (List.replicate s.cfg.retryBudget (.poll none)) s = some t
      ∧ t.tx = { s.tx with
        polls := s.cfg.retryBudget
        wdElapsed := s.tx.wdElapsed + s.cfg.retryBudget * s.cfg.pollTimeoutMs
        txState := .idle, lastOutcome := .ackTimeout
        wdArmed := match s.cfg.wdClearOn with | .waitEnd => false | .ackOnly => true }
      ∧ t.rx = s.rx ∧ t.sc = s.sc

/-- R208, R200: no wait lasts more than `RETRY_BUDGET` polls, whatever their answers. -/
def Obligations.WaitIsBounded : Prop :=
  ∀ (s t : State) (answers : List (Option Line)), s.Inv → s.tx.txState = .waiting →
    s.cfg.retryBudget ≤ s.tx.polls + answers.length →
    runOps (answers.map .poll) s = some t → t.tx.txState ≠ .waiting

/-- R240, R241: `TIME` advances an armed watchdog, which fires when the ceiling is passed, not when it is
reached; a watchdog that is not armed does not count. It has no other effect. That a watchdog that fires is
presented on `OUTCOME` too is the model's choice (log 22): R241 names no port. -/
def Obligations.TimeRule : Prop :=
  ∀ (s : State) (d : Nat),
    (s.tx.wdArmed = false → exec (.time d) s = .next { s with out := [] })
    ∧ (s.tx.wdArmed = true → s.tx.wdElapsed + d ≤ s.cfg.wdCeilingMs →
      exec (.time d) s = .next { s with tx := { s.tx with wdElapsed := s.tx.wdElapsed + d }, out := [] })
    ∧ (s.tx.wdArmed = true → s.tx.wdElapsed + d > s.cfg.wdCeilingMs →
      exec (.time d) s = .next { s with
        tx := { s.tx with
          wdElapsed := s.tx.wdElapsed + d, txState := .fatal, wdArmed := false, lastOutcome := .wdFatal }
        out := [.outcome .wdFatal] })

/-- R241, R239: while the sender is in `FATAL` no operation but `RESET_TX` changes anything of the send half:
no `SEND` is accepted, no write, poll or time has an effect; and `RESET_TX` leaves it. -/
def Obligations.FatalUntilResetTx : Prop :=
  ∀ (s t : State) (i : Instr), s.Inv → s.tx.txState = .fatal → exec i s = .next t →
    (i ≠ .resetTx → t.tx = s.tx) ∧ (i = .resetTx → t.tx.txState = .idle)

/-- R288: under `ack_only`, once the sender has an unacknowledged command, no run of operations that brings it
no line can outlast the ceiling: when the time reported takes the watchdog past it, the sender is in
`FATAL`, whether or not it went on sending. -/
def Obligations.SilentDeviceEndsInFatal : Prop :=
  ∀ (s t : State) (ops : List Instr), s.Inv → s.cfg.wdClearOn = .ackOnly → s.tx.wdArmed = true →
    (∀ i ∈ ops, bringsNoLine i = true) → s.tx.wdElapsed + timeReported ops > s.cfg.wdCeilingMs →
    runOps ops s = some t → t.tx.txState = .fatal

/-- R271, R273: the values after `RESET_TX`, in every `tx_state`; the receive half, the side channel and the
requests held are untouched. Of the contents of TXBUF nothing is said: they are unspecified. -/
def Obligations.ResetTxValues : Prop :=
  ∀ s : State, ∃ t, exec .resetTx s = .next t
    ∧ t.tx.txState = .idle ∧ t.tx.txLen = 0 ∧ t.tx.txPos = 0 ∧ t.tx.polls = 0 ∧ t.tx.lastOutcome = .none
    ∧ t.tx.wdArmed = false ∧ t.tx.wdElapsed = 0 ∧ t.out = []
    ∧ t.rx = s.rx ∧ t.sc = s.sc ∧ t.pipe = s.pipe ∧ t.held = s.held ∧ t.cfg = s.cfg ∧ t.reqs = s.reqs
    ∧ t.sched = s.sched

/-- R37, R271, R241: every change of `tx_state` is one of the transitions of R37, by the operation it names, or
`RESET_TX`, which R271 lets leave any state for `IDLE`. The watchdog's move to `FATAL` is by time or by a null
poll. That a line's arrival can end a wait, by the poll a waiting sender makes in the same step, is the model's
choice (log 6). -/
def Obligations.SenderTransitions : Prop :=
  ∀ (s t : State) (i : Instr), s.Inv → exec i s = .next t → t.tx.txState ≠ s.tx.txState →
    (s.tx.txState = .idle ∧ t.tx.txState = .writing ∧ ∃ cmd, i = .send cmd)
    ∨ (s.tx.txState = .writing ∧ t.tx.txState = .waiting ∧ ∃ n, i = .writeStep n)
    ∨ (s.tx.txState = .waiting ∧ t.tx.txState = .idle
      ∧ ((∃ a, i = .poll a) ∨ (∃ r, i = .ackLine r) ∨ ∃ r, i = .errLine r))
    ∨ (t.tx.txState = .fatal ∧ ((∃ d, i = .time d) ∨ i = .poll none))
    ∨ (t.tx.txState = .idle ∧ i = .resetTx)

/-- R207, R65, R74: TXBUF, and the length of the frame in it, change only when an idle sender accepts a `SEND`
or at `RESET_TX`; so while a frame is written or waited on, nothing starts another. -/
def Obligations.SingleFlight : Prop :=
  ∀ (s t : State) (i : Instr), exec i s = .next t →
    t.tx.txbuf ≠ s.tx.txbuf ∨ t.tx.txLen ≠ s.tx.txLen →
    (s.tx.txState = .idle ∧ (∃ cmd, i = .send cmd) ∧ t.tx.txState = .writing) ∨ i = .resetTx

/-! ### The side channel and the handshake -/

/-- R92, R93, R50, R201, R202, R203: a line that begins with a token arrives behind what waits in `SC`. A sender
that does not wait leaves it there. A sender that waits makes one poll, whose answer is the head of `SC`: the
line that came, if nothing was there, which ends the wait; else the oldest line, as that poll would have it
anyway. That a waiting sender polls in the step of the arrival is the model's choice (log 6). -/
def Obligations.TokenLinesArrive : Prop :=
  ∀ (s : State) (rest : List Byte),
    (s.tx.txState ≠ .waiting →
      exec (.ackLine rest) s = .next { s with sc := s.sc ++ [s.cfg.ackToken ++ rest], out := [] }
      ∧ exec (.errLine rest) s = .next { s with sc := s.sc ++ [s.cfg.errToken ++ rest], out := [] })
    ∧ (s.tx.txState = .waiting → s.sc = [] →
      exec (.ackLine rest) s = .next { s with
        tx := { s.tx with
          polls := s.tx.polls + 1, txState := .idle, lastOutcome := .ackOk, wdArmed := false }
        out := [.sinkReadline s.cfg.pollTimeoutMs, .outcome .ackOk] }
      ∧ exec (.errLine rest) s = .next { s with
        tx := { s.tx with
          polls := s.tx.polls + 1, txState := .idle, lastOutcome := .ackError
          wdArmed := match s.cfg.wdClearOn with | .waitEnd => false | .ackOnly => s.tx.wdArmed }
        out := [.sinkReadline s.cfg.pollTimeoutMs, .outcome .ackError, .scFlush] })
    ∧ (∀ h q, s.tx.txState = .waiting → s.sc = h :: q →
      (exec (.ackLine rest) s = exec (.poll (some h)) { s with sc := h :: (q ++ [s.cfg.ackToken ++ rest]) }
        ∧ ∃ t, exec (.ackLine rest) s = .next t ∧ t.rx = s.rx ∧ t.tx.polls = s.tx.polls + 1)
      ∧ (exec (.errLine rest) s = exec (.poll (some h)) { s with sc := h :: (q ++ [s.cfg.errToken ++ rest]) }
        ∧ ∃ t, exec (.errLine rest) s = .next t ∧ t.rx = s.rx ∧ t.tx.polls = s.tx.polls + 1))

/-- R212: the handshake of a frame decoded with no error: the frame arrives, byte by byte, while the host waits
(the device's loop going on by itself is the model's choice, log 5); the consumer signals `CMD_DONE`; and the
waiting host's next poll takes the completion line and ends in success. -/
def Obligations.HandshakeCompletes : Prop :=
  ∀ (s : State) (cmd : Cmd) (i : Instr), cmdInstr cmd = some i → wellFormedCmd s.cfg cmd = true →
    (payloadOf cmd).length ≤ s.cfg.payloadRamBytes →
    FrameArrives s cmd.nameId (payloadOf cmd) (crc32 (payloadOf cmd)) →
    s.tx.txState = .waiting → s.sc = [] →
    ∃ u t, Delivers i (encodeCmd s.cfg cmd) s [.frameOk cmd] u
      ∧ runOps [.cmdDone, .poll (some s.cfg.ackToken)] u = some t
      ∧ t.rx.acksOwed = s.rx.acksOwed ∧ t.sc = []
      ∧ t.tx = { s.tx with
        polls := s.tx.polls + 1, txState := .idle, lastOutcome := .ackOk, wdArmed := false }

/-- R282: a completion line left in `SC` by an earlier wait ends the next wait in `ACK_OK`, though the device
has seen nothing of the frame just sent. -/
def Obligations.StaleAcknowledgment : Prop :=
  ∀ (s : State) (cmd : Cmd) (l : Line), s.Inv → s.tx.txState = .idle → wellFormedCmd s.cfg cmd = true →
    (payloadOf cmd).length ≤ s.cfg.lenCap → s.sc = [l] → s.cfg.ackToken <+: l →
    ∃ t, runOps [.send cmd, .writeStep (encodeCmd s.cfg cmd).length, .poll (some l)] s = some t
      ∧ t.tx.lastOutcome = .ackOk ∧ t.tx.txState = .idle ∧ t.sc = [] ∧ t.rx = s.rx

/-! ### The whole machine -/

/-- R73, R245: the two halves share no state: neither writes the other's, and neither reads it. What concerns the
send half leaves the receive half as it was, and what it does to the send half, to the side channel, to the
requests held and on the ports is the same whatever the receive half and the byte pipe hold. What concerns the
receive half leaves the send half and the requests held as they were, and what it does to the receive half, to
the byte pipe and on the ports is the same whatever the send half, the side channel and the requests held are. -/
def Obligations.HalvesShareNoState : Prop :=
  ∀ (s s' t : State) (i : Instr), exec i s = .next t → s'.cfg = s.cfg →
    (match i with
      | .send _ | .writeStep _ | .poll _ | .time _ | .resetTx | .ackLine _ | .errLine _ =>
        t.rx = s.rx ∧ t.pipe = s.pipe
        ∧ (s'.tx = s.tx → s'.sc = s.sc → s'.held = s.held →
          ∃ t', exec i s' = .next t' ∧ t'.tx = t.tx ∧ t'.sc = t.sc ∧ t'.held = t.held ∧ t'.out = t.out)
      | _ =>
        t.tx = s.tx ∧ t.held = s.held
        ∧ (s'.rx = s.rx → s'.pipe = s.pipe →
          ∃ t', exec i s' = .next t' ∧ t'.rx = t.rx ∧ t'.pipe = t.pipe ∧ t'.out = t.out
            ∧ ∀ lines, t.sc = s.sc ++ lines → t'.sc = s'.sc ++ lines))

/-- R5, 93 U12: a block is built exactly from parameters that meet R5's constraints, and then has them. That
the layout classes of the first 16 entries are those of R88 is R88's last sentence, read as a constraint
(log 19). -/
def Obligations.IllegalConfigurationsAreRefused : Prop :=
  ∀ p : Params, (∃ c, Config.build p = some c ∧ c.toParams = p) ↔
    (p.marker ≠ [] ∧ 1 ≤ p.payloadRamBytes ∧ p.payloadRamBytes ≤ p.lenCap ∧ p.lenCap < 2 ^ 32
      ∧ (∀ e ∈ p.nameTable, e.name ≠ [] ∧ e.name.length ≤ p.nameMax ∧ 0x00#8 ∉ e.name)
      ∧ (p.nameTable.map (·.name)).Nodup
      ∧ p.ackToken ≠ [] ∧ p.errToken ≠ [] ∧ ¬ p.ackToken <+: p.errToken ∧ ¬ p.errToken <+: p.ackToken
      ∧ (∀ b ∈ p.ackToken ++ p.errToken, b ≠ 0x0A#8 ∧ b ≠ 0x0D#8)
      ∧ 1 ≤ p.rxbufCap ∧ 1 ≤ p.retryBudget ∧ 1 ≤ p.pollTimeoutMs
      ∧ (p.nameTable.map (·.cls)).take 16 = (standardTable.map (·.cls)).take p.nameTable.length)

/-- R270, R271, R5, R88: the machine right after reset: every
register the spec gives a value, at it, and the default parameters, the 16 names of R88 byte for byte among
them, each with its layout class. -/
def Obligations.ResetValues : Prop :=
  State.reset.rx.phase.code = 0 ∧ State.reset.rx.mhist = [] ∧ State.reset.rx.nameLen = 0
  ∧ State.reset.rx.nameId = 0 ∧ State.reset.rx.lenAcc = 0#32 ∧ State.reset.rx.lenCnt = 0
  ∧ State.reset.rx.plen = 0 ∧ State.reset.rx.payCnt = 0 ∧ State.reset.rx.hwm = 0
  ∧ State.reset.rx.crcRun = 0xFFFFFFFF#32 ∧ State.reset.rx.crcAcc = 0#32 ∧ State.reset.rx.crcCnt = 0
  ∧ State.reset.rx.rxq = [] ∧ State.reset.rx.acksOwed = 0
  ∧ State.reset.tx.txState.code = 0 ∧ State.reset.tx.txLen = 0 ∧ State.reset.tx.txPos = 0
  ∧ State.reset.tx.polls = 0 ∧ State.reset.tx.lastOutcome.code = 0x00#8 ∧ State.reset.tx.wdArmed = false
  ∧ State.reset.tx.wdElapsed = 0
  ∧ State.reset.cfg.marker = [0x7E, 0x41, 0x44, 0x41] ∧ State.reset.cfg.nameMax = 32
  ∧ State.reset.cfg.lenCap = 50000 ∧ State.reset.cfg.payloadRamBytes = 50000
  ∧ State.reset.cfg.rxbufCap = 1024 ∧ State.reset.cfg.trailingPolicy = .reject
  ∧ State.reset.cfg.ackToken = [0x4F, 0x4B] ∧ State.reset.cfg.errToken = [0x45, 0x52, 0x52, 0x4F, 0x52]
  ∧ State.reset.cfg.retryBudget = 1000 ∧ State.reset.cfg.pollTimeoutMs = 50
  ∧ State.reset.cfg.wdCeilingMs = 60000
  ∧ State.reset.cfg.nameTable =
    [ ⟨[0x53, 0x65, 0x74, 0x43, 0x6F, 0x6C, 0x6F, 0x72], .array4 2⟩,
      ⟨[0x42, 0x72, 0x65, 0x61, 0x74, 0x68, 0x65], .fixed 3⟩,
      ⟨[0x47, 0x72, 0x61, 0x64, 0x69, 0x65, 0x6E, 0x74], .array4 3⟩,
      ⟨[0x4D, 0x6F, 0x76, 0x69, 0x6E, 0x67, 0x47, 0x72, 0x61, 0x64, 0x69, 0x65, 0x6E, 0x74], .array4 3⟩,
      ⟨[0x43, 0x72, 0x6F, 0x73, 0x73, 0x46, 0x61, 0x64, 0x65], .array4 1⟩,
      ⟨[0x52, 0x61, 0x69, 0x6E, 0x62, 0x6F, 0x77], .fixed 2⟩,
      ⟨[0x46, 0x69, 0x72, 0x65], .fixed 3⟩,
      ⟨[0x54, 0x77, 0x69, 0x6E, 0x6B, 0x6C, 0x65], .fixed 4⟩,
      ⟨[0x4E, 0x65, 0x75, 0x72, 0x61, 0x6C, 0x44, 0x72, 0x6F, 0x70], .fixed 1⟩,
      ⟨[0x57, 0x61, 0x74, 0x65, 0x72, 0x44, 0x72, 0x6F, 0x70], .fixed 3⟩,
      ⟨[0x53, 0x74, 0x61, 0x72, 0x74, 0x52, 0x61, 0x69, 0x6E], .fixed 2⟩,
      ⟨[0x53, 0x74, 0x6F, 0x70, 0x52, 0x61, 0x69, 0x6E], .fixed 0⟩,
      ⟨[0x53, 0x74, 0x61, 0x74, 0x75, 0x73], .fixed 0⟩,
      ⟨[0x45, 0x6E, 0x63, 0x6F, 0x64, 0x65, 0x64, 0x42, 0x75, 0x66, 0x66, 0x65, 0x72], .w3A8⟩,
      ⟨[0x46, 0x75, 0x6C, 0x6C, 0x42, 0x75, 0x66, 0x66, 0x65, 0x72], .w3P⟩,
      ⟨[0x53, 0x70, 0x65, 0x65, 0x64, 0x54, 0x65, 0x73, 0x74], .fixed 0⟩ ]

/-- R22, R36, R231, R232, R93, R46: the encodings of `phase` and of `tx_state`, the codes of the receive errors
and of the send outcomes, the nine bytes of each default error line, and the status outputs in every state and
at reset. (`ERR_RESYNC` gets no line, R236.) -/
def Obligations.CodesAndStatusOutputs : Prop :=
  (Phase.seekMarker.code = 0 ∧ Phase.readName.code = 1 ∧ Phase.readLength.code = 2 ∧ Phase.readPayload.code = 3
    ∧ Phase.readCrc.code = 4)
  ∧ (TxMode.idle.code = 0 ∧ TxMode.writing.code = 1 ∧ TxMode.waiting.code = 2 ∧ TxMode.fatal.code = 3)
  ∧ (RxError.crc.code = 0x01 ∧ RxError.oversize.code = 0x02 ∧ RxError.unknownName.code = 0x03
    ∧ RxError.nameTooLong.code = 0x04 ∧ RxError.resync.code = 0x05 ∧ RxError.malformed.code = 0x06
    ∧ RxError.alloc.code = 0x07)
  ∧ (SendOutcome.none.code = 0x00 ∧ SendOutcome.ackOk.code = 0x10 ∧ SendOutcome.ackError.code = 0x11
    ∧ SendOutcome.ackTimeout.code = 0x12 ∧ SendOutcome.encMalformed.code = 0x13
    ∧ SendOutcome.encOversize.code = 0x14 ∧ SendOutcome.wdFatal.code = 0x1F)
  ∧ (∀ line, line = wireLine ∘ errorLine Config.standard →
    line .crc = [0x45, 0x52, 0x52, 0x4F, 0x52, 0x20, 0x30, 0x31, 0x0A]
    ∧ line .oversize = [0x45, 0x52, 0x52, 0x4F, 0x52, 0x20, 0x30, 0x32, 0x0A]
    ∧ line .unknownName = [0x45, 0x52, 0x52, 0x4F, 0x52, 0x20, 0x30, 0x33, 0x0A]
    ∧ line .nameTooLong = [0x45, 0x52, 0x52, 0x4F, 0x52, 0x20, 0x30, 0x34, 0x0A]
    ∧ line .malformed = [0x45, 0x52, 0x52, 0x4F, 0x52, 0x20, 0x30, 0x36, 0x0A]
    ∧ line .alloc = [0x45, 0x52, 0x52, 0x4F, 0x52, 0x20, 0x30, 0x37, 0x0A])
  ∧ (∀ s : State, (s.rxInFrame = true ↔ s.rx.phase ≠ .seekMarker) ∧ s.rxFifoCount = s.rx.rxq.length
    ∧ (s.txReady = true ↔ s.tx.txState = .idle) ∧ (s.fatalOut = true ↔ s.tx.txState = .fatal))
  ∧ (State.reset.rxInFrame = false ∧ State.reset.rxFifoCount = 0 ∧ State.reset.txReady = true
    ∧ State.reset.fatalOut = false)

/-- The machine right after reset has the invariant, whatever its configuration. -/
def Obligations.InvAtReset : Prop := ∀ c : Config, (State.resetWith c).Inv

/-- R23, R24, R26, R27, R33, R62, R63, R65, R232: every step keeps the invariant: the spaces in canonical form
and inside their bounds, read only where written; the counters inside their ranges; the running CRC that of
the payload received; what `MsgClear` cleared still clear where its phase has not begun; the send half's
positions, counts and watchdog as its states require. And no step changes the configuration (R5, R47, R76). -/
def Obligations.StepKeepsInv : Prop :=
  ∀ s t : State, s.Inv → step s = .next t → t.Inv ∧ t.cfg = s.cfg

/-- R67, R63, R62, R65: from a state of the invariant no step faults: every access is inside its space. -/
def Obligations.InvNeverFaults : Prop :=
  ∀ (s : State) (f : Fault), s.Inv → step s ≠ .fault f

/-- A step runs the decoded instruction: where the environment chooses nothing, no `DECODE` is in progress and no
bytes arrive, the next request is decoded and executed, and is the one thing the step does. With no request, the
oldest `SEND` that is held is presented again, if the sender is ready (log 8); with nothing asked of it the block
only forgets what its ports carried (R247). A `DECODE` in progress goes on. So do bytes that arrive: the transport
feeds when there is room and no `DECODE` in progress, else the loop decodes, and the `DECODE` that finds nothing
left ends the arrival (R11, R110, R111, R280). That the block's callers come in this order is the model's choice
(logs 4, 5 and 8). -/
def Obligations.StepRunsTheDecodedInstruction : Prop :=
  ∀ s : State, s.sched = [] →
    (s.rx.decoding = false → s.pipe = none →
      (∀ r rest i, s.reqs = r :: rest → Sys2Proof.decode s.cfg r = .ok i →
        step s = exec i { s with reqs := rest })
      ∧ (∀ cmd rest, s.reqs = [] → s.held = cmd :: rest → s.tx.txState = .idle →
        step s = exec (.send cmd) { s with held := rest })
      ∧ (s.reqs = [] → s.held = [] ∨ s.tx.txState ≠ .idle → step s = .next { s with out := [] }))
    ∧ (s.rx.decoding = true → s.pipe = none → step s = exec .decode s)
    ∧ (∀ bs k, s.pipe = some bs → bs ≠ [] → s.rx.decoding = false → s.rx.rxq.length < s.cfg.rxbufCap →
      k = min bs.length (s.cfg.rxbufCap - s.rx.rxq.length) →
      step s = .next { s with
        rx := { s.rx with rxq := s.rx.rxq ++ bs.take k }, pipe := some (bs.drop k), out := [.feedCount k] })
    ∧ (∀ bs, s.pipe = some bs → bs ≠ [] → s.rx.decoding = true ∨ s.cfg.rxbufCap ≤ s.rx.rxq.length →
      step s = exec .decode s)
    ∧ (s.pipe = some [] → s.rx.rxq ≠ [] → step s = exec .decode s)
    ∧ (s.pipe = some [] → s.rx.rxq = [] → step s = exec .decode { s with pipe := none })

/-- R50, R73, R94, R92, R207, R270, 92 D41, and the model's choices where the spec leaves the environment free. Bytes on the
pipe that are no instruction of the table arrive as a frame does (log 20): what the parser makes of them, and
that it is what `FEED` and `DECODE` make of them, `ArrivingBytesAreFedAndDecoded` says of any bytes; that the
device's loop then goes on by itself is the model's choice (log 5). An ordinary line enters `SC`, and that a
sender that waits polls once in the same step is the model's choice (log 6). What the environment chooses is the
model's data (log 4): a line arrives without a poll, and is appended as it is (log 31); a source presents a
held request again when the sender is ready (log 8); the next request is served while bytes arrive, between two
`DECODE`s (log 5). While a `DECODE` is in progress, a choice lets it take its next byte, or serves the next
request if that concerns the send half or is `RESET_RX`, so that such a request may come after any number of its
bytes; the receive half's other operations wait for its response (log 21). -/
def Obligations.StepServesTheEnvironment : Prop :=
  ∀ s : State,
    (∀ rest bytes e, s.sched = [] → s.rx.decoding = false → s.pipe = none → s.reqs = .pipe bytes :: rest →
      Sys2Proof.decode s.cfg (.pipe bytes) = .error e →
      step s = .next (pipeArrives bytes { s with reqs := rest }))
    ∧ (∀ rest l, s.sched = [] → s.rx.decoding = false → s.pipe = none →
      s.reqs = .side (lineBytes l) :: rest →
      lineClean l = true → ¬ s.cfg.ackToken <+: l → ¬ s.cfg.errToken <+: l →
      (s.tx.txState ≠ .waiting → step s = .next { s with reqs := rest, sc := s.sc ++ [l], out := [] })
      ∧ ∀ h q, s.tx.txState = .waiting → s.sc ++ [l] = h :: q →
        step s = exec (.poll (some h)) { s with reqs := rest, sc := h :: q })
    ∧ (∀ l ts, s.sched = .arrive l :: ts →
      step s = .next { s with sched := ts, sc := s.sc ++ [l], out := [] })
    ∧ (∀ k cmd ts, s.sched = .retry k :: ts → s.held[k]? = some cmd → s.tx.txState = .idle →
      step s = exec (.send cmd) { s with sched := ts, held := s.held.eraseIdx k })
    ∧ (∀ ts r rest i, s.sched = .serve :: ts → s.rx.decoding = false → s.reqs = r :: rest →
      Sys2Proof.decode s.cfg r = .ok i → step s = exec i { s with sched := ts, reqs := rest })
    ∧ (∀ ts, s.sched = .proceed :: ts → s.rx.decoding = true → s.pipe = none ∨ s.rx.rxq ≠ [] →
      step s = exec .decode { s with sched := ts })
    ∧ (∀ ts r rest i, s.sched = .serve :: ts → s.rx.decoding = true → s.reqs = r :: rest →
      Sys2Proof.decode s.cfg r = .ok i →
      match i with
      | .send _ | .writeStep _ | .poll _ | .time _ | .resetTx | .ackLine _ | .errLine _ | .resetRx =>
        step s = exec i { s with sched := ts, reqs := rest }
      | _ => s.pipe = none ∨ s.rx.rxq ≠ [] → step s = exec .decode { s with sched := ts })
end

