-- ==== Sys2Proof/Laws/Bytes.lean ====
section
/-! SUPPORT. Little-endian fields, names and lines: what the encoder writes is what the decoder reads. -/

namespace Sys2Proof

@[simp] theorem le32_length (v : Word) : (le32 v).length = 4 := rfl

/-- The four bytes of a word make it again (R9). -/
theorem word4_extract (v : Word) :
    word4 (v.extractLsb' 0 8) (v.extractLsb' 8 8) (v.extractLsb' 16 8) (v.extractLsb' 24 8) = v := by
  apply BitVec.eq_of_getLsbD_eq
  intro i hi
  simp only [word4, BitVec.getLsbD_append, BitVec.getLsbD_extractLsb']
  by_cases h1 : i < 8
  · simp [h1]
  · by_cases h2 : i < 16
    · simp [h1, show i - 8 < 8 by omega, show 8 + (i - 8) = i by omega]
    · by_cases h3 : i < 24
      · simp [h1, show ¬ i - 8 < 8 by omega, show i - 8 - 8 < 8 by omega,
          show 16 + (i - 8 - 8) = i by omega]
      · simp [h1, show ¬ i - 8 < 8 by omega, show ¬ i - 8 - 8 < 8 by omega,
          show i - 8 - 8 - 8 < 8 by omega, show 24 + (i - 8 - 8 - 8) = i by omega]

/-- A field written at the start of the rest of a byte string reads back (R9). -/
theorem u32le_append_le32 (a : List Byte) (v : Word) (rest : List Byte) :
    u32le (a ++ le32 v ++ rest) a.length = v := by
  have h : ∀ k, k < 4 → (a ++ le32 v ++ rest).getD (a.length + k) 0#8 = (le32 v).getD k 0#8 := by
    intro k hk
    rw [List.append_assoc, List.getD_append_right _ _ _ _ (by omega),
      List.getD_append _ _ _ _ (by simp; omega)]
    congr 1
    omega
  have h0 := h 0 (by omega)
  simp only [Nat.add_zero] at h0
  rw [u32le, h0, h 1 (by omega), h 2 (by omega), h 3 (by omega)]
  exact word4_extract v

theorem u32le_le32_append (v : Word) (rest : List Byte) : u32le (le32 v ++ rest) 0 = v := by
  simpa using u32le_append_le32 [] v rest

/-- A field is read the same whatever stands before it. -/
theorem u32le_append_right (a b : List Byte) (i : Nat) : u32le (a ++ b) (a.length + i) = u32le b i := by
  have h : ∀ k, (a ++ b).getD (a.length + k) 0#8 = b.getD k 0#8 := by
    intro k
    rw [List.getD_append_right _ _ _ _ (by omega)]
    congr 1
    omega
  simp only [u32le, Nat.add_assoc, h]

/-- A field inside a prefix is read the same whatever stands after it. -/
theorem u32le_append_left (a b : List Byte) (i : Nat) (h : i + 4 ≤ a.length) : u32le (a ++ b) i = u32le a i := by
  have h' : ∀ k, k < a.length → (a ++ b).getD k 0#8 = a.getD k 0#8 := fun k hk => List.getD_append _ _ _ _ hk
  simp only [u32le]
  rw [h' i (by omega), h' (i + 1) (by omega), h' (i + 2) (by omega), h' (i + 3) (by omega)]

/-- Four bytes are the field they read as. -/
theorem le32_word4 (b0 b1 b2 b3 : Byte) : le32 (word4 b0 b1 b2 b3) = [b0, b1, b2, b3] := by
  have h : ∀ (k : Nat) (x : Byte), (∀ i, i < 8 → (word4 b0 b1 b2 b3).getLsbD (k + i) = x.getLsbD i) →
      (word4 b0 b1 b2 b3).extractLsb' k 8 = x := by
    intro k x hx
    apply BitVec.eq_of_getLsbD_eq
    intro i hi
    simp only [BitVec.getLsbD_extractLsb', hi, decide_true, Bool.true_and]
    exact hx i hi
  simp only [le32]
  rw [h 0 b0, h 8 b1, h 16 b2, h 24 b3]
  all_goals
    intro i hi
    simp only [word4, BitVec.getLsbD_append]
  · simp [show ¬ 24 + i < 8 by omega, show ¬ 24 + i - 8 < 8 by omega, show ¬ 24 + i - 8 - 8 < 8 by omega,
      show 24 + i - 8 - 8 - 8 = i by omega]
  · rw [if_neg (by omega), if_neg (by omega), if_pos (by omega), show 16 + i - 8 - 8 = i by omega]
  · rw [if_neg (by omega), if_pos (by omega), show 8 + i - 8 = i by omega]
  · simp [hi]

/-- The name ends at the first `00` (R82). -/
theorem splitAtZero_append (name rest : List Byte) (h : 0#8 ∉ name) :
    splitAtZero (name ++ 0#8 :: rest) = some (name, rest) := by
  induction name with
  | nil => simp [splitAtZero]
  | cons b bs ih =>
    simp only [List.mem_cons, not_or] at h
    simp [splitAtZero, Ne.symm h.1, ih h.2]

theorem eq_of_splitAtZero {l n r : List Byte} (h : splitAtZero l = some (n, r)) :
    l = n ++ 0#8 :: r ∧ 0#8 ∉ n := by
  induction l generalizing n r with
  | nil => simp [splitAtZero] at h
  | cons b bs ih =>
    by_cases hb : b = 0#8
    · simp [splitAtZero, hb] at h
      obtain ⟨rfl, rfl⟩ := h
      simp [hb]
    · simp only [splitAtZero, hb, if_false] at h
      cases hs : splitAtZero bs with
      | none => simp [hs] at h
      | some p =>
        obtain ⟨n', r'⟩ := p
        simp [hs] at h
        obtain ⟨rfl, rfl⟩ := h
        obtain ⟨h1, h2⟩ := ih hs
        refine ⟨by simp [h1], ?_⟩
        simp only [List.mem_cons, not_or]
        exact ⟨Ne.symm hb, h2⟩

/-- A line ends at the first `0A` (R92). -/
theorem splitAtNewline_append (l rest : List Byte) (h : 0x0A#8 ∉ l) :
    splitAtNewline (l ++ 0x0A#8 :: rest) = some (l, rest) := by
  induction l with
  | nil => simp [splitAtNewline]
  | cons b bs ih =>
    simp only [List.mem_cons, not_or] at h
    simp [splitAtNewline, Ne.symm h.1, ih h.2]

/-- A line reads back whole (R92). -/
theorem readWholeLine_lineBytes (l : Line) (h : lineClean l = true) : readWholeLine (lineBytes l) = some l := by
  have h0 : 0x0A#8 ∉ l := by simpa [lineClean] using h
  by_cases hl : l.getLast? = some 0x0D#8
  · have : splitAtNewline ((l ++ [0x0D#8]) ++ [0x0A#8]) = some (l ++ [0x0D#8], []) :=
      splitAtNewline_append _ [] (by simp [h0])
    simp only [readWholeLine, lineBytes, hl, if_true, wireLine, this]
    simp [stripCr]
  · have : splitAtNewline (l ++ [0x0A#8]) = some (l, []) := splitAtNewline_append l [] h0
    simp [readWholeLine, lineBytes, wireLine, this, stripCr, hl]

/-- What stands on the channel for a line ends with `0A` (R92). -/
theorem lineBytes_eq (l : Line) : ∃ line, lineBytes l = line ++ [0x0A#8] := by
  unfold lineBytes wireLine
  split <;> exact ⟨_, rfl⟩

end Sys2Proof
end

