-- ==== Sys2Proof/Laws/Marker.lean ====
section
/-! SUPPORT. The marker test (R113) in terms of the bytes since the last detection: the history is their
last `M-1`, and a byte completes a marker exactly when the marker is a suffix of them. -/

namespace Sys2Proof.Machine

theorem marker_pos (c : Config) : 0 < c.marker.length := by
  have h := c.isLegal
  simp only [Params.legal, Bool.and_eq_true, decide_eq_true_eq, ne_eq, decide_not, Bool.not_eq_true',
    decide_eq_false_iff_not] at h
  exact List.length_pos_iff.2 h.1.1.1.1.1.1.1.1.1.1.1.1.1.1

@[simp] theorem lastN_length (n : Nat) (w : List Byte) : (lastN n w).length = min n w.length := by
  simp [lastN]; omega

theorem lastN_of_length_le {n : Nat} {w : List Byte} (h : w.length ≤ n) : lastN n w = w := by
  simp [lastN, Nat.sub_eq_zero_of_le h]

/-- The last bytes of an extension depend only on the last bytes before it. -/
theorem lastN_lastN_append (n k : Nat) (u v : List Byte) (h : n ≤ k + v.length) :
    lastN n (lastN k u ++ v) = lastN n (u ++ v) := by
  simp only [lastN, List.length_append, List.length_drop]
  by_cases hk : u.length ≤ k
  · simp [Nat.sub_eq_zero_of_le hk]
  · rw [List.drop_append, List.drop_append, List.drop_drop]
    simp only [List.length_drop]
    congr 2 <;> omega

theorem lastN_eq_self_iff_suffix (m w : List Byte) : lastN m.length w = m ↔ m <:+ w := by
  rw [lastN, List.suffix_iff_eq_drop]
  exact eq_comm

/-- A byte completes a marker exactly when the marker ends the bytes seen so far (R113). -/
theorem completesMarker_iff (c : Config) (u : List Byte) (b : Byte) :
    completesMarker c (lastN (c.marker.length - 1) u) b = true ↔ c.marker <:+ u ++ [b] := by
  have hp := marker_pos c
  simp only [completesMarker, Bool.and_eq_true, decide_eq_true_eq, beq_iff_eq, List.length_append,
    List.length_singleton, lastN_length]
  rw [lastN_lastN_append _ _ _ _ (by simp; omega)]
  constructor
  · rintro ⟨h1, h2⟩
    exact (lastN_eq_self_iff_suffix _ _).1 h2
  · intro h
    have hl := h.length_le
    simp only [List.length_append, List.length_singleton] at hl
    exact ⟨by omega, (lastN_eq_self_iff_suffix _ _).2 h⟩

/-- The history after a byte that completes no marker (R113). -/
theorem nextMhist_of_not_completes {c : Config} {u : List Byte} {b : Byte} (h : ¬ c.marker <:+ u ++ [b]) :
    nextMhist c (lastN (c.marker.length - 1) u) b = lastN (c.marker.length - 1) (u ++ [b]) := by
  rw [nextMhist, if_neg (by rw [completesMarker_iff]; exact h)]
  exact lastN_lastN_append _ _ _ _ (by simp)

theorem nextMhist_of_completes {c : Config} {m : List Byte} {b : Byte} (h : completesMarker c m b = true) :
    nextMhist c m b = [] := by simp [nextMhist, h]

/-- No byte of `bs`, after `u`, completes a marker. -/
def Quiet (c : Config) (u bs : List Byte) : Prop := ∀ p, p <+: bs → p ≠ [] → ¬ c.marker <:+ u ++ p

theorem Quiet.cons {c : Config} {u bs : List Byte} {b : Byte} (h : Quiet c u (b :: bs)) :
    ¬ c.marker <:+ u ++ [b] ∧ Quiet c (u ++ [b]) bs := by
  refine ⟨h [b] ⟨bs, rfl⟩ (by simp), ?_⟩
  intro p hp hn
  have := h (b :: p) (by simpa using hp) (by simp)
  simpa using this

theorem Quiet.append {c : Config} {u a b : List Byte} (h : Quiet c u (a ++ b)) :
    Quiet c u a ∧ Quiet c (u ++ a) b := by
  refine ⟨fun p hp hn => h p (hp.trans (List.prefix_append _ _)) hn, ?_⟩
  intro p hp hn
  have := h (a ++ p) (by simpa using hp) (by simp [hn])
  simpa using this

/-- A byte string without the marker is quiet after a detection, which empties the history. -/
theorem quiet_of_markerFree {c : Config} {f : List Byte} (h : markerFree c f) : Quiet c [] f := by
  intro p hp _ hs
  simp only [List.nil_append] at hs
  exact h (hs.isInfix.trans hp.isInfix)

/-- A border-free marker is completed by its last byte and no earlier, whatever stands before it (R6). -/
theorem quiet_marker_prefix {c : Config} (hb : borderFree c.marker = true) (u : List Byte) :
    Quiet c u (c.marker.take (c.marker.length - 1)) := by
  intro p hp hn hs
  have hp' : p <+: c.marker := hp.trans (List.take_prefix _ _)
  have hpl : p.length < c.marker.length := by
    have := hp.length_le
    have := marker_pos c
    simp at *
    omega
  have hp0 : 0 < p.length := List.length_pos_iff.2 hn
  have hps : p <:+ c.marker := by
    have h1 : p <:+ u ++ p := List.suffix_append _ _
    exact List.suffix_of_suffix_length_le h1 hs (by omega)
  simp only [borderFree, List.all_eq_true, List.mem_range, Bool.or_eq_true, decide_eq_true_eq, ne_eq,
    decide_not, Bool.not_eq_true', decide_eq_false_iff_not] at hb
  rcases hb p.length hpl with h | h
  · omega
  · apply h
    rw [List.prefix_iff_eq_take] at hp'
    rw [List.suffix_iff_eq_drop] at hps
    rw [← hp', ← hps]

end Sys2Proof.Machine
end

