-- ==== Sys2Proof/Laws/Memory.lean ====
section
/-! SUPPORT. The byte-addressed spaces: a read after a write, what a write leaves alone, and the canonical
form, which every operation keeps. -/

namespace Sys2Proof.Machine

@[simp] theorem memRead_memWrite_same (m : Memory) (i : Nat) (b : Byte) : memRead (memWrite m i b) i = some b := by
  induction m with
  | nil => simp [memWrite, memRead]
  | cons x m ih =>
    obtain ⟨a, y⟩ := x
    simp only [memWrite]
    split
    · simp [memRead]
    · split
      · simp [memRead]
      · rename_i h1 h2
        simp [memRead, Ne.symm h2, ih]

theorem memRead_memWrite_other (m : Memory) (i j : Nat) (b : Byte) (h : j ≠ i) :
    memRead (memWrite m i b) j = memRead m j := by
  induction m with
  | nil => simp [memWrite, memRead, Ne.symm h]
  | cons x m ih =>
    obtain ⟨a, y⟩ := x
    simp only [memWrite]
    split
    · simp [memRead, Ne.symm h]
    · split
      · rename_i h1 h2
        subst h2
        simp [memRead, Ne.symm h]
      · simp [memRead, ih]

/-- Every listed address is above a bound. -/
theorem lt_of_memWf_cons {a : Nat} {x : Byte} {m : Memory} (h : memWf ((a, x) :: m) = true) :
    ∀ y ∈ m, a < y.1 := by
  induction m generalizing a x with
  | nil => simp
  | cons y m ih =>
    obtain ⟨b, z⟩ := y
    simp only [memWf, Bool.and_eq_true, decide_eq_true_eq] at h
    intro w hw
    rcases List.mem_cons.1 hw with rfl | hw
    · exact h.1
    · exact Nat.lt_trans h.1 (ih h.2 w hw)

theorem memWf_tail {x : Nat × Byte} {m : Memory} (h : memWf (x :: m) = true) : memWf m = true := by
  cases m with
  | nil => rfl
  | cons y m =>
    simp only [memWf, Bool.and_eq_true] at h
    exact h.2

theorem memWf_cons_of_lt {a : Nat} {x : Byte} {m : Memory} (h : memWf m = true) (hl : ∀ y ∈ m, a < y.1) :
    memWf ((a, x) :: m) = true := by
  cases m with
  | nil => rfl
  | cons y m =>
    simp only [memWf, Bool.and_eq_true, decide_eq_true_eq]
    exact ⟨hl y (by simp), h⟩

theorem mem_memWrite {m : Memory} {i : Nat} {b : Byte} {y : Nat × Byte} (h : y ∈ memWrite m i b) :
    y = (i, b) ∨ y ∈ m := by
  induction m with
  | nil => simpa [memWrite] using h
  | cons x m ih =>
    obtain ⟨a, z⟩ := x
    simp only [memWrite] at h
    split at h
    · simpa using h
    · split at h
      · rcases List.mem_cons.1 h with h | h
        · exact .inl h
        · exact .inr (List.mem_cons_of_mem _ h)
      · rcases List.mem_cons.1 h with h | h
        · exact .inr (by simp [h])
        · exact (ih h).imp id (List.mem_cons_of_mem _)

/-- A write keeps the canonical form. -/
theorem memWf_memWrite {m : Memory} (h : memWf m = true) (i : Nat) (b : Byte) :
    memWf (memWrite m i b) = true := by
  induction m with
  | nil => rfl
  | cons x m ih =>
    obtain ⟨a, z⟩ := x
    have hl := lt_of_memWf_cons h
    have ht := memWf_tail h
    simp only [memWrite]
    split
    · rename_i hi
      refine memWf_cons_of_lt h ?_
      intro y hy
      rcases List.mem_cons.1 hy with rfl | hy
      · exact hi
      · exact Nat.lt_trans hi (hl y hy)
    · split
      · rename_i h1 h2
        subst h2
        exact memWf_cons_of_lt ht hl
      · refine memWf_cons_of_lt (ih ht) ?_
        intro y hy
        rcases mem_memWrite hy with rfl | hy
        · show a < i
          omega
        · exact hl y hy

theorem memWf_memWriteN {m : Memory} (h : memWf m = true) (i : Nat) (bs : List Byte) :
    memWf (memWriteN m i bs) = true := by
  induction bs generalizing m i with
  | nil => exact h
  | cons b bs ih => exact ih (memWf_memWrite h i b) (i + 1)

theorem mem_memWriteN {m : Memory} {i : Nat} {bs : List Byte} {y : Nat × Byte} (h : y ∈ memWriteN m i bs) :
    (i ≤ y.1 ∧ y.1 < i + bs.length) ∨ y ∈ m := by
  induction bs generalizing m i with
  | nil => exact .inr h
  | cons b bs ih =>
    rcases ih h with h | h
    · exact .inl ⟨by omega, by simp; omega⟩
    · rcases mem_memWrite h with rfl | h
      · exact .inl ⟨Nat.le_refl _, by simp⟩
      · exact .inr h

/-- What a run of writes leaves: its own bytes at their addresses, everything else as it was. -/
theorem memRead_memWriteN (m : Memory) (i : Nat) (bs : List Byte) (j : Nat) :
    memRead (memWriteN m i bs) j = if i ≤ j ∧ j < i + bs.length then bs[j - i]? else memRead m j := by
  induction bs generalizing m i with
  | nil => simp [memWriteN, show ¬ (i ≤ j ∧ j < i) by omega]
  | cons b bs ih =>
    rw [memWriteN, ih]
    by_cases h : j = i
    · subst h
      simp
    · rw [memRead_memWrite_other _ _ _ _ h]
      by_cases h2 : i + 1 ≤ j ∧ j < i + 1 + bs.length
      · rw [if_pos h2, if_pos (by simp; omega)]
        obtain ⟨k, rfl⟩ : ∃ k, j = i + 1 + k := ⟨j - (i + 1), by omega⟩
        rw [show i + 1 + k - (i + 1) = k by omega, show i + 1 + k - i = k + 1 by omega]
        simp
      · rw [if_neg h2, if_neg (by simp; omega)]

theorem readByte_memWriteN (sp : Space) (ep : Nat) (m : Memory) (i : Nat) (bs : List Byte) (j : Nat) :
    readByte sp ep (memWriteN m i bs) j
      = if i ≤ j ∧ j < i + bs.length then bs.getD (j - i) 0#8 else readByte sp ep m j := by
  simp only [readByte, memRead_memWriteN]
  split
  · rename_i h
    rw [List.getElem?_eq_getElem (by omega), List.getD_eq_getElem _ _ (by omega)]
    rfl
  · rfl

@[simp] theorem memReadN_length (sp : Space) (ep : Nat) (m : Memory) (i n : Nat) :
    (memReadN sp ep m i n).length = n := by simp [memReadN]

theorem memReadN_getElem? (sp : Space) (ep : Nat) (m : Memory) (i n k : Nat) (h : k < n) :
    (memReadN sp ep m i n)[k]? = some (readByte sp ep m (i + k)) := by
  simp [memReadN, h]

theorem memReadN_succ (sp : Space) (ep : Nat) (m : Memory) (i n : Nat) :
    memReadN sp ep m i (n + 1) = memReadN sp ep m i n ++ [readByte sp ep m (i + n)] := by
  simp [memReadN, List.range_succ]

/-- A read of what was written, all of it, gives it back. -/
theorem memReadN_memWriteN (sp : Space) (ep : Nat) (m : Memory) (i : Nat) (bs : List Byte) :
    memReadN sp ep (memWriteN m i bs) i bs.length = bs := by
  apply List.ext_getElem?
  intro k
  by_cases h : k < bs.length
  · rw [memReadN_getElem? _ _ _ _ _ _ h, readByte_memWriteN, if_pos (by omega),
      List.getElem?_eq_getElem h, Nat.add_sub_cancel_left, List.getD_eq_getElem _ _ h]
  · rw [List.getElem?_eq_none (by simp; omega), List.getElem?_eq_none (by omega)]

/-- A read depends only on the bytes it reads. -/
theorem memReadN_congr {sp : Space} {ep : Nat} {m m' : Memory} {i n : Nat}
    (h : ∀ k, i ≤ k → k < i + n → memRead m k = memRead m' k) :
    memReadN sp ep m i n = memReadN sp ep m' i n := by
  apply List.ext_getElem?
  intro k
  by_cases hk : k < n
  · rw [memReadN_getElem? _ _ _ _ _ _ hk, memReadN_getElem? _ _ _ _ _ _ hk, readByte, readByte,
      h (i + k) (by omega) (by omega)]
  · rw [List.getElem?_eq_none (by simp; omega), List.getElem?_eq_none (by simp; omega)]

theorem memWriteN_append (m : Memory) (i : Nat) (a b : List Byte) :
    memWriteN m i (a ++ b) = memWriteN (memWriteN m i a) (i + a.length) b := by
  induction a generalizing m i with
  | nil => simp [memWriteN]
  | cons x a ih =>
    simp only [List.cons_append, memWriteN, ih, List.length_cons]
    congr 1
    omega

theorem memRead_eq_none_of_lt {m : Memory} {i : Nat} (h : ∀ y ∈ m, i < y.1) : memRead m i = none := by
  induction m with
  | nil => rfl
  | cons x m ih =>
    obtain ⟨a, b⟩ := x
    have := h (a, b) (by simp)
    rw [memRead, if_neg (by simp only at this; omega)]
    exact ih fun y hy => h y (List.mem_cons_of_mem _ hy)

/-- The canonical form makes equal memories equal data. -/
theorem memory_ext {m m' : Memory} (h : memWf m = true) (h' : memWf m' = true)
    (he : ∀ i, memRead m i = memRead m' i) : m = m' := by
  induction m generalizing m' with
  | nil =>
    cases m' with
    | nil => rfl
    | cons y m' =>
      obtain ⟨b, y⟩ := y
      have := he b
      simp [memRead] at this
  | cons x m ih =>
    obtain ⟨a, x⟩ := x
    cases m' with
    | nil =>
      have := he a
      simp [memRead] at this
    | cons y m' =>
      obtain ⟨b, y⟩ := y
      have hl := lt_of_memWf_cons h
      have hl' := lt_of_memWf_cons h'
      have ha := he a
      have hb := he b
      simp only [memRead, if_true] at ha hb
      rcases Nat.lt_trichotomy a b with hab | hab | hab
      · rw [if_neg (by omega), memRead_eq_none_of_lt fun z hz => Nat.lt_trans hab (hl' z hz)] at ha
        simp at ha
      · subst hab
        simp only [if_true, Option.some.injEq] at ha
        subst ha
        congr 1
        refine ih (memWf_tail h) (memWf_tail h') fun i => ?_
        by_cases hi : a = i
        · subst hi
          rw [memRead_eq_none_of_lt hl, memRead_eq_none_of_lt hl']
        · have := he i
          simpa [memRead, hi] using this
      · rw [if_neg (by omega), memRead_eq_none_of_lt fun z hz => Nat.lt_trans hab (hl z hz)] at hb
        simp at hb

/-- All that a write to a space can do. -/
theorem bufWrite_ok {c : Config} {sp : Space} {m m' : Memory} {i : Nat} {bs : List Byte}
    (h : bufWrite c sp m i bs = .ok m') : i + bs.length ≤ spaceSize c sp ∧ m' = memWriteN m i bs := by
  simp only [bufWrite] at h
  split at h
  · rename_i hle
    exact ⟨hle, by simpa using h.symm⟩
  · simp at h

/-- All that a read of a space can do. -/
theorem bufRead_ok {c : Config} {sp : Space} {ep : Nat} {m : Memory} {i n : Nat} {bs : List Byte}
    (h : bufRead c sp ep m i n = .ok bs) : i + n ≤ spaceSize c sp ∧ bs = memReadN sp ep m i n := by
  simp only [bufRead] at h
  split at h
  · rename_i hle
    exact ⟨hle, by simpa using h.symm⟩
  · simp at h

end Sys2Proof.Machine
end

