-- ==== Sys2Proof/Laws/State.lean ====
section
/-! SUPPORT. One lemma per field per named update of the state, each true by definition. -/

namespace Sys2Proof.Machine

variable (s : State) (r : RxRegs)

/-! ### `clearOut` -/

@[simp] theorem State.clearOut_cfg : (s.clearOut).cfg = s.cfg := rfl
@[simp] theorem State.clearOut_rx : (s.clearOut).rx = s.rx := rfl
@[simp] theorem State.clearOut_tx : (s.clearOut).tx = s.tx := rfl
@[simp] theorem State.clearOut_sc : (s.clearOut).sc = s.sc := rfl
@[simp] theorem State.clearOut_pipe : (s.clearOut).pipe = s.pipe := rfl
@[simp] theorem State.clearOut_held : (s.clearOut).held = s.held := rfl
@[simp] theorem State.clearOut_reqs : (s.clearOut).reqs = s.reqs := rfl
@[simp] theorem State.clearOut_sched : (s.clearOut).sched = s.sched := rfl
@[simp] theorem State.clearOut_out : (s.clearOut).out = [] := rfl

/-! ### `emit` -/

@[simp] theorem State.emit_cfg (o : PortOut) : (s.emit o).cfg = s.cfg := rfl
@[simp] theorem State.emit_rx (o : PortOut) : (s.emit o).rx = s.rx := rfl
@[simp] theorem State.emit_tx (o : PortOut) : (s.emit o).tx = s.tx := rfl
@[simp] theorem State.emit_sc (o : PortOut) : (s.emit o).sc = s.sc := rfl
@[simp] theorem State.emit_pipe (o : PortOut) : (s.emit o).pipe = s.pipe := rfl
@[simp] theorem State.emit_held (o : PortOut) : (s.emit o).held = s.held := rfl
@[simp] theorem State.emit_reqs (o : PortOut) : (s.emit o).reqs = s.reqs := rfl
@[simp] theorem State.emit_sched (o : PortOut) : (s.emit o).sched = s.sched := rfl
@[simp] theorem State.emit_out (o : PortOut) : (s.emit o).out = s.out ++ [o] := rfl

/-! ### `scPush` -/

@[simp] theorem State.scPush_cfg (l : Line) : (s.scPush l).cfg = s.cfg := rfl
@[simp] theorem State.scPush_rx (l : Line) : (s.scPush l).rx = s.rx := rfl
@[simp] theorem State.scPush_tx (l : Line) : (s.scPush l).tx = s.tx := rfl
@[simp] theorem State.scPush_sc (l : Line) : (s.scPush l).sc = s.sc ++ [l] := rfl
@[simp] theorem State.scPush_pipe (l : Line) : (s.scPush l).pipe = s.pipe := rfl
@[simp] theorem State.scPush_held (l : Line) : (s.scPush l).held = s.held := rfl
@[simp] theorem State.scPush_reqs (l : Line) : (s.scPush l).reqs = s.reqs := rfl
@[simp] theorem State.scPush_sched (l : Line) : (s.scPush l).sched = s.sched := rfl
@[simp] theorem State.scPush_out (l : Line) : (s.scPush l).out = s.out ++ [.scOut (wireLine l)] := rfl

/-! ### `setOutcome` -/

@[simp] theorem State.setOutcome_cfg (o : SendOutcome) : (s.setOutcome o).cfg = s.cfg := rfl
@[simp] theorem State.setOutcome_rx (o : SendOutcome) : (s.setOutcome o).rx = s.rx := rfl
@[simp] theorem State.setOutcome_tx (o : SendOutcome) : (s.setOutcome o).tx = { s.tx with lastOutcome := o } := rfl
@[simp] theorem State.setOutcome_sc (o : SendOutcome) : (s.setOutcome o).sc = s.sc := rfl
@[simp] theorem State.setOutcome_pipe (o : SendOutcome) : (s.setOutcome o).pipe = s.pipe := rfl
@[simp] theorem State.setOutcome_held (o : SendOutcome) : (s.setOutcome o).held = s.held := rfl
@[simp] theorem State.setOutcome_reqs (o : SendOutcome) : (s.setOutcome o).reqs = s.reqs := rfl
@[simp] theorem State.setOutcome_sched (o : SendOutcome) : (s.setOutcome o).sched = s.sched := rfl
@[simp] theorem State.setOutcome_out (o : SendOutcome) : (s.setOutcome o).out = s.out ++ [.outcome o] := rfl

/-! ### `msgClear` -/

@[simp] theorem msgClear_phase : (msgClear r).phase = r.phase := rfl
@[simp] theorem msgClear_mhist : (msgClear r).mhist = r.mhist := rfl
@[simp] theorem msgClear_nameBuf : (msgClear r).nameBuf = r.nameBuf := rfl
@[simp] theorem msgClear_nameLen : (msgClear r).nameLen = 0 := rfl
@[simp] theorem msgClear_nameId : (msgClear r).nameId = r.nameId := rfl
@[simp] theorem msgClear_lenAcc : (msgClear r).lenAcc = 0#32 := rfl
@[simp] theorem msgClear_lenCnt : (msgClear r).lenCnt = 0 := rfl
@[simp] theorem msgClear_plen : (msgClear r).plen = 0 := rfl
@[simp] theorem msgClear_payCnt : (msgClear r).payCnt = 0 := rfl
@[simp] theorem msgClear_pbuf : (msgClear r).pbuf = r.pbuf := rfl
@[simp] theorem msgClear_hwm : (msgClear r).hwm = r.hwm := rfl
@[simp] theorem msgClear_crcRun : (msgClear r).crcRun = crcInit := rfl
@[simp] theorem msgClear_crcAcc : (msgClear r).crcAcc = 0#32 := rfl
@[simp] theorem msgClear_crcCnt : (msgClear r).crcCnt = 0 := rfl
@[simp] theorem msgClear_rxq : (msgClear r).rxq = r.rxq := rfl
@[simp] theorem msgClear_acksOwed : (msgClear r).acksOwed = r.acksOwed := rfl
@[simp] theorem msgClear_decoding : (msgClear r).decoding = r.decoding := rfl
@[simp] theorem msgClear_epoch : (msgClear r).epoch = r.epoch := rfl

/-! ### `watchdogFire` -/

@[simp] theorem watchdogFire_cfg : (watchdogFire s).cfg = s.cfg := rfl
@[simp] theorem watchdogFire_rx : (watchdogFire s).rx = s.rx := rfl
@[simp] theorem watchdogFire_tx : (watchdogFire s).tx = { s.tx with txState := .fatal, wdArmed := false, lastOutcome := .wdFatal } := rfl
@[simp] theorem watchdogFire_sc : (watchdogFire s).sc = s.sc := rfl
@[simp] theorem watchdogFire_pipe : (watchdogFire s).pipe = s.pipe := rfl
@[simp] theorem watchdogFire_held : (watchdogFire s).held = s.held := rfl
@[simp] theorem watchdogFire_reqs : (watchdogFire s).reqs = s.reqs := rfl
@[simp] theorem watchdogFire_sched : (watchdogFire s).sched = s.sched := rfl
@[simp] theorem watchdogFire_out : (watchdogFire s).out = s.out ++ [.outcome .wdFatal] := rfl

/-! ### `ackOk` -/

@[simp] theorem ackOk_cfg : (ackOk s).cfg = s.cfg := rfl
@[simp] theorem ackOk_rx : (ackOk s).rx = s.rx := rfl
@[simp] theorem ackOk_tx : (ackOk s).tx = { s.tx with txState := .idle, wdArmed := false, lastOutcome := .ackOk } := rfl
@[simp] theorem ackOk_sc : (ackOk s).sc = s.sc := rfl
@[simp] theorem ackOk_pipe : (ackOk s).pipe = s.pipe := rfl
@[simp] theorem ackOk_held : (ackOk s).held = s.held := rfl
@[simp] theorem ackOk_reqs : (ackOk s).reqs = s.reqs := rfl
@[simp] theorem ackOk_sched : (ackOk s).sched = s.sched := rfl
@[simp] theorem ackOk_out : (ackOk s).out = s.out ++ [.outcome .ackOk] := rfl

/-! ### `ackError` -/

@[simp] theorem ackError_cfg : (ackError s).cfg = s.cfg := rfl
@[simp] theorem ackError_rx : (ackError s).rx = s.rx := rfl
@[simp] theorem ackError_tx : (ackError s).tx = { s.tx with txState := .idle, wdArmed := armedAfterWait s, lastOutcome := .ackError } := rfl
@[simp] theorem ackError_sc : (ackError s).sc = [] := rfl
@[simp] theorem ackError_pipe : (ackError s).pipe = s.pipe := rfl
@[simp] theorem ackError_held : (ackError s).held = s.held := rfl
@[simp] theorem ackError_reqs : (ackError s).reqs = s.reqs := rfl
@[simp] theorem ackError_sched : (ackError s).sched = s.sched := rfl
@[simp] theorem ackError_out : (ackError s).out = s.out ++ [.outcome .ackError] ++ [.scFlush] := rfl

/-! ### `ackTimeout` -/

@[simp] theorem ackTimeout_cfg : (ackTimeout s).cfg = s.cfg := rfl
@[simp] theorem ackTimeout_rx : (ackTimeout s).rx = s.rx := rfl
@[simp] theorem ackTimeout_tx : (ackTimeout s).tx = { s.tx with txState := .idle, wdArmed := armedAfterWait s, lastOutcome := .ackTimeout } := rfl
@[simp] theorem ackTimeout_sc : (ackTimeout s).sc = s.sc := rfl
@[simp] theorem ackTimeout_pipe : (ackTimeout s).pipe = s.pipe := rfl
@[simp] theorem ackTimeout_held : (ackTimeout s).held = s.held := rfl
@[simp] theorem ackTimeout_reqs : (ackTimeout s).reqs = s.reqs := rfl
@[simp] theorem ackTimeout_sched : (ackTimeout s).sched = s.sched := rfl
@[simp] theorem ackTimeout_out : (ackTimeout s).out = s.out ++ [.outcome .ackTimeout] := rfl

/-! ### `holdRequest` -/

@[simp] theorem holdRequest_cfg (cmd : Cmd) : (holdRequest cmd s).cfg = s.cfg := rfl
@[simp] theorem holdRequest_rx (cmd : Cmd) : (holdRequest cmd s).rx = s.rx := rfl
@[simp] theorem holdRequest_tx (cmd : Cmd) : (holdRequest cmd s).tx = s.tx := rfl
@[simp] theorem holdRequest_sc (cmd : Cmd) : (holdRequest cmd s).sc = s.sc := rfl
@[simp] theorem holdRequest_pipe (cmd : Cmd) : (holdRequest cmd s).pipe = s.pipe := rfl
@[simp] theorem holdRequest_held (cmd : Cmd) : (holdRequest cmd s).held = s.held ++ [cmd] := rfl
@[simp] theorem holdRequest_reqs (cmd : Cmd) : (holdRequest cmd s).reqs = s.reqs := rfl
@[simp] theorem holdRequest_sched (cmd : Cmd) : (holdRequest cmd s).sched = s.sched := rfl
@[simp] theorem holdRequest_out (cmd : Cmd) : (holdRequest cmd s).out = s.out ++ [.notAccepted] := rfl

/-! ### `feedTake` -/

@[simp] theorem feedTake_cfg (b : List Byte) : (feedTake b s).cfg = s.cfg := rfl
@[simp] theorem feedTake_rx (b : List Byte) : (feedTake b s).rx = { s.rx with rxq := s.rx.rxq ++ b.take (feedRoom b s) } := rfl
@[simp] theorem feedTake_tx (b : List Byte) : (feedTake b s).tx = s.tx := rfl
@[simp] theorem feedTake_sc (b : List Byte) : (feedTake b s).sc = s.sc := rfl
@[simp] theorem feedTake_pipe (b : List Byte) : (feedTake b s).pipe = s.pipe := rfl
@[simp] theorem feedTake_held (b : List Byte) : (feedTake b s).held = s.held := rfl
@[simp] theorem feedTake_reqs (b : List Byte) : (feedTake b s).reqs = s.reqs := rfl
@[simp] theorem feedTake_sched (b : List Byte) : (feedTake b s).sched = s.sched := rfl
@[simp] theorem feedTake_out (b : List Byte) : (feedTake b s).out = [.feedCount (feedRoom b s)] := rfl

/-! ### `pipeOffer` -/

@[simp] theorem pipeOffer_cfg (b : List Byte) : (pipeOffer b s).cfg = s.cfg := rfl
@[simp] theorem pipeOffer_rx (b : List Byte) : (pipeOffer b s).rx = { s.rx with rxq := s.rx.rxq ++ b.take (feedRoom b s) } := rfl
@[simp] theorem pipeOffer_tx (b : List Byte) : (pipeOffer b s).tx = s.tx := rfl
@[simp] theorem pipeOffer_sc (b : List Byte) : (pipeOffer b s).sc = s.sc := rfl
@[simp] theorem pipeOffer_pipe (b : List Byte) : (pipeOffer b s).pipe = some (b.drop (feedRoom b s)) := rfl
@[simp] theorem pipeOffer_held (b : List Byte) : (pipeOffer b s).held = s.held := rfl
@[simp] theorem pipeOffer_reqs (b : List Byte) : (pipeOffer b s).reqs = s.reqs := rfl
@[simp] theorem pipeOffer_sched (b : List Byte) : (pipeOffer b s).sched = s.sched := rfl
@[simp] theorem pipeOffer_out (b : List Byte) : (pipeOffer b s).out = [.feedCount (feedRoom b s)] := rfl

end Sys2Proof.Machine
end

