-- ==== Sys2Proof/Laws/Parser.lean ====
section
/-! SUPPORT. The parser on runs of bytes: what each phase does with the bytes of its field, and so what a
frame that arrives whole does (R112 to R122). -/

namespace Sys2Proof.Machine

/-- The registers after the bytes `u` since the last marker detection. -/
def RxRegs.seen (c : Config) (r : RxRegs) (u : List Byte) : RxRegs :=
  { r with mhist := lastN (c.marker.length - 1) u }

/-- A run of bytes no step of which emits an event or faults. -/
def silentRun (c : Config) : List Byte → RxRegs → Option RxRegs
  | [], r => some r
  | b :: bs, r =>
    match byteStep c b r with
    | .ok (r', none) => silentRun c bs r'
    | _ => none

theorem silentRun_append (c : Config) (a b : List Byte) (r : RxRegs) :
    silentRun c (a ++ b) r = (silentRun c a r).bind (silentRun c b) := by
  induction a generalizing r with
  | nil => rfl
  | cons x a ih =>
    simp only [List.cons_append, silentRun]
    split
    · exact ih _
    · rfl

/-- The next runs of a silent run compose. -/
theorem silentRun_append_of {c : Config} {a b : List Byte} {r r' : RxRegs} (h : silentRun c a r = some r') :
    silentRun c (a ++ b) r = silentRun c b r' := by rw [silentRun_append, h]; rfl

theorem runRx_append {c : Config} {a b : List Byte} {r r1 r2 : RxRegs} {e1 e2 : List Event}
    (h1 : runRx c a r = some (r1, e1)) (h2 : runRx c b r1 = some (r2, e2)) :
    runRx c (a ++ b) r = some (r2, e1 ++ e2) := by
  induction a generalizing r e1 with
  | nil =>
    simp only [runRx, Option.some.injEq, Prod.mk.injEq] at h1
    obtain ⟨rfl, rfl⟩ := h1
    simpa using h2
  | cons x a ih =>
    simp only [List.cons_append, runRx] at h1 ⊢
    split at h1
    · rename_i r' ev heq
      rw [Option.map_eq_some_iff] at h1
      obtain ⟨⟨y, es⟩, hy, hx⟩ := h1
      simp only [Prod.mk.injEq] at hx
      obtain ⟨rfl, rfl⟩ := hx
      rw [ih hy]
      simp
    · cases h1

/-- A silent run is a run without events. -/
theorem runRx_silent {c : Config} {a : List Byte} {r r' : RxRegs} (h : silentRun c a r = some r') :
    runRx c a r = some (r', []) := by
  induction a generalizing r with
  | nil =>
    simp only [silentRun, Option.some.injEq] at h
    simp [runRx, h]
  | cons b a ih =>
    simp only [silentRun] at h
    split at h
    · rename_i r1 heq
      simp [runRx, heq, ih h]
    · cases h

/-- One byte with its event. -/
theorem runRx_event {c : Config} {b : Byte} {r r' : RxRegs} {e : Event} (h : byteStep c b r = .ok (r', some e)) :
    runRx c [b] r = some (r', [e]) := by
  simp [runRx, h]

/-- All that the responder does (R45, R211): the event on its port, and a line for some errors. -/
theorem respond_eq (e : Event) (s : State) :
    respond e s = { s with sc := s.sc ++ responseLines s.cfg e, out := s.out ++ responsePorts s.cfg e } := by
  cases e with
  | frameOk _ => simp [respond, responseLines, responsePorts, State.emit]
  | err k => cases k <;> simp [respond, responseLines, responsePorts, State.emit, State.scPush]

@[simp] theorem respond_cfg (e : Event) (s : State) : (respond e s).cfg = s.cfg := by rw [respond_eq]
@[simp] theorem respond_rx (e : Event) (s : State) : (respond e s).rx = s.rx := by rw [respond_eq]
@[simp] theorem respond_tx (e : Event) (s : State) : (respond e s).tx = s.tx := by rw [respond_eq]
@[simp] theorem respond_held (e : Event) (s : State) : (respond e s).held = s.held := by rw [respond_eq]
@[simp] theorem respond_reqs (e : Event) (s : State) : (respond e s).reqs = s.reqs := by rw [respond_eq]
@[simp] theorem respond_pipe (e : Event) (s : State) : (respond e s).pipe = s.pipe := by rw [respond_eq]
@[simp] theorem respond_sched (e : Event) (s : State) : (respond e s).sched = s.sched := by rw [respond_eq]
@[simp] theorem respond_sc (e : Event) (s : State) : (respond e s).sc = s.sc ++ responseLines s.cfg e := by
  rw [respond_eq]
@[simp] theorem respond_out (e : Event) (s : State) : (respond e s).out = s.out ++ responsePorts s.cfg e := by
  rw [respond_eq]

/-- A byte that completes no marker goes to the rule of the phase (R112). -/
theorem byteStep_quiet {c : Config} {u : List Byte} {b : Byte} (r : RxRegs) (h : ¬ c.marker <:+ u ++ [b]) :
    byteStep c b (r.seen c u) =
      match r.phase with
      | .seekMarker => .ok (r.seen c (u ++ [b]), none)
      | .readName =>
        if b = 0#8 then nameEnd c (r.seen c (u ++ [b])) else nameByte c b (r.seen c (u ++ [b]))
      | .readLength => .ok (lengthByte c b (r.seen c (u ++ [b])))
      | .readPayload => payloadByte c b (r.seen c (u ++ [b]))
      | .readCrc => crcByte c b (r.seen c (u ++ [b])) := by
  have h1 : completesMarker c (lastN (c.marker.length - 1) u) b = false := by
    rw [Bool.eq_false_iff, Ne, completesMarker_iff]
    exact h
  simp only [byteStep, RxRegs.seen, nextMhist_of_not_completes h, h1, Bool.false_eq_true, if_false]
  all_goals cases r.phase <;> rfl

/-- In `SEEK_MARKER` every byte that completes no marker is discarded (R112). -/
theorem silentRun_seek {c : Config} {r : RxRegs} (hp : r.phase = .seekMarker) {u bs : List Byte}
    (h : Quiet c u bs) : silentRun c bs (r.seen c u) = some (r.seen c (u ++ bs)) := by
  induction bs generalizing u with
  | nil => simp [silentRun]
  | cons b bs ih =>
    obtain ⟨h1, h2⟩ := h.cons
    rw [silentRun, byteStep_quiet r h1, hp]
    simpa using ih h2

/-- Name bytes are appended (R115). -/
theorem silentRun_name {c : Config} {r : RxRegs} (hp : r.phase = .readName) {u bs : List Byte}
    (h : Quiet c u bs) (h0 : 0#8 ∉ bs) (hl : r.nameLen + bs.length ≤ c.nameMax) :
    silentRun c bs (r.seen c u) =
      some (({ r with nameBuf := memWriteN r.nameBuf r.nameLen bs,
                      nameLen := r.nameLen + bs.length } : RxRegs).seen c (u ++ bs)) := by
  induction bs generalizing u r with
  | nil => simp [silentRun, memWriteN]
  | cons b bs ih =>
    obtain ⟨h1, h2⟩ := h.cons
    simp only [List.mem_cons, not_or] at h0
    simp only [List.length_cons] at hl
    rw [silentRun, byteStep_quiet r h1, hp]
    have hw : bufWrite c .nameBuf r.nameBuf r.nameLen [b] = .ok (memWrite r.nameBuf r.nameLen b) := by
      rw [bufWrite, if_pos (by simp [spaceSize]; omega)]
      rfl
    simp only [Ne.symm h0.1, if_false, nameByte, RxRegs.seen, show ¬ r.nameLen = c.nameMax by omega, hw]
    have := ih (r := { r with nameBuf := memWrite r.nameBuf r.nameLen b, nameLen := r.nameLen + 1 })
      (u := u ++ [b]) hp h2 h0.2 (by simp; omega)
    simpa [RxRegs.seen, memWriteN, Nat.add_assoc, Nat.add_comm 1, hp] using this

/-- The `00` after a known name (R116). -/
theorem silentRun_nameEnd {c : Config} {r : RxRegs} (hp : r.phase = .readName) {u : List Byte}
    (h : Quiet c u [0#8]) (hl : r.nameLen ≤ c.nameMax) {id : Nat}
    (hi : nameIndex c (memReadN .nameBuf r.epoch r.nameBuf 0 r.nameLen) = some id) :
    silentRun c [0#8] (r.seen c u) =
      some (({ r with nameId := id, lenAcc := 0#32, lenCnt := 0, phase := .readLength } : RxRegs).seen c
        (u ++ [0#8])) := by
  have hr : bufRead c .nameBuf r.epoch r.nameBuf 0 r.nameLen
      = .ok (memReadN .nameBuf r.epoch r.nameBuf 0 r.nameLen) := by
    rw [bufRead, if_pos (by simpa [spaceSize] using hl)]
  rw [silentRun, byteStep_quiet r h.cons.1, hp]
  simp only [if_true, nameEnd, RxRegs.seen, hr, hi, silentRun]

/-- Four accumulated bytes are the little-endian word (R25, R60). -/
theorem accumulate_word (b0 b1 b2 b3 : Byte) :
    accumulate (accumulate (accumulate (accumulate 0#32 0 b0) 1 b1) 2 b2) 3 b3 = word4 b0 b1 b2 b3 := by
  have hge : ∀ (b : Byte) (k : Nat), ¬ k < 8 → b.getLsbD k = false := fun b k hk =>
    BitVec.getLsbD_of_ge b k (by omega)
  apply BitVec.eq_of_getLsbD_eq
  intro i hi
  simp only [accumulate, word4, BitVec.getLsbD_or, BitVec.getLsbD_shiftLeft, BitVec.getLsbD_setWidth,
    BitVec.getLsbD_append, BitVec.getLsbD_zero]
  by_cases h1 : i < 8
  · simp [h1, hi, show i < 16 by omega, show i < 24 by omega]
  · by_cases h2 : i < 16
    · simp [h1, h2, hi, hge _ _ h1, show i < 24 by omega, show i - 8 < 8 by omega, show i - 8 < 32 by omega]
    · by_cases h3 : i < 24
      · simp [h1, h2, h3, hi, hge _ _ h1, hge b1 (i - 8) (by omega), show ¬ i - 8 < 8 by omega,
          show i - 16 < 8 by omega, show i - 16 < 32 by omega, show i - 8 - 8 = i - 16 by omega]
      · simp [h1, h2, h3, hi, hge _ _ h1, hge b1 (i - 8) (by omega), hge b2 (i - 16) (by omega),
          show ¬ i - 8 < 8 by omega, show ¬ i - 8 - 8 < 8 by omega, show i - 24 < 32 by omega,
          show i - 8 - 8 - 8 = i - 24 by omega]

/-- One length byte but the fourth (R117). -/
theorem silentRun_lengthByte {c : Config} {r : RxRegs} (hp : r.phase = .readLength) (hc : r.lenCnt < 3)
    {u : List Byte} {b : Byte} (h : ¬ c.marker <:+ u ++ [b]) :
    silentRun c [b] (r.seen c u) =
      some (({ r with lenAcc := accumulate r.lenAcc r.lenCnt b, lenCnt := r.lenCnt + 1 } : RxRegs).seen c
        (u ++ [b])) := by
  rw [silentRun, byteStep_quiet r h, hp]
  simp only [lengthByte, RxRegs.seen, hc, if_true, silentRun, hp]

/-- The first three length bytes (R117). -/
theorem silentRun_length {c : Config} {r : RxRegs} (hp : r.phase = .readLength) (h1 : r.lenAcc = 0#32)
    (h2 : r.lenCnt = 0) {u : List Byte} {b0 b1 b2 : Byte} (h : Quiet c u [b0, b1, b2]) :
    silentRun c [b0, b1, b2] (r.seen c u) =
      some (({ r with lenAcc := accumulate (accumulate (accumulate 0#32 0 b0) 1 b1) 2 b2,
                      lenCnt := 3 } : RxRegs).seen c (u ++ [b0, b1, b2])) := by
  obtain ⟨q0, h⟩ := h.cons
  obtain ⟨q1, h⟩ := h.cons
  obtain ⟨q2, -⟩ := h.cons
  have e0 := silentRun_lengthByte (r := r) hp (by rw [h2]; decide) q0
  have e1 := silentRun_lengthByte (r := { r with lenAcc := accumulate r.lenAcc r.lenCnt b0, lenCnt := r.lenCnt + 1 })
    hp (by simp only [h2]; decide) q1
  have e2 := silentRun_lengthByte
    (r := { r with lenAcc := accumulate (accumulate r.lenAcc r.lenCnt b0) (r.lenCnt + 1) b1,
                   lenCnt := r.lenCnt + 1 + 1 }) hp (by simp only [h2]; decide) q2
  have e := (silentRun_append_of (b := [b1] ++ [b2]) e0).trans ((silentRun_append_of e1).trans e2)
  simpa [h1, h2, show (2 + 1 : Fin 4) = 3 from rfl] using e

/-- The fourth length byte (R118): oversize, then allocation, else the payload begins. -/
theorem byteStep_length {c : Config} {r : RxRegs} (hp : r.phase = .readLength) {b0 b1 b2 b3 : Byte}
    (h1 : r.lenAcc = accumulate (accumulate (accumulate 0#32 0 b0) 1 b1) 2 b2)
    (h2 : r.lenCnt = 3) {u : List Byte} (h : ¬ c.marker <:+ u ++ [b3]) :
    byteStep c b3 (r.seen c u) =
      .ok (if (word4 b0 b1 b2 b3).toNat > c.lenCap then raiseRxError .oversize (r.seen c (u ++ [b3]))
        else if (word4 b0 b1 b2 b3).toNat > c.payloadRamBytes then raiseRxError .alloc (r.seen c (u ++ [b3]))
        else
          (({ r with plen := (word4 b0 b1 b2 b3).toNat, payCnt := 0, crcRun := crcInit, crcAcc := 0#32,
                     crcCnt := 0, lenCnt := 0, hwm := max r.hwm (word4 b0 b1 b2 b3).toNat,
                     phase := if (word4 b0 b1 b2 b3).toNat = 0 then .readCrc else .readPayload } :
            RxRegs).seen c (u ++ [b3]), none)) := by
  rw [byteStep_quiet r h, hp]
  simp only [lengthByte, RxRegs.seen, h1, h2, show ¬ (3 : Fin 4) < 3 by decide, if_false,
    accumulate_word]

/-- Payload bytes are stored and pass the running CRC (R119). -/
theorem silentRun_payload {c : Config} {r : RxRegs} (hp : r.phase = .readPayload)
    (hr : r.plen ≤ c.payloadRamBytes) {u bs : List Byte} (h : Quiet c u bs) (ho : r.payCnt < r.plen)
    (hl : r.payCnt + bs.length ≤ r.plen) :
    silentRun c bs (r.seen c u) =
      some (({ r with pbuf := memWriteN r.pbuf r.payCnt bs, crcRun := crcFold r.crcRun bs,
                      payCnt := r.payCnt + bs.length,
                      phase := if r.payCnt + bs.length = r.plen then .readCrc else .readPayload } :
        RxRegs).seen c (u ++ bs)) := by
  induction bs generalizing u r with
  | nil => simp [silentRun, memWriteN, crcFold, show r.payCnt ≠ r.plen by omega, ← hp]
  | cons b bs ih =>
    obtain ⟨h1, h2⟩ := h.cons
    simp only [List.length_cons] at hl
    have hw : bufWrite c .pbuf r.pbuf r.payCnt [b] = .ok (memWrite r.pbuf r.payCnt b) := by
      rw [bufWrite, if_pos (by simp [spaceSize]; omega)]
      rfl
    rw [silentRun, byteStep_quiet r h1, hp]
    simp only [payloadByte, RxRegs.seen, hw]
    by_cases hend : r.payCnt + 1 = r.plen
    · have : bs = [] := List.length_eq_zero_iff.1 (by omega)
      subst this
      simp [silentRun, hend, memWriteN, crcFold]
    · have := ih (r := { r with pbuf := memWrite r.pbuf r.payCnt b, crcRun := crcUpdate r.crcRun b,
                                payCnt := r.payCnt + 1 })
        (u := u ++ [b]) hp hr h2 (by simp; omega) (by simp; omega)
      simpa [RxRegs.seen, memWriteN, crcFold, Nat.add_assoc, Nat.add_comm 1, hp, hend] using this

/-- One CRC byte but the fourth (R120). -/
theorem silentRun_crcByte {c : Config} {r : RxRegs} (hp : r.phase = .readCrc) (hc : r.crcCnt < 3)
    {u : List Byte} {b : Byte} (h : ¬ c.marker <:+ u ++ [b]) :
    silentRun c [b] (r.seen c u) =
      some (({ r with crcAcc := accumulate r.crcAcc r.crcCnt b, crcCnt := r.crcCnt + 1 } : RxRegs).seen c
        (u ++ [b])) := by
  rw [silentRun, byteStep_quiet r h, hp]
  simp only [crcByte, RxRegs.seen, hc, if_true, silentRun, hp]

/-- The first three CRC bytes (R120). -/
theorem silentRun_crc {c : Config} {r : RxRegs} (hp : r.phase = .readCrc) (h1 : r.crcAcc = 0#32)
    (h2 : r.crcCnt = 0) {u : List Byte} {b0 b1 b2 : Byte} (h : Quiet c u [b0, b1, b2]) :
    silentRun c [b0, b1, b2] (r.seen c u) =
      some (({ r with crcAcc := accumulate (accumulate (accumulate 0#32 0 b0) 1 b1) 2 b2,
                      crcCnt := 3 } : RxRegs).seen c (u ++ [b0, b1, b2])) := by
  obtain ⟨q0, h⟩ := h.cons
  obtain ⟨q1, h⟩ := h.cons
  obtain ⟨q2, -⟩ := h.cons
  have e0 := silentRun_crcByte (r := r) hp (by rw [h2]; decide) q0
  have e1 := silentRun_crcByte (r := { r with crcAcc := accumulate r.crcAcc r.crcCnt b0, crcCnt := r.crcCnt + 1 })
    hp (by simp only [h2]; decide) q1
  have e2 := silentRun_crcByte
    (r := { r with crcAcc := accumulate (accumulate r.crcAcc r.crcCnt b0) (r.crcCnt + 1) b1,
                   crcCnt := r.crcCnt + 1 + 1 }) hp (by simp only [h2]; decide) q2
  have e := (silentRun_append_of (b := [b1] ++ [b2]) e0).trans ((silentRun_append_of e1).trans e2)
  simpa [h1, h2, show (2 + 1 : Fin 4) = 3 from rfl] using e

end Sys2Proof.Machine
end

