-- ==== Sys2Proof/Laws/Frame.lean ====
section
/-! SUPPORT. A frame that arrives whole, from `SEEK_MARKER`: its one event, and what it leaves (R122, R189,
R237). -/

namespace Sys2Proof.Machine

/-! ### The name table (R5, R88, R89) -/

theorem nameTable_legal (c : Config) : (∀ e ∈ c.nameTable, e.name.length ≤ c.nameMax ∧ 0#8 ∉ e.name)
    ∧ (c.nameTable.map (·.name)).Nodup := by
  have h := c.isLegal
  simp only [Params.legal, Bool.and_eq_true, decide_eq_true_eq, List.all_eq_true, Bool.not_eq_true',
    List.contains_eq_mem, decide_eq_false_iff_not] at h
  exact ⟨fun e he => ⟨(h.1.1.1.1.1.1.1.1.1.1.2 e he).1.2, (h.1.1.1.1.1.1.1.1.1.1.2 e he).2⟩,
    h.1.1.1.1.1.1.1.1.1.2⟩

theorem spelling_eq {c : Config} {id : Nat} (h : id < c.nameTable.length) :
    spelling c id = (c.nameTable[id]).name := by
  simp [spelling, List.getElem?_eq_getElem h]

theorem spelling_length_le {c : Config} {id : Nat} (h : id < c.nameTable.length) :
    (spelling c id).length ≤ c.nameMax := by
  rw [spelling_eq h]
  exact ((nameTable_legal c).1 _ (List.getElem_mem h)).1

theorem spelling_no_zero {c : Config} {id : Nat} (h : id < c.nameTable.length) : 0#8 ∉ spelling c id := by
  rw [spelling_eq h]
  exact ((nameTable_legal c).1 _ (List.getElem_mem h)).2

/-- Each entry's name is found at its own index: no two entries are equal (R5, R89). -/
theorem nameIndex_spelling {c : Config} {id : Nat} (h : id < c.nameTable.length) :
    nameIndex c (spelling c id) = some id := by
  rw [nameIndex, List.findIdx?_eq_some_iff_getElem]
  refine ⟨h, by simp [spelling_eq h], ?_⟩
  intro j hj
  have hn := (nameTable_legal c).2
  rw [List.nodup_iff_injective_get] at hn
  simp only [spelling_eq h, Bool.not_eq_true, beq_eq_false_iff_ne, ne_eq]
  intro he
  have := @hn ⟨j, by simp; omega⟩ ⟨id, by simpa using h⟩ (by simpa using he)
  simp at this
  omega

/-! ### The marker (R113, R114) -/

/-- A marker from `SEEK_MARKER` starts a frame, whatever bytes stand before it. -/
theorem silentRun_marker {c : Config} (hb : borderFree c.marker = true) {r : RxRegs}
    (hp : r.phase = .seekMarker) (hm : r.mhist.length < c.marker.length) :
    silentRun c c.marker r = some ({ msgClear r with phase := .readName, mhist := [] } : RxRegs) := by
  have hpos := marker_pos c
  have hne : c.marker ≠ [] := List.length_pos_iff.1 hpos
  have hr : r = r.seen c r.mhist := by
    rw [RxRegs.seen, lastN_of_length_le (by omega)]
  have hsplit : c.marker = c.marker.take (c.marker.length - 1) ++ [c.marker.getLast hne] := by
    rw [← List.dropLast_eq_take, List.dropLast_concat_getLast]
  have h1 := silentRun_seek hp (quiet_marker_prefix hb r.mhist)
  rw [← hr] at h1
  have hc : completesMarker c
      (lastN (c.marker.length - 1) (r.mhist ++ c.marker.take (c.marker.length - 1)))
      (c.marker.getLast hne) = true := by
    rw [completesMarker_iff, List.append_assoc, ← hsplit]
    exact List.suffix_append _ _
  conv => lhs; arg 2; rw [hsplit]
  rw [silentRun_append_of h1]
  simp only [silentRun, byteStep, RxRegs.seen, hc, if_true, markerDetected, hp, nextMhist_of_completes hc]
  simp [msgClear]

/-! ### The whole frame -/

/-- The registers after marker, name, `00` and three length bytes. -/
def headRx (c : Config) (id : Nat) (l : Word) (r : RxRegs) : RxRegs :=
  { msgClear r with
    phase := .readLength
    mhist := lastN (c.marker.length - 1) (spelling c id ++ [0#8] ++ (le32 l).take 3)
    nameBuf := memWriteN r.nameBuf 0 (spelling c id)
    nameLen := (spelling c id).length
    nameId := id
    lenAcc := accumulate (accumulate (accumulate 0#32 0 (l.extractLsb' 0 8)) 1 (l.extractLsb' 8 8)) 2
      (l.extractLsb' 16 8)
    lenCnt := 3 }

/-- From the first name byte to the third length byte (R115 to R117). -/
theorem silentRun_head {c : Config} {r : RxRegs} {id : Nat}
    (hk : id < c.nameTable.length) {l : Word}
    (hq : Quiet c [] (spelling c id ++ [0#8] ++ (le32 l).take 3)) :
    silentRun c (spelling c id ++ [0#8] ++ (le32 l).take 3)
      { msgClear r with phase := .readName, mhist := [] } = some (headRx c id l r) := by
  obtain ⟨q01, q2⟩ := hq.append
  obtain ⟨q0, q1⟩ := q01.append
  have e0 := silentRun_name (r := { msgClear r with phase := .readName, mhist := [] }) rfl q0
    (spelling_no_zero hk) (by simpa using spelling_length_le hk)
  have e1 := silentRun_nameEnd
    (r := { msgClear r with
      phase := .readName
      mhist := []
      nameBuf := memWriteN r.nameBuf 0 (spelling c id)
      nameLen := (spelling c id).length })
    rfl q1 (spelling_length_le hk) (id := id) (by
      simp only [memReadN_memWriteN]
      exact nameIndex_spelling hk)
  have e2 := silentRun_length
    (r := { msgClear r with
      phase := .readLength
      mhist := []
      nameBuf := memWriteN r.nameBuf 0 (spelling c id)
      nameLen := (spelling c id).length
      nameId := id
      lenAcc := 0#32
      lenCnt := 0 }) rfl rfl rfl (u := spelling c id ++ [0#8])
    (b0 := l.extractLsb' 0 8) (b1 := l.extractLsb' 8 8) (b2 := l.extractLsb' 16 8) (by simpa [le32] using q2)
  simp only [RxRegs.seen, msgClear, Nat.zero_add, List.nil_append, lastN, List.length_nil, Nat.zero_sub,
    List.drop_nil] at e0 e1 e2
  rw [List.append_assoc]
  simp only [msgClear]
  rw [silentRun_append_of e0, silentRun_append_of e1]
  simpa [headRx, msgClear, le32, lastN] using e2

/-- The frame's bytes after its marker (R80). -/
theorem frameBytes_drop (c : Config) (id : Nat) (payload : List Byte) (crc : Word) :
    (frameBytes c id payload crc).drop c.marker.length =
      spelling c id ++ [0#8] ++ le32 (BitVec.ofNat 32 payload.length) ++ payload ++ le32 crc := by
  simp [frameBytes, List.append_assoc]

/-- The registers when the payload is stored, and three CRC bytes have come. -/
def tailRx (c : Config) (id : Nat) (payload : List Byte) (crc : Word) (r : RxRegs) : RxRegs :=
  { headRx c id (BitVec.ofNat 32 payload.length) r with
    phase := .readCrc
    mhist := lastN (c.marker.length - 1)
      (spelling c id ++ [0#8] ++ le32 (BitVec.ofNat 32 payload.length) ++ payload ++ (le32 crc).take 3)
    lenCnt := 0
    plen := payload.length
    payCnt := payload.length
    pbuf := memWriteN r.pbuf 0 payload
    hwm := max r.hwm payload.length
    crcRun := crcFold crcInit payload
    crcAcc := accumulate (accumulate (accumulate 0#32 0 (crc.extractLsb' 0 8)) 1 (crc.extractLsb' 8 8)) 2
      (crc.extractLsb' 16 8)
    crcCnt := 3 }

/-- From the fourth length byte to the third CRC byte (R118 to R120). -/
theorem silentRun_tail {c : Config} {r : RxRegs} {id : Nat} {payload : List Byte} {crc : Word}
    (hl : payload.length ≤ c.payloadRamBytes) (hc : ¬ payload.length > c.lenCap) (hf : payload.length < 2 ^ 32)
    (hq : Quiet c [] (spelling c id ++ [0#8] ++ le32 (BitVec.ofNat 32 payload.length) ++ payload
      ++ (le32 crc).take 3)) :
    silentRun c ([(BitVec.ofNat 32 payload.length).extractLsb' 24 8] ++ (payload ++ (le32 crc).take 3))
      (headRx c id (BitVec.ofNat 32 payload.length) r) = some (tailRx c id payload crc r) := by
  obtain ⟨q01, q2⟩ := hq.append
  obtain ⟨q0, q1⟩ := q01.append
  have hsp : spelling c id ++ [0#8] ++ le32 (BitVec.ofNat 32 payload.length)
      = spelling c id ++ [0#8] ++ (le32 (BitVec.ofNat 32 payload.length)).take 3
        ++ [(BitVec.ofNat 32 payload.length).extractLsb' 24 8] := by
    simp [le32]
  have hlast : ¬ c.marker <:+ spelling c id ++ [0#8] ++ (le32 (BitVec.ofNat 32 payload.length)).take 3
      ++ [(BitVec.ofNat 32 payload.length).extractLsb' 24 8] := by
    rw [← hsp]
    exact q0 _ (List.prefix_refl _) (by simp)
  have hn : (BitVec.ofNat 32 payload.length).toNat = payload.length := by
    rw [BitVec.toNat_ofNat, Nat.mod_eq_of_lt hf]
  have e0 := byteStep_length (r := headRx c id (BitVec.ofNat 32 payload.length) r) rfl (b3 :=
    (BitVec.ofNat 32 payload.length).extractLsb' 24 8) rfl rfl hlast
  rw [word4_extract, hn, if_neg hc, if_neg (by omega), ← hsp] at e0
  have hs : (headRx c id (BitVec.ofNat 32 payload.length) r).seen c
      (spelling c id ++ [0#8] ++ (le32 (BitVec.ofNat 32 payload.length)).take 3)
      = headRx c id (BitVec.ofNat 32 payload.length) r := rfl
  rw [hs] at e0
  rw [List.singleton_append, silentRun, e0]
  have e2 := silentRun_crc (c := c)
    (r := { headRx c id (BitVec.ofNat 32 payload.length) r with
      phase := .readCrc
      lenCnt := 0
      plen := payload.length
      payCnt := payload.length
      pbuf := memWriteN r.pbuf 0 payload
      hwm := max r.hwm payload.length
      crcRun := crcFold crcInit payload
      crcAcc := 0#32
      crcCnt := 0 }) rfl rfl rfl
    (u := spelling c id ++ [0#8] ++ le32 (BitVec.ofNat 32 payload.length) ++ payload)
    (b0 := crc.extractLsb' 0 8) (b1 := crc.extractLsb' 8 8) (b2 := crc.extractLsb' 16 8)
    (by simpa [le32] using q2)
  by_cases h0 : payload.length = 0
  · have hp0 : payload = [] := List.length_eq_zero_iff.1 h0
    subst hp0
    simpa [RxRegs.seen, headRx, tailRx, msgClear, memWriteN, crcFold, le32] using e2
  · have e1 := silentRun_payload (c := c)
      (r := { headRx c id (BitVec.ofNat 32 payload.length) r with
        phase := .readPayload
        lenCnt := 0
        plen := payload.length
        payCnt := 0
        hwm := max r.hwm payload.length
        crcRun := crcInit
        crcAcc := 0#32
        crcCnt := 0 }) rfl hl (u := spelling c id ++ [0#8] ++ le32 (BitVec.ofNat 32 payload.length)) q1
      (by simp only; omega) (by simp)
    simp only [Nat.zero_add, if_true] at e1
    simp only [h0, if_false]
    refine (silentRun_append_of (b := (le32 crc).take 3) e1).trans ?_
    simpa [RxRegs.seen, headRx, tailRx, msgClear, le32] using e2

/-- The parser's bytes after the payload are discarded where the length was refused (R235). -/
theorem silentRun_discard {c : Config} {r : RxRegs} {u bs : List Byte} (h : Quiet c u bs) (e : RxError) :
    silentRun c bs (raiseRxError e (r.seen c u)).1
      = some { (raiseRxError e r).1 with mhist := lastN (c.marker.length - 1) (u ++ bs) } :=
  silentRun_seek (r := (raiseRxError e r).1) rfl h

/-- The last CRC byte (R121), on a payload that stands in PBUF. -/
theorem byteStep_lastCrc {c : Config} {r : RxRegs} {id : Nat} {payload : List Byte} {crc : Word}
    (hk : id < c.nameTable.length) (hl : payload.length ≤ c.payloadRamBytes) (hc : ¬ payload.length > c.lenCap)
    (hq : ¬ c.marker <:+ spelling c id ++ [0#8] ++ le32 (BitVec.ofNat 32 payload.length) ++ payload
      ++ le32 crc) :
    byteStep c (crc.extractLsb' 24 8) (tailRx c id payload crc r)
      = .ok (frameRx c id payload crc (frameVerdict c id payload crc) r,
          some (frameVerdict c id payload crc)) := by
  have hsp : spelling c id ++ [0#8] ++ le32 (BitVec.ofNat 32 payload.length) ++ payload ++ le32 crc
      = spelling c id ++ [0#8] ++ le32 (BitVec.ofNat 32 payload.length) ++ payload ++ (le32 crc).take 3
        ++ [crc.extractLsb' 24 8] := by
    simp [le32]
  have hs : (tailRx c id payload crc r).seen c (spelling c id ++ [0#8]
      ++ le32 (BitVec.ofNat 32 payload.length) ++ payload ++ (le32 crc).take 3)
      = tailRx c id payload crc r := rfl
  rw [hsp] at hq
  rw [← hs, byteStep_quiet _ hq]
  have hr : bufRead c .pbuf r.epoch (memWriteN r.pbuf 0 payload) 0 payload.length = .ok payload := by
    rw [bufRead, if_pos (by simpa [spaceSize] using hl), memReadN_memWriteN]
  have hcrc : crcFold crcInit payload ^^^ 0xFFFFFFFF#32 = crc32 payload := rfl
  simp only [tailRx, RxRegs.seen, crcByte, show ¬ (3 : Fin 4) < 3 by decide, if_false, accumulate_word,
    word4_extract, hcrc, headRx, msgClear_epoch, hr, List.getElem?_eq_getElem hk]
  rw [← hsp]
  by_cases h : crc = crc32 payload
  · simp only [h, ne_eq, not_true_eq_false, if_false]
    cases hd : subDecode c.trailingPolicy id c.nameTable[id].cls payload with
    | none =>
      simp [frameVerdict, hc, hd, List.getElem?_eq_getElem hk, raiseRxError, frameRx, msgClear,
        payloadStored, frameBytes_drop, Nat.not_lt.2 hl]
    | some cmd =>
      simp [frameVerdict, hc, hd, List.getElem?_eq_getElem hk, frameRx, msgClear, payloadStored,
        frameBytes_drop, Nat.not_lt.2 hl]
  · simp [h, frameVerdict, hc, raiseRxError, frameRx, msgClear, payloadStored, frameBytes_drop,
      Nat.not_lt.2 hl]

/-- The bytes of a frame after its marker, the name just begun, give its one event (R122, R237). -/
theorem runRx_frameBody {c : Config} {r : RxRegs} {id : Nat} {payload : List Byte} {crc : Word}
    (hk : id < c.nameTable.length) (hf : payload.length < 2 ^ 32)
    (hfree : markerFree c ((frameBytes c id payload crc).drop c.marker.length)) :
    runRx c ((frameBytes c id payload crc).drop c.marker.length)
      { msgClear r with phase := .readName, mhist := [] }
      = some (frameRx c id payload crc (frameVerdict c id payload crc) r,
          [frameVerdict c id payload crc]) := by
  have hq := quiet_of_markerFree hfree
  rw [frameBytes_drop] at hq ⊢
  have hn : (BitVec.ofNat 32 payload.length).toNat = payload.length := by
    rw [BitVec.toNat_ofNat, Nat.mod_eq_of_lt hf]
  generalize hL : BitVec.ofNat 32 payload.length = l at hq hn ⊢
  have hql : spelling c id ++ [0#8] ++ le32 l ++ payload ++ le32 crc
      = spelling c id ++ [0#8] ++ (le32 l).take 3 ++ [l.extractLsb' 24 8] ++ (payload ++ le32 crc) := by
    simp [le32]
  have hq' := hq
  rw [hql] at hq'
  obtain ⟨q012, q3⟩ := hq'.append
  obtain ⟨q01, q2⟩ := q012.append
  simp only [List.nil_append] at q2 q3
  have eh := runRx_silent (silentRun_head (r := r) hk q01)
  by_cases hc : payload.length > c.lenCap
  · have e0 := byteStep_length (r := headRx c id l r) rfl rfl rfl (b3 := l.extractLsb' 24 8) q2.cons.1
    rw [word4_extract, hn, if_pos hc] at e0
    have e1 := runRx_silent (silentRun_discard (r := headRx c id l r) q3 .oversize)
    have hv : frameVerdict c id payload crc = .err .oversize := by simp [frameVerdict, hc]
    rw [hql, runRx_append (runRx_append eh (runRx_event (e := .err .oversize) e0)) e1, hv]
    simp [raiseRxError, msgClear, frameRx, payloadStored, frameBytes_drop, hL, le32, headRx]
  · by_cases ha : payload.length > c.payloadRamBytes
    · have e0 := byteStep_length (r := headRx c id l r) rfl rfl rfl (b3 := l.extractLsb' 24 8) q2.cons.1
      rw [word4_extract, hn, if_neg hc, if_pos ha] at e0
      have e1 := runRx_silent (silentRun_discard (r := headRx c id l r) q3 .alloc)
      have hv : frameVerdict c id payload crc = .err .alloc := by simp [frameVerdict, hc, ha]
      rw [hql, runRx_append (runRx_append eh (runRx_event (e := .err .alloc) e0)) e1, hv]
      simp [raiseRxError, msgClear, frameRx, payloadStored, frameBytes_drop, hL, le32, headRx]
    · subst hL
      have hsplit : spelling c id ++ [0#8] ++ le32 (BitVec.ofNat 32 payload.length) ++ payload ++ le32 crc
          = spelling c id ++ [0#8] ++ le32 (BitVec.ofNat 32 payload.length) ++ payload
            ++ (le32 crc).take 3 ++ [crc.extractLsb' 24 8] := by
        simp [le32]
      have hqt := hq
      rw [hsplit] at hqt
      have e1 := runRx_silent (silentRun_tail (r := r) (Nat.not_lt.1 ha) hc hf hqt.append.1)
      have e2 := runRx_event (byteStep_lastCrc (r := r) hk (Nat.not_lt.1 ha) hc (hq _ (List.prefix_refl _) (by simp)))
      have e := runRx_append (runRx_append eh e1) e2
      simpa [le32] using e

/-- A frame that arrives whole, from `SEEK_MARKER`, gives its one event (R122, R189, R237). -/
theorem runRx_frame {c : Config} {r : RxRegs} {id : Nat} {payload : List Byte} {crc : Word}
    (hb : borderFree c.marker = true) (hp : r.phase = .seekMarker)
    (hm : r.mhist.length < c.marker.length) (hk : id < c.nameTable.length) (hf : payload.length < 2 ^ 32)
    (hfree : markerFree c ((frameBytes c id payload crc).drop c.marker.length)) :
    runRx c (frameBytes c id payload crc) r
      = some (frameRx c id payload crc (frameVerdict c id payload crc) r,
          [frameVerdict c id payload crc]) := by
  have e := runRx_append (runRx_silent (silentRun_marker hb hp hm)) (runRx_frameBody (r := r) hk hf hfree)
  have hd : c.marker ++ (frameBytes c id payload crc).drop c.marker.length = frameBytes c id payload crc := by
    rw [frameBytes_drop]
    simp [frameBytes]
  rw [hd] at e
  simpa using e

end Sys2Proof.Machine
end

