-- ==== Sys2Proof/Laws/Layout.lean ====
section
/-! SUPPORT. Fields and elements of a payload (R90, R150, R183): what the encoder writes is what the
sub-decoder reads, and what it reads is what stood there. -/

namespace Sys2Proof.Machine

@[simp] theorem flatMap_le32_length (ws : List Word) : (ws.flatMap le32).length = 4 * ws.length := by
  induction ws with
  | nil => rfl
  | cons w ws ih => simp [ih]; omega

@[simp] theorem wordsAt_length (p : List Byte) (off n : Nat) : (wordsAt p off n).length = n := by
  simp [wordsAt]

@[simp] theorem pairsAt_length (p : List Byte) (off n : Nat) : (pairsAt p off n).length = n := by
  simp [pairsAt]

theorem wordsAt_succ (p : List Byte) (off n : Nat) :
    wordsAt p off (n + 1) = u32le p off :: wordsAt p (off + 4) n := by
  simp only [wordsAt, List.range_succ_eq_map, List.map_cons, List.map_map, Nat.mul_zero, Nat.add_zero]
  congr 1
  apply List.map_congr_left
  intro j _
  show u32le p (off + 4 * (j + 1)) = u32le p (off + 4 + 4 * j)
  congr 1
  omega

theorem pairsAt_succ (p : List Byte) (off n : Nat) :
    pairsAt p off (n + 1) = .pair (u32le p off) (u32le p (off + 4)) :: pairsAt p (off + 8) n := by
  simp only [pairsAt, List.range_succ_eq_map, List.map_cons, List.map_map, Nat.mul_zero, Nat.add_zero]
  congr 1
  apply List.map_congr_left
  intro j _
  show Elem.pair (u32le p (off + 8 * (j + 1))) (u32le p (off + 4 + 8 * (j + 1)))
    = .pair (u32le p (off + 8 + 8 * j)) (u32le p (off + 8 + 4 + 8 * j))
  congr 2 <;> omega

/-- Written fields read back, wherever they stand. -/
theorem wordsAt_written (a : List Byte) (ws : List Word) (rest : List Byte) :
    wordsAt (a ++ ws.flatMap le32 ++ rest) a.length ws.length = ws := by
  induction ws generalizing a with
  | nil => rfl
  | cons w ws ih =>
    rw [List.length_cons, wordsAt_succ]
    have h1 : a ++ (w :: ws).flatMap le32 ++ rest = a ++ le32 w ++ (ws.flatMap le32 ++ rest) := by simp
    have h2 : a ++ (w :: ws).flatMap le32 ++ rest = (a ++ le32 w) ++ ws.flatMap le32 ++ rest := by simp
    have h3 := ih (a ++ le32 w)
    rw [List.length_append, le32_length] at h3
    congr 1
    · rw [h1, u32le_append_le32]
    · rw [h2, h3]

/-- Written pairs read back, count first. -/
theorem pairsAt_written (a : List Byte) (rs : List (Word × Word)) (rest : List Byte) :
    pairsAt (a ++ (rs.flatMap fun r => le32 r.1 ++ le32 r.2) ++ rest) a.length rs.length
      = rs.map fun r => .pair r.1 r.2 := by
  induction rs generalizing a with
  | nil => rfl
  | cons r rs ih =>
    rw [List.length_cons, pairsAt_succ]
    have h1 : a ++ ((r :: rs).flatMap fun r => le32 r.1 ++ le32 r.2) ++ rest
        = a ++ le32 r.1 ++ (le32 r.2 ++ ((rs.flatMap fun r => le32 r.1 ++ le32 r.2) ++ rest)) := by simp
    have h2 : a ++ ((r :: rs).flatMap fun r => le32 r.1 ++ le32 r.2) ++ rest
        = (a ++ le32 r.1) ++ le32 r.2 ++ ((rs.flatMap fun r => le32 r.1 ++ le32 r.2) ++ rest) := by simp
    have h3 : a ++ ((r :: rs).flatMap fun r => le32 r.1 ++ le32 r.2) ++ rest
        = (a ++ le32 r.1 ++ le32 r.2) ++ (rs.flatMap fun r => le32 r.1 ++ le32 r.2) ++ rest := by simp
    have h4 := ih (a ++ le32 r.1 ++ le32 r.2)
    have h5 := u32le_append_le32 (a ++ le32 r.1) r.2 ((rs.flatMap fun r => le32 r.1 ++ le32 r.2) ++ rest)
    simp only [List.length_append, le32_length, Nat.add_assoc, Nat.reduceAdd] at h4 h5
    rw [List.map_cons]
    congr 1
    · congr 1
      · rw [h1, u32le_append_le32]
      · rw [h2, h5]
    · rw [h3, h4]

/-- Four bytes that stand in a payload are the field read there. -/
theorem le32_u32le {p : List Byte} {off : Nat} (h : off + 4 ≤ p.length) :
    le32 (u32le p off) = (p.drop off).take 4 := by
  rw [u32le, le32_word4]
  apply List.ext_getElem?
  intro k
  have hg : ∀ j, j < 4 → (p.drop off)[j]? = some (p.getD (off + j) 0#8) := by
    intro j hj
    rw [List.getElem?_drop, List.getElem?_eq_getElem (by omega), List.getD_eq_getElem _ _ (by omega)]
  by_cases hk : k < 4
  · rw [List.getElem?_take_of_lt hk, hg k hk]
    match k, hk with
    | 0, _ => rfl
    | 1, _ => rfl
    | 2, _ => rfl
    | 3, _ => rfl
  · rw [List.getElem?_eq_none (by simp; omega), List.getElem?_eq_none (by simp; omega)]

/-- The bytes of the fields read are those that stood there. -/
theorem flatMap_wordsAt {p : List Byte} {off n : Nat} (h : off + 4 * n ≤ p.length) :
    (wordsAt p off n).flatMap le32 = (p.drop off).take (4 * n) := by
  induction n generalizing off with
  | zero => simp [wordsAt]
  | succ n ih =>
    rw [wordsAt_succ, List.flatMap_cons, ih (by omega), le32_u32le (by omega),
      show 4 * (n + 1) = 4 + 4 * n by omega, List.take_add, List.drop_drop]

/-- The bytes of the pairs read are those that stood there. -/
theorem flatMap_pairsAt {p : List Byte} {off n : Nat} (h : off + 8 * n ≤ p.length) :
    (pairsAt p off n).flatMap elemBytes = (p.drop off).take (8 * n) := by
  induction n generalizing off with
  | zero => simp [pairsAt]
  | succ n ih =>
    rw [pairsAt_succ, List.flatMap_cons, ih (by omega), elemBytes, le32_u32le (by omega),
      le32_u32le (by omega), show 8 * (n + 1) = 8 + 8 * n by omega, List.take_add, List.drop_drop]
    congr 1
    rw [show (8 : Nat) = 4 + 4 by rfl, List.take_add, List.drop_drop]

theorem flatMap_one (ws : List Word) : (ws.map Elem.one).flatMap elemBytes = ws.flatMap le32 := by
  simp [List.flatMap_map, elemBytes]

end Sys2Proof.Machine
end

