-- ==== Sys2Proof/Laws/PerInstr.lean ====
section
/-! SUPPORT. What is said of every instruction as syntax, one lemma per constructor: which channel its
encoding stands on (10_state R40, 30_encoding R80, R93, R100). -/

namespace Sys2Proof.Laws

/-- An instruction's encoding stands on the byte pipe and begins with `MARKER`, on the side channel and ends
with `0A`, or is a port operation and stands at its port as it is. -/
def EncodeChannel.Statement (i : Instr) : Prop :=
  ∀ c : Config,
    (∃ bytes, encode c i = .pipe bytes ∧ c.marker <+: bytes ∧ i.isPortOp = false)
    ∨ (∃ line, encode c i = .side (line ++ [0x0A#8]) ∧ i.isPortOp = false)
    ∨ (encode c i = .port i ∧ i.isPortOp = true)

/-- A frame begins with `MARKER` (R80). -/
theorem marker_prefix_frameBytes (c : Config) (id : Nat) (p : List Byte) (crc : Word) :
    c.marker <+: frameBytes c id p crc := by
  simp only [frameBytes, List.append_assoc]
  exact List.prefix_append _ _

theorem EncodeChannel.setColor (p : List Byte) (crc : Word) : EncodeChannel.Statement (.setColor p crc) :=
  fun c => .inl ⟨_, rfl, marker_prefix_frameBytes c _ p crc, rfl⟩
theorem EncodeChannel.breathe (p : List Byte) (crc : Word) : EncodeChannel.Statement (.breathe p crc) :=
  fun c => .inl ⟨_, rfl, marker_prefix_frameBytes c _ p crc, rfl⟩
theorem EncodeChannel.gradient (p : List Byte) (crc : Word) : EncodeChannel.Statement (.gradient p crc) :=
  fun c => .inl ⟨_, rfl, marker_prefix_frameBytes c _ p crc, rfl⟩
theorem EncodeChannel.movingGradient (p : List Byte) (crc : Word) : EncodeChannel.Statement (.movingGradient p crc) :=
  fun c => .inl ⟨_, rfl, marker_prefix_frameBytes c _ p crc, rfl⟩
theorem EncodeChannel.crossFade (p : List Byte) (crc : Word) : EncodeChannel.Statement (.crossFade p crc) :=
  fun c => .inl ⟨_, rfl, marker_prefix_frameBytes c _ p crc, rfl⟩
theorem EncodeChannel.rainbow (p : List Byte) (crc : Word) : EncodeChannel.Statement (.rainbow p crc) :=
  fun c => .inl ⟨_, rfl, marker_prefix_frameBytes c _ p crc, rfl⟩
theorem EncodeChannel.fire (p : List Byte) (crc : Word) : EncodeChannel.Statement (.fire p crc) :=
  fun c => .inl ⟨_, rfl, marker_prefix_frameBytes c _ p crc, rfl⟩
theorem EncodeChannel.twinkle (p : List Byte) (crc : Word) : EncodeChannel.Statement (.twinkle p crc) :=
  fun c => .inl ⟨_, rfl, marker_prefix_frameBytes c _ p crc, rfl⟩
theorem EncodeChannel.neuralDrop (p : List Byte) (crc : Word) : EncodeChannel.Statement (.neuralDrop p crc) :=
  fun c => .inl ⟨_, rfl, marker_prefix_frameBytes c _ p crc, rfl⟩
theorem EncodeChannel.waterDrop (p : List Byte) (crc : Word) : EncodeChannel.Statement (.waterDrop p crc) :=
  fun c => .inl ⟨_, rfl, marker_prefix_frameBytes c _ p crc, rfl⟩
theorem EncodeChannel.startRain (p : List Byte) (crc : Word) : EncodeChannel.Statement (.startRain p crc) :=
  fun c => .inl ⟨_, rfl, marker_prefix_frameBytes c _ p crc, rfl⟩
theorem EncodeChannel.stopRain (p : List Byte) (crc : Word) : EncodeChannel.Statement (.stopRain p crc) :=
  fun c => .inl ⟨_, rfl, marker_prefix_frameBytes c _ p crc, rfl⟩
theorem EncodeChannel.status (p : List Byte) (crc : Word) : EncodeChannel.Statement (.status p crc) :=
  fun c => .inl ⟨_, rfl, marker_prefix_frameBytes c _ p crc, rfl⟩
theorem EncodeChannel.encodedBuffer (p : List Byte) (crc : Word) : EncodeChannel.Statement (.encodedBuffer p crc) :=
  fun c => .inl ⟨_, rfl, marker_prefix_frameBytes c _ p crc, rfl⟩
theorem EncodeChannel.fullBuffer (p : List Byte) (crc : Word) : EncodeChannel.Statement (.fullBuffer p crc) :=
  fun c => .inl ⟨_, rfl, marker_prefix_frameBytes c _ p crc, rfl⟩
theorem EncodeChannel.speedTest (p : List Byte) (crc : Word) : EncodeChannel.Statement (.speedTest p crc) :=
  fun c => .inl ⟨_, rfl, marker_prefix_frameBytes c _ p crc, rfl⟩
theorem EncodeChannel.feed (bytes : List Byte) : EncodeChannel.Statement (.feed bytes) :=
  fun _ => .inr (.inr ⟨rfl, rfl⟩)
theorem EncodeChannel.decode : EncodeChannel.Statement .decode := fun _ => .inr (.inr ⟨rfl, rfl⟩)
theorem EncodeChannel.drain : EncodeChannel.Statement .drain := fun _ => .inr (.inr ⟨rfl, rfl⟩)
theorem EncodeChannel.cmdDone : EncodeChannel.Statement .cmdDone := fun _ => .inr (.inr ⟨rfl, rfl⟩)
theorem EncodeChannel.resetRx : EncodeChannel.Statement .resetRx := fun _ => .inr (.inr ⟨rfl, rfl⟩)
theorem EncodeChannel.send (cmd : Cmd) : EncodeChannel.Statement (.send cmd) :=
  fun _ => .inr (.inr ⟨rfl, rfl⟩)
theorem EncodeChannel.writeStep (n : Nat) : EncodeChannel.Statement (.writeStep n) :=
  fun _ => .inr (.inr ⟨rfl, rfl⟩)
theorem EncodeChannel.poll (a : Option Line) : EncodeChannel.Statement (.poll a) :=
  fun _ => .inr (.inr ⟨rfl, rfl⟩)
theorem EncodeChannel.time (d : Nat) : EncodeChannel.Statement (.time d) :=
  fun _ => .inr (.inr ⟨rfl, rfl⟩)
theorem EncodeChannel.resetTx : EncodeChannel.Statement .resetTx := fun _ => .inr (.inr ⟨rfl, rfl⟩)
theorem EncodeChannel.ackLine (rest : List Byte) : EncodeChannel.Statement (.ackLine rest) := fun c =>
  let ⟨line, h⟩ := lineBytes_eq (c.ackToken ++ rest)
  .inr (.inl ⟨line, congrArg Request.side h, rfl⟩)
theorem EncodeChannel.errLine (rest : List Byte) : EncodeChannel.Statement (.errLine rest) := fun c =>
  let ⟨line, h⟩ := lineBytes_eq (c.errToken ++ rest)
  .inr (.inl ⟨line, congrArg Request.side h, rfl⟩)

end Sys2Proof.Laws
end

