-- ==== Sys2Proof/Laws/Receive.lean ====
section
/-! SUPPORT. What one byte does to the receive half: from a state of the invariant a byte step never faults
and keeps it (R21 to R27, R33, R112 to R121); and all that taking a byte can do to the machine. -/

namespace Sys2Proof.Machine

theorem nextMhist_length_lt (c : Config) (m : List Byte) (b : Byte) :
    (nextMhist c m b).length < c.marker.length := by
  have := marker_pos c
  rw [nextMhist]
  split
  · simpa using this
  · rw [lastN_length]; omega

theorem memRead_isSome_memWrite {m : Memory} {i j : Nat} {b : Byte} (h : j = i ∨ (memRead m j).isSome = true) :
    (memRead (memWrite m i b) j).isSome = true := by
  by_cases hj : j = i
  · subst hj; simp
  · rw [memRead_memWrite_other _ _ _ _ hj]
    exact h.resolve_left hj

/-- A space read up to the byte just written. -/
theorem memReadN_memWrite_snoc (sp : Space) (ep : Nat) (m : Memory) (n : Nat) (b : Byte) :
    memReadN sp ep (memWrite m n b) 0 (n + 1) = memReadN sp ep m 0 n ++ [b] := by
  rw [memReadN_succ, Nat.zero_add]
  congr 1
  · refine memReadN_congr fun k _ hk => memRead_memWrite_other _ _ _ _ (by omega)
  · simp [readByte]

theorem crcFold_append (x : Word) (a b : List Byte) : crcFold x (a ++ b) = crcFold (crcFold x a) b :=
  List.foldl_append

/-- The invariant says nothing of the FIFO's bytes but their number, of the acknowledgments owed, of a
DECODE in progress. -/
theorem RxInv.with_queue {c : Config} {r : RxRegs} (h : RxInv c r) {q : List Byte} (hq : q.length ≤ c.rxbufCap)
    (a : Nat) (d : Bool) : RxInv c { r with rxq := q, acksOwed := a, decoding := d } :=
  { h with rxq_le := hq }

/-- `MsgClear` and a new phase keep the invariant: every error, every marker and every completed frame end
so (R33, R114, R121, R235). -/
theorem RxInv.cleared {c : Config} {r : RxRegs} (h : RxInv c r) {p : Phase}
    (hp : p = .seekMarker ∨ p = .readName) {m : List Byte} (hm : m.length < c.marker.length) :
    RxInv c { msgClear r with phase := p, mhist := m } where
  mhist_short := hm
  nameLen_le := Nat.zero_le _
  nameBuf_wf := h.nameBuf_wf
  nameBuf_in := h.nameBuf_in
  nameBuf_written := fun i hi => absurd hi (Nat.not_lt_zero i)
  pbuf_wf := h.pbuf_wf
  pbuf_in := h.pbuf_in
  pbuf_written := fun i hi => absurd hi (Nat.not_lt_zero i)
  payCnt_le := Nat.le_refl _
  plen_le := Nat.zero_le _
  hwm_le := h.hwm_le
  rxq_le := h.rxq_le
  crcRun_eq := rfl
  nameId_lt := by rcases hp with rfl | rfl <;> simp
  seek_clear := fun _ => rfl
  len_clear := fun _ => ⟨rfl, rfl⟩
  plen_clear := fun _ _ => rfl
  crc_clear := fun _ => ⟨rfl, rfl⟩
  payload_open := by rcases hp with rfl | rfl <;> simp
  payload_full := by rcases hp with rfl | rfl <;> simp
  lenCnt_clear := fun _ => rfl

theorem RxInv.with_mhist {c : Config} {r : RxRegs} (h : RxInv c r) {m : List Byte}
    (hm : m.length < c.marker.length) : RxInv c { r with mhist := m } := { h with mhist_short := hm }

/-- A name byte (R115). -/
theorem nameByte_inv {c : Config} {r : RxRegs} (h : RxInv c r) (hp : r.phase = .readName) (b : Byte) :
    ∃ r' ev, nameByte c b r = .ok (r', ev) ∧ RxInv c r' := by
  by_cases hl : r.nameLen = c.nameMax
  · exact ⟨_, _, by rw [nameByte, if_pos hl]; rfl, h.cleared (.inl rfl) h.mhist_short⟩
  · have hlt := h.nameLen_le
    have hw : bufWrite c .nameBuf r.nameBuf r.nameLen [b] = .ok (memWrite r.nameBuf r.nameLen b) := by
      rw [bufWrite, if_pos (by simp [spaceSize]; omega)]
      rfl
    refine ⟨_, _, by rw [nameByte, if_neg hl, hw], ?_⟩
    exact { h with
      nameLen_le := by simp only; omega
      nameBuf_wf := memWf_memWrite h.nameBuf_wf _ _
      nameBuf_in := fun x hx => by
        rcases mem_memWrite hx with rfl | hx
        · simp only; omega
        · exact h.nameBuf_in x hx
      nameBuf_written := fun i hi => memRead_isSome_memWrite (by
        by_cases hi' : i = r.nameLen
        · exact .inl hi'
        · exact .inr (h.nameBuf_written i (by simp only at hi; omega)))
      seek_clear := by simp [hp] }

/-- The end of the name (R116). -/
theorem nameEnd_inv {c : Config} {r : RxRegs} (h : RxInv c r) (hp : r.phase = .readName) :
    ∃ r' ev, nameEnd c r = .ok (r', ev) ∧ RxInv c r' := by
  have hr : bufRead c .nameBuf r.epoch r.nameBuf 0 r.nameLen
      = .ok (memReadN .nameBuf r.epoch r.nameBuf 0 r.nameLen) := by
    rw [bufRead, if_pos (by simpa [spaceSize] using h.nameLen_le)]
  have hpl := h.plen_clear (by simp [hp]) (by simp [hp])
  cases hi : nameIndex c (memReadN .nameBuf r.epoch r.nameBuf 0 r.nameLen) with
  | none => exact ⟨_, _, by rw [nameEnd, hr]; simp only [hi]; rfl, h.cleared (.inl rfl) h.mhist_short⟩
  | some i =>
    refine ⟨_, _, by rw [nameEnd, hr]; simp only [hi]; rfl, ?_⟩
    have hlt : i < c.nameTable.length := by
      rw [nameIndex, List.findIdx?_eq_some_iff_getElem] at hi
      exact hi.1
    exact { h with
      nameId_lt := fun _ _ => hlt
      seek_clear := by simp
      len_clear := fun _ => ⟨rfl, rfl⟩
      plen_clear := fun _ _ => hpl
      crc_clear := fun _ => h.crc_clear (by simp [hp])
      payload_open := by simp
      payload_full := by simp
      lenCnt_clear := by simp }

/-- A length byte (R117, R118). -/
theorem lengthByte_inv {c : Config} {r : RxRegs} (h : RxInv c r) (hp : r.phase = .readLength) (b : Byte) :
    RxInv c (lengthByte c b r).1 := by
  rw [lengthByte]
  split
  · exact { h with
      len_clear := by simp [hp]
      lenCnt_clear := by simp [hp] }
  · simp only
    split
    · exact h.cleared (.inl rfl) h.mhist_short
    · split
      · exact h.cleared (.inl rfl) h.mhist_short
      · rename_i h1 h2
        have hid := h.nameId_lt (by simp [hp]) (by simp [hp])
        have hwm := h.hwm_le
        generalize (accumulate r.lenAcc 3 b).toNat = l at *
        exact { h with
          pbuf_written := fun i hi => absurd hi (Nat.not_lt_zero i)
          payCnt_le := Nat.zero_le _
          plen_le := Nat.le_max_right _ _
          hwm_le := by simp only; omega
          crcRun_eq := rfl
          nameId_lt := fun _ _ => hid
          seek_clear := by simp only; split <;> simp
          len_clear := by simp only; split <;> simp
          plen_clear := by simp only; split <;> simp
          crc_clear := fun _ => ⟨rfl, rfl⟩
          payload_open := by simp only; split <;> simp; omega
          payload_full := by simp only; split <;> simp; omega
          lenCnt_clear := fun _ => rfl }

/-- A payload byte (R119). -/
theorem payloadByte_inv {c : Config} {r : RxRegs} (h : RxInv c r) (hp : r.phase = .readPayload) (b : Byte) :
    ∃ r' ev, payloadByte c b r = .ok (r', ev) ∧ RxInv c r' := by
  have ho := h.payload_open hp
  have hle := h.plen_le
  have hwm := h.hwm_le
  have hw : bufWrite c .pbuf r.pbuf r.payCnt [b] = .ok (memWrite r.pbuf r.payCnt b) := by
    rw [bufWrite, if_pos (by simp [spaceSize]; omega)]
    rfl
  refine ⟨_, _, by rw [payloadByte, hw], ?_⟩
  exact { h with
    pbuf_wf := memWf_memWrite h.pbuf_wf _ _
    pbuf_in := fun x hx => by
      rcases mem_memWrite hx with rfl | hx
      · simp only; omega
      · exact h.pbuf_in x hx
    pbuf_written := fun i hi => memRead_isSome_memWrite (by
      by_cases hi' : i = r.payCnt
      · exact .inl hi'
      · exact .inr (h.pbuf_written i (by simp only at hi; omega)))
    payCnt_le := ho
    crcRun_eq := by
      simp only
      rw [memReadN_memWrite_snoc, crcFold_append, ← h.crcRun_eq]
      rfl
    nameId_lt := fun _ _ => h.nameId_lt (by simp [hp]) (by simp [hp])
    seek_clear := by simp only; split <;> simp [hp]
    len_clear := by simp only; split <;> simp [hp]
    plen_clear := by simp only; split <;> simp [hp]
    crc_clear := fun _ => h.crc_clear (by simp [hp])
    payload_open := by simp only; split <;> simp [hp]; omega
    payload_full := by simp only; split <;> simp_all
    lenCnt_clear := fun _ => h.lenCnt_clear (.inl hp) }

/-- A CRC byte (R120, R121). -/
theorem crcByte_inv {c : Config} {r : RxRegs} (h : RxInv c r) (hp : r.phase = .readCrc) (b : Byte) :
    ∃ r' ev, crcByte c b r = .ok (r', ev) ∧ RxInv c r' := by
  have hid := h.nameId_lt (by simp [hp]) (by simp [hp])
  have hle := h.plen_le
  have hwm := h.hwm_le
  have hr : bufRead c .pbuf r.epoch r.pbuf 0 r.plen = .ok (memReadN .pbuf r.epoch r.pbuf 0 r.plen) := by
    rw [bufRead, if_pos (by simp [spaceSize]; omega)]
  rw [crcByte]
  by_cases hc : r.crcCnt < 3
  · refine ⟨_, _, by rw [if_pos hc], ?_⟩
    exact { h with crc_clear := by simp [hp] }
  · rw [if_neg hc]
    by_cases hx : accumulate r.crcAcc 3 b ≠ r.crcRun ^^^ 0xFFFFFFFF#32
    · exact ⟨_, _, by rw [if_pos hx]; rfl, h.cleared (.inl rfl) h.mhist_short⟩
    · rw [if_neg hx, List.getElem?_eq_getElem hid, hr]
      simp only
      split
      · exact ⟨_, _, rfl, h.cleared (.inl rfl) h.mhist_short⟩
      · exact ⟨_, _, rfl, (h.cleared (.inl rfl) h.mhist_short).with_queue h.rxq_le (r.acksOwed + 1) r.decoding⟩

/-- From a state of the invariant a byte step never faults, and keeps it. -/
theorem byteStep_inv {c : Config} {r : RxRegs} (h : RxInv c r) (b : Byte) :
    ∃ r' ev, byteStep c b r = .ok (r', ev) ∧ RxInv c r' := by
  have hm := h.with_mhist (nextMhist_length_lt c r.mhist b)
  simp only [byteStep]
  split
  · exact ⟨_, _, rfl, hm.cleared (.inr rfl) hm.mhist_short⟩
  · split
    · exact ⟨_, _, rfl, hm⟩
    · rename_i hp
      split
      · exact nameEnd_inv hm hp
      · exact nameByte_inv hm hp b
    · rename_i hp
      exact ⟨_, _, rfl, lengthByte_inv hm hp b⟩
    · rename_i hp
      exact payloadByte_inv hm hp b
    · rename_i hp
      exact crcByte_inv hm hp b

/-- A byte step neither reads nor writes the FIFO and the mark of a `DECODE` in progress (R112, R235). -/
theorem byteStep_with_queue {c : Config} {b : Byte} {r r' : RxRegs} {ev : Option Event} (q : List Byte)
    (d : Bool) (h : byteStep c b r = .ok (r', ev)) :
    byteStep c b { r with rxq := q, decoding := d } = .ok ({ r' with rxq := q, decoding := d }, ev) := by
  cases r
  simp only [byteStep, nameEnd, nameByte, lengthByte, payloadByte, crcByte, raiseRxError, markerDetected] at h ⊢
  split at h
  · rename_i hc
    rw [if_pos hc]
    cases h
    rfl
  · rename_i hc
    rw [if_neg hc]
    split at h
    · cases h
      rfl
    · split at h
      · rename_i h0
        subst h0
        simp only [if_true]
        split at h
        · cases h
        · split at h
          · cases h
            rfl
          · cases h
            rfl
      · rename_i h0
        simp only [h0, if_false]
        split at h
        · rename_i hl
          rw [if_pos hl]
          cases h
          rfl
        · rename_i hl
          rw [if_neg hl]
          split at h
          · cases h
            rfl
          · cases h
    · simp only [Except.ok.injEq] at h ⊢
      split at h
      · rename_i hl
        rw [if_pos hl]
        cases h
        rfl
      · rename_i hl
        rw [if_neg hl]
        split at h
        · rename_i hl
          rw [if_pos hl]
          cases h
          rfl
        · rename_i hl
          rw [if_neg hl]
          split at h
          · rename_i hl
            rw [if_pos hl]
            cases h
            rfl
          · rename_i hl
            rw [if_neg hl]
            cases h
            rfl
    · split at h
      · cases h
      · cases h
        rfl
    · split at h
      · rename_i hl
        rw [if_pos hl]
        cases h
        rfl
      · rename_i hl
        rw [if_neg hl]
        split at h
        · rename_i hl
          rw [if_pos hl]
          cases h
          rfl
        · rename_i hl
          rw [if_neg hl]
          split at h
          · cases h
          · cases h
          · split at h
            · cases h
              rfl
            · cases h
              rfl

/-- All that taking a byte can do to the machine (R111, R211): the byte step, and the response to its
event. -/
theorem receiveByte_ok {b : Byte} {s t : State} {ev : Option Event} (h : receiveByte b s = .ok (t, ev)) :
    ∃ r, byteStep s.cfg b s.rx = .ok (r, ev) ∧
      t = { s with
        rx := r
        sc := s.sc ++ (ev.map (responseLines s.cfg)).getD []
        out := s.out ++ (ev.map (responsePorts s.cfg)).getD [] } := by
  rw [receiveByte] at h
  split at h
  · cases h
  · rename_i r heq
    cases h
    exact ⟨r, heq, by simp⟩
  · rename_i r e heq
    cases h
    exact ⟨r, heq, by simp [respond_eq]⟩

/-- From a state of the invariant a byte is always taken. -/
theorem receiveByte_inv {s : State} (h : RxInv s.cfg s.rx) (b : Byte) :
    ∃ t ev, receiveByte b s = .ok (t, ev) ∧ RxInv t.cfg t.rx ∧ t.cfg = s.cfg ∧ t.tx = s.tx := by
  obtain ⟨r, ev, he, hr⟩ := byteStep_inv h b
  cases ev with
  | none => exact ⟨{ s with rx := r }, _, by rw [receiveByte, he], hr, rfl, rfl⟩
  | some e =>
    exact ⟨respond e { s with rx := r }, _, by rw [receiveByte, he], by rw [respond_cfg, respond_rx]; exact hr,
      respond_cfg _ _, respond_tx _ _⟩

end Sys2Proof.Machine
end

