-- ==== Sys2Proof/Laws/Run.lean ====
section
/-! SUPPORT. The parser over a byte string, events and all; and that a run of `DECODE` and the machine's steps
while bytes arrive are both that run (R11, R73, R111, R124). -/

namespace Sys2Proof.Machine

/-- From a state of the invariant the parser takes any byte string, and keeps it. -/
theorem runRx_inv {c : Config} {r : RxRegs} (h : RxInv c r) (bs : List Byte) :
    ∃ r' es, runRx c bs r = some (r', es) ∧ RxInv c r' := by
  induction bs generalizing r with
  | nil => exact ⟨r, [], rfl, h⟩
  | cons b bs ih =>
    obtain ⟨r1, ev, h1, hi⟩ := byteStep_inv h b
    obtain ⟨r2, es, h2, hi2⟩ := ih hi
    exact ⟨r2, ev.toList ++ es, by simp [runRx, h1, h2], hi2⟩

/-- A run neither reads nor writes the FIFO and the mark of a `DECODE` in progress. -/
theorem runRx_with_queue {c : Config} {bs : List Byte} {r r' : RxRegs} {es : List Event} (q : List Byte)
    (d : Bool) (h : runRx c bs r = some (r', es)) :
    runRx c bs { r with rxq := q, decoding := d } = some ({ r' with rxq := q, decoding := d }, es) := by
  induction bs generalizing r es with
  | nil =>
    simp only [runRx, Option.some.injEq, Prod.mk.injEq] at h ⊢
    obtain ⟨rfl, rfl⟩ := h
    exact ⟨rfl, rfl⟩
  | cons b bs ih =>
    simp only [runRx] at h ⊢
    split at h
    · rename_i r1 ev heq
      rw [byteStep_with_queue q d heq]
      rw [Option.map_eq_some_iff] at h
      obtain ⟨⟨y, es'⟩, hy, hx⟩ := h
      simp only [Prod.mk.injEq] at hx
      obtain ⟨rfl, rfl⟩ := hx
      simp only [ih hy, Option.map_some]
    · cases h

theorem incomplete_not_response (c : Config) (e : Event) : PortOut.incomplete ∉ responsePorts c e := by
  cases e with
  | frameOk _ => simp [responsePorts]
  | err k => cases k <;> simp [responsePorts]

theorem eventsOf_response (c : Config) (e : Event) : eventsOf (responsePorts c e) = [e] := by
  cases e with
  | frameOk _ => rfl
  | err k => cases k <;> rfl

/-- `DECODE` until `INCOMPLETE` takes the whole FIFO (R111). -/
theorem decodeUntilIncomplete_run {w : List Byte} {s : State} {r : RxRegs} {es : List Event} {n : Nat}
    (hq : s.rx.rxq = w) (hn : w.length < n) (h : runRx s.cfg w s.rx = some (r, es)) (evs : List Event) :
    decodeUntilIncomplete n s evs = some (evs ++ es, { s with
      rx := { r with rxq := [], decoding := false }
      sc := s.sc ++ es.flatMap (responseLines s.cfg)
      out := [.incomplete] }) := by
  induction w generalizing s r es n evs with
  | nil =>
    simp only [runRx, Option.some.injEq, Prod.mk.injEq] at h
    obtain ⟨rfl, rfl⟩ := h
    obtain ⟨n, rfl⟩ : ∃ k, n = k + 1 := ⟨n - 1, by simp at hn; omega⟩
    simp [decodeUntilIncomplete, exec, execDecode, hq, State.emit, State.clearOut]
  | cons b w ih =>
    obtain ⟨n, rfl⟩ : ∃ k, n = k + 1 := ⟨n - 1, by simp at hn; omega⟩
    simp only [runRx] at h
    split at h
    · rename_i r1 ev heq
      rw [Option.map_eq_some_iff] at h
      obtain ⟨⟨y, es'⟩, hy, hx⟩ := h
      simp only [Prod.mk.injEq] at hx
      obtain ⟨rfl, rfl⟩ := hx
      have hb := byteStep_with_queue w s.rx.decoding heq
      cases ev with
      | none =>
        rw [decodeUntilIncomplete]
        simp only [exec, execDecode, hq, receiveByte, State.clearOut, hb, Option.isNone_none, List.not_mem_nil,
          if_false]
        rw [ih (s := { s with rx := { r1 with rxq := w, decoding := true }, out := [] })
          (r := { y with rxq := w, decoding := true }) rfl (by simp at hn; omega) (runRx_with_queue _ _ hy)]
        simp [eventsOf]
      | some e =>
        rw [decodeUntilIncomplete]
        simp only [exec, execDecode, hq, receiveByte, State.clearOut, hb, Option.isNone_some, respond_eq,
          List.nil_append, incomplete_not_response, if_false]
        rw [ih (s := { s with
            rx := { r1 with rxq := w, decoding := false }
            sc := s.sc ++ responseLines s.cfg e
            out := responsePorts s.cfg e }) (r := { y with rxq := w, decoding := false }) rfl
          (by simp at hn; omega) (runRx_with_queue _ _ hy)]
        simp [eventsOf_response]
    · cases h

/-- `FEED` of bytes that fit, and `DECODE` until `INCOMPLETE` (R110, R111). -/
theorem feedAndDecode_run {bs : List Byte} {s : State} {r : RxRegs} {es : List Event}
    (hf : s.rx.rxq.length + bs.length ≤ s.cfg.rxbufCap)
    (h : runRx s.cfg (s.rx.rxq ++ bs) s.rx = some (r, es)) :
    feedAndDecode bs s = some (es, { s with
      rx := { r with rxq := [], decoding := false }
      sc := s.sc ++ es.flatMap (responseLines s.cfg)
      out := [.incomplete] }) := by
  have hk : feedRoom bs s = bs.length := by rw [feedRoom]; omega
  simp only [feedAndDecode, exec, execFeed, feedTake, State.clearOut, State.emit, hk, List.take_length]
  rw [decodeUntilIncomplete_run (s := { s with
      rx := { s.rx with rxq := s.rx.rxq ++ bs }, out := [] ++ [.feedCount bs.length] })
    (w := s.rx.rxq ++ bs) (r := { r with rxq := s.rx.rxq ++ bs, decoding := s.rx.decoding }) rfl
    (Nat.lt_succ_self _) (runRx_with_queue _ _ h)]
  simp

/-! ### The machine's steps while bytes arrive -/

/-- A `DECODE` that takes a byte (R111): the byte step's registers, and the response to its event. -/
theorem exec_decode_byte {s : State} {b : Byte} {q : List Byte} {r : RxRegs} {ev : Option Event}
    (hq : s.rx.rxq = b :: q) (h : byteStep s.cfg b s.rx = .ok (r, ev)) :
    exec .decode s = .next (byteTaken q r ev s) := by
  have hb := byteStep_with_queue q s.rx.decoding h
  have hr : s.clearOut.cfg = s.cfg := rfl
  cases ev with
  | none =>
    simp only [exec, execDecode, hq, receiveByte, State.clearOut, hb]
    simp [byteTaken]
  | some e =>
    simp only [exec, execDecode, hq, receiveByte, State.clearOut, hb]
    simp [byteTaken, respond_eq]

theorem eventsOf_byteTaken (q : List Byte) (r : RxRegs) (ev : Option Event) (s : State) :
    eventsOf (byteTaken q r ev s).out = ev.toList := by
  cases ev with
  | none => rfl
  | some e => exact eventsOf_response s.cfg e

/-- A step while bytes arrive and the environment chooses nothing. -/
theorem step_pipe {s : State} {bs : List Byte} (hs : s.sched = []) (hp : s.pipe = some bs) :
    step s = pipeTurn s := by
  simp [step, nextStep, hs, stepDefault, hp]

/-- One step of an arrival that leads from `s` to `t`, with events `es`, and an arrival from there. -/
theorem runArrival_next {s t : State} {bs : List Byte} {r r' : RxRegs} {es es' : List Event} {n : Nat}
    (hp : s.pipe = some bs) (h : step s = .next t) (he : eventsOf t.out = es)
    (hn : ∀ evs, runArrival n t evs = some (evs ++ es', arrived r' es' t))
    (ht : t = { s with
      rx := t.rx, sc := s.sc ++ es.flatMap (responseLines s.cfg), pipe := t.pipe, out := t.out })
    (hr : ({ r' with rxq := [], decoding := false } : RxRegs) = { r with rxq := [], decoding := false }) :
    ∃ n, ∀ evs, runArrival n s evs = some (evs ++ (es ++ es'), arrived r (es ++ es') s) := by
  refine ⟨n + 1, fun evs => ?_⟩
  rw [runArrival, if_neg (by simp [hp]), h]
  simp only [hn, he, List.append_assoc]
  rw [ht]
  simp [arrived, hr]

/-- While bytes arrive the machine's steps are the run of the parser over what waits in the FIFO and what
stands on the pipe, however large the FIFO (R11, R110, R124). -/
theorem runArrival_run {s : State} {bs : List Byte} {r : RxRegs} {es : List Event} (hs : s.sched = [])
    (hp : s.pipe = some bs) (h : runRx s.cfg (s.rx.rxq ++ bs) s.rx = some (r, es)) :
    ∃ n, ∀ evs, runArrival n s evs = some (evs ++ es, arrived r es s) := by
  have hcap : 1 ≤ s.cfg.rxbufCap := by
    have hl := s.cfg.isLegal
    simp only [Params.legal, Bool.and_eq_true, decide_eq_true_eq] at hl
    omega
  generalize hm : 3 * bs.length + 2 * s.rx.rxq.length + s.rx.decoding.toNat = m
  induction m using Nat.strong_induction_on generalizing s bs r es with
  | _ m ih =>
    by_cases hf : bs ≠ [] ∧ s.rx.decoding = false ∧ s.rx.rxq.length < s.cfg.rxbufCap
    · -- the transport feeds
      obtain ⟨hb, hd, hroom⟩ := hf
      have hk : 0 < feedRoom bs s := by
        have := List.length_pos_iff.2 hb
        rw [feedRoom]; omega
      have hk' : feedRoom bs s ≤ bs.length := Nat.min_le_left _ _
      obtain ⟨n, hn⟩ := ih (3 * (bs.drop (feedRoom bs s)).length + 2 * (pipeOffer bs s).rx.rxq.length + 0)
        (by simp [hd] at hm ⊢; omega) (s := pipeOffer bs s) hs rfl
        (r := { r with rxq := s.rx.rxq ++ bs.take (feedRoom bs s), decoding := s.rx.decoding })
        (by
          simp only [pipeOffer_cfg, pipeOffer_rx, List.append_assoc, List.take_append_drop]
          exact runRx_with_queue _ _ h)
        hcap (by simp [hd])
      refine runArrival_next (es := []) (r' := { r with
        rxq := s.rx.rxq ++ bs.take (feedRoom bs s), decoding := s.rx.decoding }) hp ?_ rfl hn
        (by simp [pipeOffer, feedTake, State.emit, State.clearOut]) rfl
      obtain ⟨b, bs', rfl⟩ : ∃ b bs', bs = b :: bs' := List.exists_cons_of_ne_nil hb
      rw [step_pipe hs hp]
      simp [pipeTurn, hp, hd, hroom]
    · have hstep : (bs = [] ∧ s.rx.rxq = []) ∨ step s = exec .decode s := by
        rw [step_pipe hs hp]
        cases bs with
        | nil =>
          by_cases hq : s.rx.rxq = []
          · exact .inl ⟨rfl, hq⟩
          · exact .inr (by simp [pipeTurn, hp, hq])
        | cons b bs => exact .inr (by simp_all [pipeTurn])
      rcases hq : s.rx.rxq with _ | ⟨b, q⟩
      · rw [hq, List.nil_append] at h
        cases bs with
        | nil =>
          -- nothing waits anywhere: the last DECODE
          simp only [runRx, Option.some.injEq, Prod.mk.injEq] at h
          obtain ⟨rfl, rfl⟩ := h
          refine ⟨2, fun evs => ?_⟩
          rw [runArrival, if_neg (by simp [hp]), step_pipe hs hp]
          simp only [pipeTurn, hp, hq, if_true, exec, execDecode]
          simp [runArrival, eventsOf, State.emit, State.clearOut, arrived]
        | cons b bs =>
          -- a DECODE in progress finds nothing
          have hd : s.rx.decoding = true := by
            rw [hq] at hf
            simpa [show 0 < s.cfg.rxbufCap from hcap] using hf
          obtain ⟨n, hn⟩ := ih (3 * (b :: bs).length) (by simp [hq, hd] at hm ⊢; omega)
            (s := { s with rx := { s.rx with decoding := false }, out := [.incomplete] }) hs hp
            (r := { r with rxq := [], decoding := false })
            (by have := runRx_with_queue [] false h; simpa [hq] using this) hcap (by simp [hq])
          exact runArrival_next (es := []) hp
            (by rw [hstep.resolve_left (by simp)]
                simp [exec, execDecode, hq, State.emit, State.clearOut])
            rfl hn (by simp) rfl
      · -- a byte passes the parser
        rw [hq, List.cons_append] at h
        simp only [runRx] at h
        split at h
        · rename_i r1 ev heq
          rw [Option.map_eq_some_iff] at h
          obtain ⟨⟨y, es'⟩, hy, hx⟩ := h
          simp only [Prod.mk.injEq] at hx
          obtain ⟨rfl, rfl⟩ := hx
          have hd := Bool.toNat_le ev.isNone
          obtain ⟨n, hn⟩ := ih (3 * bs.length + 2 * q.length + ev.isNone.toNat)
            (by simp [hq] at hm ⊢; omega) (s := byteTaken q r1 ev s) hs hp
            (r := { y with rxq := q, decoding := ev.isNone }) (runRx_with_queue _ _ hy) hcap rfl
          exact runArrival_next hp
            (by rw [hstep.resolve_left (by simp [hq])]; exact exec_decode_byte hq heq)
            (eventsOf_byteTaken q r1 ev s) hn (by cases ev <;> simp [byteTaken]) rfl
        · cases h

/-- What stands on the pipe and in the FIFO after an arrival begins is what stood there, in order (R73). -/
theorem pipeArrives_bytes (bs : List Byte) (s : State) :
    (pipeArrives bs s).pipe = some ((s.pipe.getD [] ++ bs).drop (feedRoom (s.pipe.getD [] ++ bs) s))
    ∧ (pipeArrives bs s).rx.rxq ++ (s.pipe.getD [] ++ bs).drop (feedRoom (s.pipe.getD [] ++ bs) s)
      = s.rx.rxq ++ (s.pipe.getD [] ++ bs) := by
  refine ⟨rfl, ?_⟩
  simp [pipeArrives]

/-- Bytes that arrive while the environment chooses nothing: all that waits and all that comes passes the
parser, one byte a step, and the arrival ends (R11, R50, R110; log 5). -/
theorem pipeArrives_run {bs : List Byte} {s : State} {r : RxRegs} {es : List Event} (hs : s.sched = [])
    (hp : s.pipe = none) (h : runRx s.cfg (s.rx.rxq ++ bs) s.rx = some (r, es)) :
    ∃ n, ∀ evs, runArrival n (pipeArrives bs s) evs = some (evs ++ es, arrived r es s) := by
  obtain ⟨n, hn⟩ := runArrival_run (s := pipeArrives bs s) (es := es) hs (pipeArrives_bytes bs s).1
    (r := { r with rxq := s.rx.rxq ++ bs.take (feedRoom bs s), decoding := s.rx.decoding }) (by
      rw [(pipeArrives_bytes bs s).2]
      simp only [pipeArrives, hp, Option.getD_none, List.nil_append, pipeOffer_cfg, pipeOffer_rx]
      exact runRx_with_queue _ _ h)
  refine ⟨n, fun evs => ?_⟩
  rw [hn]
  simp [arrived, pipeArrives]

end Sys2Proof.Machine
end

