-- ==== Sys2Proof/Laws/Send.lean ====
section
/-! SUPPORT. The send half: what assembling a frame leaves in TXBUF (R183, R184), and what time and the
answer to a poll do (R201 to R205, R240, R241). -/

namespace Sys2Proof.Machine

theorem frameBytes_length (c : Config) (id : Nat) (payload : List Byte) (crc : Word) :
    (frameBytes c id payload crc).length = c.marker.length + (spelling c id).length + 9 + payload.length := by
  simp [frameBytes]
  omega

/-- Assembling leaves exactly the frame of R80 in TXBUF, its length patched in (R183, R184). -/
theorem assemble_eq {c : Config} {cmd : Cmd} {p : List Byte} {t : TxRegs} (hw : memWf t.txbuf = true)
    (hk : cmd.nameId < c.nameTable.length) (hl : p.length ≤ c.lenCap) :
    assemble c cmd p t = .ok { t with
      txbuf := memWriteN t.txbuf 0 (frameBytes c cmd.nameId p (crc32 p))
      txLen := (frameBytes c cmd.nameId p (crc32 p)).length } := by
  have hn := spelling_length_le hk
  have hok : ∀ m i bs, i + bs.length ≤ c.marker.length + c.nameMax + 1 + 4 + c.lenCap + 4 →
      bufWrite c .txbuf m i bs = .ok (memWriteN m i bs) := fun m i bs h => if_pos h
  simp only [assemble, bind, Except.bind, pure, Except.pure]
  rw [hok _ _ _ (by omega)]; dsimp only
  rw [hok _ _ _ (by omega)]; dsimp only
  rw [hok _ _ _ (by simp only [List.length_cons, List.length_nil]; omega)]; dsimp only
  rw [hok _ _ _ (by simp only [List.length_cons, List.length_nil]; omega)]; dsimp only
  rw [hok _ _ _ (by omega)]; dsimp only
  rw [hok _ _ _ (by rw [le32_length]; omega)]; dsimp only
  rw [hok _ _ _ (by rw [le32_length]; omega)]; dsimp only
  congr 2
  · refine memory_ext ?_ (memWf_memWriteN hw _ _) fun i => ?_
    · repeat' apply memWf_memWriteN
      exact hw
    · have happ : memWriteN t.txbuf 0 (frameBytes c cmd.nameId p (crc32 p))
          = memWriteN (memWriteN (memWriteN (memWriteN (memWriteN (memWriteN t.txbuf 0 c.marker)
              c.marker.length (spelling c cmd.nameId)) (c.marker.length + (spelling c cmd.nameId).length) [0#8])
              (c.marker.length + (spelling c cmd.nameId).length + 1) (le32 (BitVec.ofNat 32 p.length)))
              (c.marker.length + (spelling c cmd.nameId).length + 5) p)
              (c.marker.length + (spelling c cmd.nameId).length + 5 + p.length) (le32 (crc32 p)) := by
        simp only [frameBytes, memWriteN_append, List.length_append, List.length_cons, List.length_nil,
          le32_length, Nat.zero_add, Nat.add_assoc, Nat.reduceAdd]
      rw [happ]
      simp only [memRead_memWriteN, List.length_cons, List.length_nil, le32_length]
      repeat' split
      all_goals first | rfl | omega
  · rw [frameBytes_length]

/-! ### Time and polls -/

/-- All that the advance of the watchdog can do (R240, R241): nothing, time counted, or a fire. -/
theorem watchdogAdvance_cases (d : Nat) (s : State) :
    (s.tx.wdArmed = false ∧ watchdogAdvance d s = s)
    ∨ (s.tx.wdArmed = true ∧ s.tx.wdElapsed + d ≤ s.cfg.wdCeilingMs
      ∧ watchdogAdvance d s = { s with tx := { s.tx with wdElapsed := s.tx.wdElapsed + d } })
    ∨ (s.tx.wdArmed = true ∧ s.tx.wdElapsed + d > s.cfg.wdCeilingMs
      ∧ watchdogAdvance d s
        = watchdogFire { s with tx := { s.tx with wdElapsed := s.tx.wdElapsed + d } }) := by
  by_cases ha : s.tx.wdArmed = true
  · by_cases hd : s.tx.wdElapsed + d > s.cfg.wdCeilingMs
    · exact .inr (.inr ⟨ha, hd, by simp [watchdogAdvance, ha, hd]⟩)
    · exact .inr (.inl ⟨ha, by omega, by simp [watchdogAdvance, ha, hd]⟩)
  · simp only [Bool.not_eq_true] at ha
    exact .inl ⟨ha, by simp [watchdogAdvance, ha]⟩

@[simp] theorem watchdogAdvance_cfg (d : Nat) (s : State) : (watchdogAdvance d s).cfg = s.cfg := by
  rcases watchdogAdvance_cases d s with ⟨-, h⟩ | ⟨-, -, h⟩ | ⟨-, -, h⟩ <;>
    simp [h]

@[simp] theorem watchdogAdvance_rx (d : Nat) (s : State) : (watchdogAdvance d s).rx = s.rx := by
  rcases watchdogAdvance_cases d s with ⟨-, h⟩ | ⟨-, -, h⟩ | ⟨-, -, h⟩ <;>
    simp [h]

/-- Time keeps the invariant of the send half. -/
theorem watchdogAdvance_inv {s : State} (h : TxInv s.cfg s.tx) (d : Nat) :
    TxInv s.cfg (watchdogAdvance d s).tx := by
  rcases watchdogAdvance_cases d s with ⟨-, e⟩ | ⟨ha, hd, e⟩ | ⟨ha, hd, e⟩
  · rw [e]; exact h
  · rw [e]; exact { h with elapsed_le := fun _ => hd }
  · rw [e]
    exact { h with
      writing_open := by simp
      waiting_open := by simp
      fatal_iff := by simp
      armed_busy := by simp
      disarmed_fatal := fun _ => rfl
      elapsed_le := by simp }

theorem armedAfterWait_le (s : State) (h : armedAfterWait s = true) : s.tx.wdArmed = true := by
  rw [armedAfterWait] at h
  split at h
  · simp at h
  · exact h

/-- Counting a poll keeps the invariant (R201 to R205). -/
theorem countPoll_inv {s : State} (h : TxInv s.cfg s.tx) (hw : s.tx.txState = .waiting) (ans : Option Line) :
    TxInv s.cfg (countPoll ans s).tx ∧ (countPoll ans s).cfg = s.cfg ∧ (countPoll ans s).rx = s.rx := by
  have hp := (h.waiting_open hw).2
  have hend : ∀ o, o ≠ SendOutcome.wdFatal → ∀ a, (a = true → s.tx.wdArmed = true) →
      TxInv s.cfg { s.tx with polls := s.tx.polls + 1, txState := .idle, wdArmed := a, lastOutcome := o } :=
    fun o ho a ha =>
      { h with
        polls_le := hp
        writing_open := by simp
        waiting_open := by simp
        fatal_iff := by simp [ho]
        armed_busy := by simp
        disarmed_fatal := by simp
        elapsed_le := fun h' => h.elapsed_le (ha h') }
  have hstay : s.tx.polls + 1 ≠ s.cfg.retryBudget → TxInv s.cfg { s.tx with polls := s.tx.polls + 1 } :=
    fun hne =>
      { h with
        polls_le := hp
        waiting_open := fun _ => ⟨(h.waiting_open hw).1, by simp only; omega⟩ }
  have harm := armedAfterWait_le { s with tx := { s.tx with polls := s.tx.polls + 1 } }
  cases ans with
  | none =>
    simp only [countPoll]
    split
    · exact ⟨hend _ (by simp) _ harm, rfl, rfl⟩
    · rename_i hne
      exact ⟨hstay hne, rfl, rfl⟩
  | some l =>
    simp only [countPoll]
    split
    · exact ⟨hend _ (by simp) _ (by simp), rfl, rfl⟩
    · split
      · exact ⟨hend _ (by simp) _ harm, rfl, rfl⟩
      · split
        · exact ⟨hend _ (by simp) _ harm, rfl, rfl⟩
        · rename_i hne
          exact ⟨hstay hne, rfl, rfl⟩

/-- A poll that times out: the watchdog first, then the count (R201, R237 item 5). -/
theorem pollAnswered_none (s : State) :
    pollAnswered none s =
      if (watchdogAdvance s.cfg.pollTimeoutMs (s.emit (.sinkReadline s.cfg.pollTimeoutMs))).tx.txState = .fatal
      then watchdogAdvance s.cfg.pollTimeoutMs (s.emit (.sinkReadline s.cfg.pollTimeoutMs))
      else countPoll none (watchdogAdvance s.cfg.pollTimeoutMs (s.emit (.sinkReadline s.cfg.pollTimeoutMs))) :=
  rfl

/-- An answered poll keeps the invariant (R201). -/
theorem pollAnswered_inv {s : State} (h : TxInv s.cfg s.tx) (hw : s.tx.txState = .waiting)
    (ans : Option Line) :
    TxInv s.cfg (pollAnswered ans s).tx ∧ (pollAnswered ans s).cfg = s.cfg ∧ (pollAnswered ans s).rx = s.rx := by
  cases ans with
  | some l => exact countPoll_inv (s := s.emit _) h hw (some l)
  | none =>
    have h1 := watchdogAdvance_inv (s := s.emit (.sinkReadline s.cfg.pollTimeoutMs)) h s.cfg.pollTimeoutMs
    have hc := watchdogAdvance_cfg s.cfg.pollTimeoutMs (s.emit (.sinkReadline s.cfg.pollTimeoutMs))
    have hr := watchdogAdvance_rx s.cfg.pollTimeoutMs (s.emit (.sinkReadline s.cfg.pollTimeoutMs))
    have hm : (watchdogAdvance s.cfg.pollTimeoutMs (s.emit (.sinkReadline s.cfg.pollTimeoutMs))).tx.txState
        = .fatal
        ∨ (watchdogAdvance s.cfg.pollTimeoutMs (s.emit (.sinkReadline s.cfg.pollTimeoutMs))).tx.txState
        = .waiting := by
      rcases watchdogAdvance_cases s.cfg.pollTimeoutMs (s.emit (.sinkReadline s.cfg.pollTimeoutMs))
        with ⟨-, e⟩ | ⟨-, -, e⟩ | ⟨-, -, e⟩
      · rw [e]; exact .inr hw
      · rw [e]; exact .inr hw
      · rw [e]; exact .inl rfl
    rw [pollAnswered_none]
    simp only [State.emit_cfg, State.emit_rx] at h1 hc hr
    generalize watchdogAdvance s.cfg.pollTimeoutMs (s.emit (.sinkReadline s.cfg.pollTimeoutMs)) = u at *
    rcases hm with hm | hm
    · rw [if_pos hm]
      exact ⟨h1, hc, hr⟩
    · rw [if_neg (by simp [hm])]
      have := countPoll_inv (by rw [hc]; exact h1) hm none
      rw [hc, hr] at this
      exact this

/-- All that a line's arrival can do (log 6): a sender that does not wait leaves it; one that waits takes the
head of `SC`, in one poll. -/
theorem lineArrives_eq (l : Line) (s : State) :
    (s.tx.txState ≠ .waiting ∧ lineArrives l s = { s.clearOut with sc := s.sc ++ [l] })
    ∨ (s.tx.txState = .waiting
      ∧ lineArrives l s = pollAnswered (s.sc ++ [l]).head? { s.clearOut with sc := (s.sc ++ [l]).tail }) := by
  by_cases h : s.tx.txState = .waiting
  · exact .inr ⟨h, by simp [lineArrives, h]⟩
  · exact .inl ⟨h, by simp [lineArrives, h]⟩

/-- A line's arrival keeps the invariant (log 6). -/
theorem lineArrives_inv {s : State} (l : Line) (h : TxInv s.cfg s.tx) :
    TxInv s.cfg (lineArrives l s).tx ∧ (lineArrives l s).cfg = s.cfg ∧ (lineArrives l s).rx = s.rx := by
  rcases lineArrives_eq l s with ⟨-, e⟩ | ⟨hw, e⟩
  · rw [e]; exact ⟨h, rfl, rfl⟩
  · rw [e]; exact pollAnswered_inv (s := { s.clearOut with sc := (s.sc ++ [l]).tail }) h hw _

end Sys2Proof.Machine
end

