-- ==== Sys2Proof/Tests/Slice0.lean ====
section
/-! SUPPORT. Tests on fixed values, taken from 95_test_vectors or worked by hand from the rules; and for each
obligation with hypotheses, a witness that meets them. Each test is about one step on a small state. -/

namespace Sys2Proof.Tests

/- The kernel evaluates these theorems one after another: side by side they need too much memory. -/
set_option Elab.async false

open Sys2Proof.Machine

/-! ### Helpers -/

/-- What a function makes of the next state, if there is one. -/
def after {α : Type} (o : Host.Outcome State Fault Refusal) (f : State → α) : Option α :=
  match o with
  | .next t => some (f t)
  | _ => none

/-- What the parser makes, byte by byte, of the bytes a step leaves in the FIFO and on the byte pipe. -/
def parsed (o : Host.Outcome State Fault Refusal) : Option (RxRegs × List Event) :=
  match o with
  | .next t => runRx t.cfg (t.rx.rxq ++ t.pipe.getD []) t.rx
  | _ => none

/-- And the events among it. -/
def parsedEvents (o : Host.Outcome State Fault Refusal) : Option (List Event) := (parsed o).map (·.2)

/-- Whether a step is refused. -/
def isRefused (o : Host.Outcome State Fault Refusal) : Bool :=
  match o with
  | .refused _ => true
  | _ => false

/-- The reset state with one request before it. -/
def presented (r : Request) : State := { State.reset with reqs := [r] }

/-- The reset state with these receive registers, and with these send registers. -/
def rxAt (r : RxRegs) : State := { State.reset with rx := r }
def txAt (t : TxRegs) : State := { State.reset with tx := t }

/-- A configuration with small bounds, the other policies, and PBUF smaller than `LEN_CAP`. -/
def tiny : Config where
  toParams := { Params.standard with
    nameMax := 14, lenCap := 16, payloadRamBytes := 8, rxbufCap := 64, trailingPolicy := .ignore
    retryBudget := 2, wdCeilingMs := 100, wdClearOn := .waitEnd }
  isLegal := by decide +kernel

/-! ### The vectors of 95 -/

/-- 95 V1. -/
def v1 : List Byte := [0x7E, 0x41, 0x44, 0x41, 0x53, 0x65, 0x74, 0x43, 0x6F, 0x6C, 0x6F, 0x72, 0x00, 0x0C,
  0x00, 0x00, 0x00, 0x03, 0x00, 0x00, 0x00, 0x0A, 0x00, 0x00, 0x00, 0x00, 0x00, 0xFF, 0x00, 0x25, 0xF5, 0xAF,
  0x0E]
def p1 : List Byte := [0x03, 0x00, 0x00, 0x00, 0x0A, 0x00, 0x00, 0x00, 0x00, 0x00, 0xFF, 0x00]

/-- 95 V2. -/
def v2 : List Byte := [0x7E, 0x41, 0x44, 0x41, 0x42, 0x72, 0x65, 0x61, 0x74, 0x68, 0x65, 0x00, 0x0C, 0x00,
  0x00, 0x00, 0x00, 0x00, 0x00, 0x40, 0x00, 0x00, 0x80, 0x3F, 0x00, 0x00, 0x00, 0x3F, 0xDA, 0xD3, 0xE0, 0x2E]
def p2 : List Byte := [0x00, 0x00, 0x00, 0x40, 0x00, 0x00, 0x80, 0x3F, 0x00, 0x00, 0x00, 0x3F]

/-- 95 V3. -/
def v3 : List Byte := [0x7E, 0x41, 0x44, 0x41, 0x47, 0x72, 0x61, 0x64, 0x69, 0x65, 0x6E, 0x74, 0x00, 0x14,
  0x00, 0x00, 0x00, 0xFF, 0xFF, 0xFF, 0xFF, 0x00, 0x00, 0x00, 0x00, 0x00, 0x00, 0xC0, 0x3F, 0xFF, 0x00, 0x00,
  0x00, 0x00, 0x00, 0xFF, 0x00, 0xC9, 0x05, 0xA7, 0xC3]
def p3 : List Byte := [0xFF, 0xFF, 0xFF, 0xFF, 0x00, 0x00, 0x00, 0x00, 0x00, 0x00, 0xC0, 0x3F, 0xFF, 0x00,
  0x00, 0x00, 0x00, 0x00, 0xFF, 0x00]

/-- 95 V4. -/
def v4 : List Byte := [0x7E, 0x41, 0x44, 0x41, 0x4D, 0x6F, 0x76, 0x69, 0x6E, 0x67, 0x47, 0x72, 0x61, 0x64,
  0x69, 0x65, 0x6E, 0x74, 0x00, 0x10, 0x00, 0x00, 0x00, 0x00, 0x00, 0x80, 0x3F, 0x00, 0x00, 0x80, 0xBF, 0x14,
  0x00, 0x00, 0x00, 0xFF, 0xFF, 0xFF, 0x00, 0x5F, 0x6A, 0x51, 0x35]
def p4 : List Byte := [0x00, 0x00, 0x80, 0x3F, 0x00, 0x00, 0x80, 0xBF, 0x14, 0x00, 0x00, 0x00, 0xFF, 0xFF,
  0xFF, 0x00]

/-- 95 V5. -/
def v5 : List Byte := [0x7E, 0x41, 0x44, 0x41, 0x43, 0x72, 0x6F, 0x73, 0x73, 0x46, 0x61, 0x64, 0x65, 0x00,
  0x08, 0x00, 0x00, 0x00, 0x00, 0x00, 0x00, 0x40, 0x1E, 0x14, 0x0A, 0x00, 0xAA, 0x44, 0xD7, 0x6C]
def p5 : List Byte := [0x00, 0x00, 0x00, 0x40, 0x1E, 0x14, 0x0A, 0x00]

/-- 95 V6. -/
def v6 : List Byte := [0x7E, 0x41, 0x44, 0x41, 0x52, 0x61, 0x69, 0x6E, 0x62, 0x6F, 0x77, 0x00, 0x08, 0x00,
  0x00, 0x00, 0x64, 0x00, 0x00, 0x00, 0x00, 0x00, 0x00, 0x00, 0x28, 0x71, 0x83, 0x31]
def p6 : List Byte := [0x64, 0x00, 0x00, 0x00, 0x00, 0x00, 0x00, 0x00]

/-- 95 V7. -/
def v7 : List Byte := [0x7E, 0x41, 0x44, 0x41, 0x46, 0x69, 0x72, 0x65, 0x00, 0x0C, 0x00, 0x00, 0x00, 0x00,
  0x00, 0x5C, 0x42, 0x00, 0x00, 0xF0, 0x42, 0x00, 0x00, 0x20, 0x41, 0xBC, 0xCC, 0x67, 0x8B]
def p7 : List Byte := [0x00, 0x00, 0x5C, 0x42, 0x00, 0x00, 0xF0, 0x42, 0x00, 0x00, 0x20, 0x41]

/-- 95 V8. -/
def v8 : List Byte := [0x7E, 0x41, 0x44, 0x41, 0x54, 0x77, 0x69, 0x6E, 0x6B, 0x6C, 0x65, 0x00, 0x10, 0x00,
  0x00, 0x00, 0x05, 0x00, 0x00, 0x00, 0x00, 0x00, 0x40, 0x40, 0x00, 0x00, 0x00, 0x00, 0xFF, 0xFF, 0xFF, 0x00,
  0x8A, 0x5D, 0x73, 0x25]
def p8 : List Byte := [0x05, 0x00, 0x00, 0x00, 0x00, 0x00, 0x40, 0x40, 0x00, 0x00, 0x00, 0x00, 0xFF, 0xFF,
  0xFF, 0x00]

/-- 95 V9. -/
def v9 : List Byte := [0x7E, 0x41, 0x44, 0x41, 0x4E, 0x65, 0x75, 0x72, 0x61, 0x6C, 0x44, 0x72, 0x6F, 0x70,
  0x00, 0x04, 0x00, 0x00, 0x00, 0x03, 0x00, 0x00, 0x00, 0xF2, 0x70, 0xF1, 0x33]
def p9 : List Byte := [0x03, 0x00, 0x00, 0x00]

/-- 95 V10. -/
def v10 : List Byte := [0x7E, 0x41, 0x44, 0x41, 0x57, 0x61, 0x74, 0x65, 0x72, 0x44, 0x72, 0x6F, 0x70, 0x00,
  0x0C, 0x00, 0x00, 0x00, 0x00, 0x00, 0x00, 0x00, 0x1E, 0x00, 0x00, 0x00, 0x00, 0x00, 0x80, 0x3E, 0x96, 0x60,
  0x06, 0xE8]
def p10 : List Byte := [0x00, 0x00, 0x00, 0x00, 0x1E, 0x00, 0x00, 0x00, 0x00, 0x00, 0x80, 0x3E]

/-- 95 V11. -/
def v11 : List Byte := [0x7E, 0x41, 0x44, 0x41, 0x53, 0x74, 0x61, 0x72, 0x74, 0x52, 0x61, 0x69, 0x6E, 0x00,
  0x08, 0x00, 0x00, 0x00, 0x0A, 0x00, 0x00, 0x00, 0x00, 0x00, 0x00, 0x3F, 0x9C, 0xEE, 0x84, 0x42]
def p11 : List Byte := [0x0A, 0x00, 0x00, 0x00, 0x00, 0x00, 0x00, 0x3F]

/-- 95 V12. -/
def v12 : List Byte := [0x7E, 0x41, 0x44, 0x41, 0x53, 0x74, 0x6F, 0x70, 0x52, 0x61, 0x69, 0x6E, 0x00, 0x00,
  0x00, 0x00, 0x00, 0x00, 0x00, 0x00, 0x00]
def p12 : List Byte := []

/-- 95 V13. -/
def v13 : List Byte := [0x7E, 0x41, 0x44, 0x41, 0x53, 0x74, 0x61, 0x74, 0x75, 0x73, 0x00, 0x00, 0x00, 0x00,
  0x00, 0x00, 0x00, 0x00, 0x00]
def p13 : List Byte := []

/-- 95 V14. -/
def v14 : List Byte := [0x7E, 0x41, 0x44, 0x41, 0x45, 0x6E, 0x63, 0x6F, 0x64, 0x65, 0x64, 0x42, 0x75, 0x66,
  0x66, 0x65, 0x72, 0x00, 0x1C, 0x00, 0x00, 0x00, 0x02, 0x00, 0x00, 0x00, 0x03, 0x00, 0x00, 0x00, 0x00, 0x00,
  0x00, 0x00, 0x04, 0x00, 0x00, 0x00, 0x00, 0x00, 0xFF, 0x00, 0x02, 0x00, 0x00, 0x00, 0x00, 0xFF, 0x00, 0x00,
  0xF8, 0x8C, 0xCE, 0x12]
def p14 : List Byte := [0x02, 0x00, 0x00, 0x00, 0x03, 0x00, 0x00, 0x00, 0x00, 0x00, 0x00, 0x00, 0x04, 0x00,
  0x00, 0x00, 0x00, 0x00, 0xFF, 0x00, 0x02, 0x00, 0x00, 0x00, 0x00, 0xFF, 0x00, 0x00]

/-- 95 V15. -/
def v15 : List Byte := [0x7E, 0x41, 0x44, 0x41, 0x46, 0x75, 0x6C, 0x6C, 0x42, 0x75, 0x66, 0x66, 0x65, 0x72,
  0x00, 0x14, 0x00, 0x00, 0x00, 0x02, 0x00, 0x00, 0x00, 0x01, 0x00, 0x00, 0x00, 0x00, 0x00, 0x80, 0x3F, 0x01,
  0x00, 0x00, 0x00, 0x02, 0x00, 0x00, 0x00, 0x87, 0xB2, 0x5D, 0x1A]
def p15 : List Byte := [0x02, 0x00, 0x00, 0x00, 0x01, 0x00, 0x00, 0x00, 0x00, 0x00, 0x80, 0x3F, 0x01, 0x00,
  0x00, 0x00, 0x02, 0x00, 0x00, 0x00]

/-- 95 V16. -/
def v16 : List Byte := [0x7E, 0x41, 0x44, 0x41, 0x53, 0x70, 0x65, 0x65, 0x64, 0x54, 0x65, 0x73, 0x74, 0x00,
  0x00, 0x00, 0x00, 0x00, 0x00, 0x00, 0x00, 0x00]
def p16 : List Byte := []

/-! ### Well-formedness: a term that each check refuses -/

/-- A payload of 2^32 bytes does not fit the length field. -/
theorem test_wf_frame (n : Nat) (h : n = 2 ^ 32) :
    (Instr.setColor (List.replicate n 0x00) 0#32).wellFormed = false
    ∧ (Instr.speedTest (List.replicate n 0x00) 0#32).wellFormed = false := by
  constructor <;>
    exact decide_eq_false (by rw [List.length_replicate, h]; exact Nat.lt_irrefl _)
theorem test_wf_poll : (Instr.poll (some [0x4F, 0x0A, 0x4B])).wellFormed = false := by decide
theorem test_wf_ackLine : (Instr.ackLine [0x20, 0x0A]).wellFormed = false := by decide
theorem test_wf_errLine : (Instr.errLine [0x20, 0x0A]).wellFormed = false := by decide

/-! ### Decoding words written out from the spec -/

theorem test_decode_setColor : Sys2Proof.decode Config.standard (.pipe v1) = .ok (.setColor p1 0x0EAFF525#32) := by
  decide +kernel
theorem test_decode_breathe : Sys2Proof.decode Config.standard (.pipe v2) = .ok (.breathe p2 0x2EE0D3DA#32) := by
  decide +kernel
theorem test_decode_gradient : Sys2Proof.decode Config.standard (.pipe v3) = .ok (.gradient p3 0xC3A705C9#32) := by
  decide +kernel
theorem test_decode_movingGradient : Sys2Proof.decode Config.standard (.pipe v4) = .ok (.movingGradient p4 0x35516A5F#32) := by
  decide +kernel
theorem test_decode_crossFade : Sys2Proof.decode Config.standard (.pipe v5) = .ok (.crossFade p5 0x6CD744AA#32) := by
  decide +kernel
theorem test_decode_rainbow : Sys2Proof.decode Config.standard (.pipe v6) = .ok (.rainbow p6 0x31837128#32) := by
  decide +kernel
theorem test_decode_fire : Sys2Proof.decode Config.standard (.pipe v7) = .ok (.fire p7 0x8B67CCBC#32) := by
  decide +kernel
theorem test_decode_twinkle : Sys2Proof.decode Config.standard (.pipe v8) = .ok (.twinkle p8 0x25735D8A#32) := by
  decide +kernel
theorem test_decode_neuralDrop : Sys2Proof.decode Config.standard (.pipe v9) = .ok (.neuralDrop p9 0x33F170F2#32) := by
  decide +kernel
theorem test_decode_waterDrop : Sys2Proof.decode Config.standard (.pipe v10) = .ok (.waterDrop p10 0xE8066096#32) := by
  decide +kernel
theorem test_decode_startRain : Sys2Proof.decode Config.standard (.pipe v11) = .ok (.startRain p11 0x4284EE9C#32) := by
  decide +kernel
theorem test_decode_stopRain : Sys2Proof.decode Config.standard (.pipe v12) = .ok (.stopRain p12 0x00000000#32) := by
  decide +kernel
theorem test_decode_status : Sys2Proof.decode Config.standard (.pipe v13) = .ok (.status p13 0x00000000#32) := by
  decide +kernel
theorem test_decode_encodedBuffer : Sys2Proof.decode Config.standard (.pipe v14) = .ok (.encodedBuffer p14 0x12CE8CF8#32) := by
  decide +kernel
theorem test_decode_fullBuffer : Sys2Proof.decode Config.standard (.pipe v15) = .ok (.fullBuffer p15 0x1A5DB287#32) := by
  decide +kernel
theorem test_decode_speedTest : Sys2Proof.decode Config.standard (.pipe v16) = .ok (.speedTest p16 0x00000000#32) := by
  decide +kernel
theorem test_decode_ackLine : Sys2Proof.decode Config.standard (.side [0x4F, 0x4B, 0x20, 0x21, 0x0D, 0x0A])
    = .ok (.ackLine [0x20, 0x21]) := by decide +kernel
/-- R92: one trailing `0D` is removed, so `OK 0D 0D 0A` is the line `OK 0D`. -/
theorem test_decode_ackLine_cr : Sys2Proof.decode Config.standard (.side [0x4F, 0x4B, 0x0D, 0x0D, 0x0A])
    = .ok (.ackLine [0x0D])
    ∧ encode Config.standard (.ackLine [0x0D]) = .side [0x4F, 0x4B, 0x0D, 0x0D, 0x0A] := by decide +kernel
theorem test_decode_errLine : Sys2Proof.decode Config.standard
    (.side [0x45, 0x52, 0x52, 0x4F, 0x52, 0x20, 0x30, 0x36, 0x0A]) = .ok (.errLine [0x20, 0x30, 0x36]) := by
  decide +kernel

/-- R101: the lines of a program, as ASCII text. -/
def lineOf (text : String) : Option Instr := assembleLine Config.standard (ascii text.toList)

theorem test_decode_feed : lineOf "FEED 7E 41" = some (.feed [0x7E, 0x41]) := by decide +kernel
theorem test_decode_decode : lineOf "DECODE" = some .decode := by decide +kernel
theorem test_decode_drain : lineOf "DRAIN" = some .drain := by decide +kernel
theorem test_decode_cmdDone : lineOf "CMD_DONE" = some .cmdDone := by decide +kernel
theorem test_decode_resetRx : lineOf "RESET_RX" = some .resetRx := by decide +kernel
theorem test_decode_writeStep : lineOf "WRITE_STEP 19" = some (.writeStep 19) := by decide +kernel
theorem test_decode_poll : lineOf "POLL -> null" = some (.poll none)
    ∧ lineOf "POLL -> \"OK\"" = some (.poll (some [0x4F, 0x4B])) := by decide +kernel
theorem test_decode_time : lineOf "TIME 60000" = some (.time 60000) := by decide +kernel
theorem test_decode_resetTx : lineOf "RESET_TX" = some .resetTx := by decide +kernel
/-- R101's text of a record, its braces given as their codes. -/
theorem test_decode_send : assembleLine Config.standard (ascii "SEND NeuralDrop".toList ++ [0x7B]
    ++ ascii "iterations=3".toList ++ [0x7D]) = some (.send (cmdNeuralDrop 3)) := by decide +kernel

/-- Reserved forms do not fall through to a neighbour: a name's prefix, a cut frame, a byte too many, a
partial token. -/
theorem test_decode_rejects :
    Sys2Proof.decode Config.standard (.pipe [0x7E, 0x41, 0x44, 0x41, 0x46, 0x69, 0x72, 0x00, 0, 0, 0, 0, 0, 0, 0, 0])
      = .error .unknownName
    ∧ Sys2Proof.decode Config.standard (.pipe (v13.take 18)) = .error .truncated
    ∧ Sys2Proof.decode Config.standard (.pipe (v13 ++ [0x00])) = .error .trailingBytes
    ∧ Sys2Proof.decode Config.standard (.side [0x45, 0x52, 0x52, 0x0A]) = .error .ordinaryLine
    ∧ Sys2Proof.decode Config.standard (.port (.ackLine [])) = .error .notAPortOperation := by decide +kernel

/-- A table word is laid out as its row's bytes, zeros above: V13 from its 11 matched bytes. -/
theorem test_table_word : decodeTableWord 88 0x00737574617453_4144417E = some (.status [] 0#32)
    ∧ decodeTableWord 16 0x4B4F = some (.ackLine []) ∧ decodeTableWord 40 0x524F525245 = some (.errLine []) := by
  decide +kernel

/-! ### The checksum and the encoder -/

theorem test_crc32 : crc32 [] = 0x00000000#32 ∧ crc32 [0x00] = 0xD202EF8D#32 ∧ crc32 [0x61] = 0xE8B7BE43#32
    ∧ crc32 [0x31, 0x32, 0x33, 0x34, 0x35, 0x36, 0x37, 0x38, 0x39] = 0xCBF43926#32 ∧ crc32 p1 = 0x0EAFF525#32 := by
  decide +kernel

/-- Every vector's record is assembled to its bytes (R183). -/
theorem test_encode_vectors :
    encodeCmd Config.standard (cmdSetColor 3 10 [0x00FF0000]) = v1
    ∧ encodeCmd Config.standard (cmdBreathe 0x40000000 0x3F800000 0x3F000000) = v2
    ∧ encodeCmd Config.standard (cmdGradient 0xFFFFFFFF 0 0x3FC00000 [0x000000FF, 0x00FF0000]) = v3
    ∧ encodeCmd Config.standard (cmdMovingGradient 0x3F800000 0xBF800000 20 [0x00FFFFFF]) = v4
    ∧ encodeCmd Config.standard (cmdCrossFade 0x40000000 [0x000A141E]) = v5
    ∧ encodeCmd Config.standard (cmdRainbow 100 0) = v6
    ∧ encodeCmd Config.standard (cmdFire 0x425C0000 0x42F00000 0x41200000) = v7
    ∧ encodeCmd Config.standard (cmdTwinkle 5 0x40400000 0 0x00FFFFFF) = v8
    ∧ encodeCmd Config.standard (cmdNeuralDrop 3) = v9
    ∧ encodeCmd Config.standard (cmdWaterDrop 0 30 0x3E800000) = v10
    ∧ encodeCmd Config.standard (cmdStartRain 10 0x3F000000) = v11
    ∧ encodeCmd Config.standard cmdStopRain = v12
    ∧ encodeCmd Config.standard cmdStatus = v13
    ∧ encodeCmd Config.standard (cmdEncodedBuffer 2 3 0 [(4, 0x00FF0000), (2, 0x0000FF00)]) = v14
    ∧ encodeCmd Config.standard (cmdFullBuffer 2 1 0x3F800000 [1, 2]) = v15
    ∧ encodeCmd Config.standard cmdSpeedTest = v16 := by
  decide +kernel

/-! ### The frames

A frame's instruction puts its bytes before the parser, in one step; the parser then takes them one by one. -/

theorem test_exec_setColor : parsedEvents (exec (.setColor p1 0x0EAFF525#32) State.reset)
    = some [.frameOk (cmdSetColor 3 10 [0x00FF0000])] := by decide +kernel
theorem test_exec_breathe : parsedEvents (exec (.breathe p2 0x2EE0D3DA#32) State.reset)
    = some [.frameOk (cmdBreathe 0x40000000 0x3F800000 0x3F000000)] := by decide +kernel
theorem test_exec_gradient : parsedEvents (exec (.gradient p3 0xC3A705C9#32) State.reset)
    = some [.frameOk (cmdGradient 0xFFFFFFFF 0 0x3FC00000 [0x000000FF, 0x00FF0000])] := by decide +kernel
theorem test_exec_movingGradient : parsedEvents (exec (.movingGradient p4 0x35516A5F#32) State.reset)
    = some [.frameOk (cmdMovingGradient 0x3F800000 0xBF800000 20 [0x00FFFFFF])] := by decide +kernel
theorem test_exec_crossFade : parsedEvents (exec (.crossFade p5 0x6CD744AA#32) State.reset)
    = some [.frameOk (cmdCrossFade 0x40000000 [0x000A141E])] := by decide +kernel
theorem test_exec_rainbow : parsedEvents (exec (.rainbow p6 0x31837128#32) State.reset)
    = some [.frameOk (cmdRainbow 100 0)] := by decide +kernel
theorem test_exec_fire : parsedEvents (exec (.fire p7 0x8B67CCBC#32) State.reset)
    = some [.frameOk (cmdFire 0x425C0000 0x42F00000 0x41200000)] := by decide +kernel
theorem test_exec_twinkle : parsedEvents (exec (.twinkle p8 0x25735D8A#32) State.reset)
    = some [.frameOk (cmdTwinkle 5 0x40400000 0 0x00FFFFFF)] := by decide +kernel
theorem test_exec_neuralDrop : parsedEvents (exec (.neuralDrop p9 0x33F170F2#32) State.reset)
    = some [.frameOk (cmdNeuralDrop 3)] := by decide +kernel
theorem test_exec_waterDrop : parsedEvents (exec (.waterDrop p10 0xE8066096#32) State.reset)
    = some [.frameOk (cmdWaterDrop 0 30 0x3E800000)] := by decide +kernel
theorem test_exec_startRain : parsedEvents (exec (.startRain p11 0x4284EE9C#32) State.reset)
    = some [.frameOk (cmdStartRain 10 0x3F000000)] := by decide +kernel
theorem test_exec_stopRain : parsedEvents (exec (.stopRain p12 0x00000000#32) State.reset)
    = some [.frameOk (cmdStopRain)] := by decide +kernel
theorem test_exec_status : parsedEvents (exec (.status p13 0x00000000#32) State.reset)
    = some [.frameOk (cmdStatus)] := by decide +kernel
theorem test_exec_encodedBuffer : parsedEvents (exec (.encodedBuffer p14 0x12CE8CF8#32) State.reset)
    = some [.frameOk (cmdEncodedBuffer 2 3 0 [(4, 0x00FF0000), (2, 0x0000FF00)])] := by decide +kernel
theorem test_exec_fullBuffer : parsedEvents (exec (.fullBuffer p15 0x1A5DB287#32) State.reset)
    = some [.frameOk (cmdFullBuffer 2 1 0x3F800000 [1, 2])] := by decide +kernel
theorem test_exec_speedTest : parsedEvents (exec (.speedTest p16 0x00000000#32) State.reset)
    = some [.frameOk (cmdSpeedTest)] := by decide +kernel

/-! ### Receive errors (95 E1 to E21) -/

/-- E1, E9: a CRC field that does not match. E5, E6, E7, E8: a payload that does not fit its layout. -/
theorem test_errors_payload :
    parsedEvents (exec (.setColor (0x02#8 :: p1.tail) 0x0EAFF525#32) State.reset) = some [.err .crc]
    ∧ parsedEvents (exec (.status [] 0x00000001#32) State.reset) = some [.err .crc]
    ∧ parsedEvents (exec (.breathe (p2.take 8) 0xB0343256#32) State.reset) = some [.err .malformed]
    ∧ parsedEvents (exec (.status [0x00] 0xD202EF8D#32) State.reset) = some [.err .malformed]
    ∧ parsedEvents (exec (.fullBuffer [2, 0, 0, 0, 2, 0, 0, 0, 0, 0, 0x80, 0x3F, 1, 0, 0, 0, 2, 0, 0, 0]
        0x33950675#32) State.reset) = some [.err .malformed]
    ∧ parsedEvents (exec (.encodedBuffer [2, 0, 0, 0, 3, 0, 0, 0, 0, 0, 0, 0, 1] 0x21A2FF9A#32) State.reset)
      = some [.err .malformed] := by decide +kernel

/-- E6, E8 under `ignore`: what is beyond the layout is dropped. -/
theorem test_trailing_ignored :
    parsedEvents (exec (.status [0x00] 0xD202EF8D#32) (State.resetWith tiny)) = some [.frameOk cmdStatus]
    ∧ subDecode .ignore 13 .w3A8 [2, 0, 0, 0, 3, 0, 0, 0, 0, 0, 0, 0, 1] = some (cmdEncodedBuffer 2 3 0 []) := by
  decide +kernel

/-- E2, E2b, E10: a length over its caps, or at the cap. -/
theorem test_errors_length :
    parsedEvents (step (presented (.pipe [0x7E, 0x41, 0x44, 0x41, 0x53, 0x74, 0x61, 0x74, 0x75, 0x73, 0x00, 0x51, 0xC3, 0, 0])))
      = some [.err .oversize]
    ∧ (parsed (step (presented (.pipe [0x7E, 0x41, 0x44, 0x41, 0x53, 0x74, 0x61, 0x74, 0x75, 0x73, 0x00, 0x50, 0xC3, 0, 0])))).map
      (fun x => (x.1.phase, x.1.plen, x.1.hwm, x.2)) = some (.readPayload, 50000, 50000, [])
    ∧ parsedEvents (step { State.resetWith tiny with
        reqs := [.pipe [0x7E, 0x41, 0x44, 0x41, 0x53, 0x74, 0x61, 0x74, 0x75, 0x73, 0x00, 0x09, 0, 0, 0]] })
      = some [.err .alloc] := by decide +kernel

/-- E3, E3b, E3c, E4, E4b: the name. -/
theorem test_errors_name :
    parsedEvents (step (presented (.pipe [0x7E, 0x41, 0x44, 0x41, 0x58, 0x00]))) = some [.err .unknownName]
    ∧ parsedEvents (step (presented (.pipe [0x7E, 0x41, 0x44, 0x41, 0x00]))) = some [.err .unknownName]
    ∧ parsedEvents (step (presented (.pipe ([0x7E, 0x41, 0x44, 0x41] ++ List.replicate 33 0x41)))) = some [.err .nameTooLong]
    ∧ parsedEvents (step (presented (.pipe ([0x7E, 0x41, 0x44, 0x41] ++ List.replicate 32 0x41 ++ [0x00]))))
      = some [.err .unknownName] := by decide +kernel

/-- E11: a marker inside a payload. E12, E13, E18: a marker in flight, and noise. -/
theorem test_resync :
    (parsed (exec (.setColor [3, 0, 0, 0, 0x0A, 0, 0, 0, 0x7E, 0x41, 0x44, 0x41] 0xF2FDC308#32) State.reset)).map
      (fun x => (x.2, x.1.phase, memReadN .nameBuf 0 x.1.nameBuf 0 x.1.nameLen))
      = some ([.err .resync], .readName, [0x08, 0xC3, 0xFD, 0xF2])
    ∧ parsedEvents (step (presented (.pipe ([0x7E, 0x41, 0x44, 0x41] ++ v13)))) = some [.err .resync, .frameOk cmdStatus]
    ∧ parsedEvents (step (presented (.pipe (v9.take 20 ++ v13)))) = some [.err .resync, .frameOk cmdStatus]
    ∧ parsedEvents (step (presented (.pipe ([0x00, 0x7E, 0x41, 0x7E] ++ v13)))) = some [.frameOk cmdStatus] := by
  decide +kernel

/-- E19: the history is empty after a detection, so markers with a border do not overlap. -/
theorem test_border : let c : Params := { Params.standard with marker := [0x41, 0x42, 0x41, 0x42] }
    (Config.build c).map (fun c => (historyAfter c [0x41, 0x42, 0x41, 0x42], completesMarker c [0x41] 0x42))
    = some ([], false) := by decide +kernel

/-! ### Bytes on the pipe

R110, R111: `FEED` takes what fits; the steps after it take one byte each, or feed what is left. -/

/-- V13 at a FIFO with room for 5 bytes. -/
theorem test_arrival_feeds : after (exec (.status p13 0x00000000#32) (rxAt { RxRegs.reset with rxq := List.replicate 1019 0 }))
    (fun t => (t.rx.rxq.length, t.pipe, t.rx.phase, t.out))
    = some (1024, some (v13.drop 5), .seekMarker, [.feedCount 5]) := by decide +kernel

/-- A full FIFO is decoded from, one byte; with room the transport feeds; the last `DECODE` ends the arrival. -/
theorem test_arrival_steps :
    after (step { rxAt { RxRegs.reset with rxq := List.replicate 1024 0 } with pipe := some [0x7E] })
      (fun t => (t.rx.rxq.length, t.pipe, t.rx.decoding)) = some (1023, some [0x7E], true)
    ∧ after (step { rxAt { RxRegs.reset with rxq := [0x55] } with pipe := some [0x7E] })
      (fun t => (t.rx.rxq, t.pipe, t.out)) = some ([0x55, 0x7E], some [], [.feedCount 1])
    ∧ after (step { rxAt { RxRegs.reset with decoding := true } with pipe := some [] })
      (fun t => (t.pipe, t.rx.decoding, t.out)) = some (none, false, [.incomplete]) := by decide +kernel

/-! ### Ports of the receive half -/

/-- E21: a FIFO with room for 4 of 10 bytes. -/
theorem test_feed : after (exec (.feed (List.replicate 10 0x55)) (rxAt { RxRegs.reset with rxq := List.replicate 1020 0 }))
    (fun t => (t.rx.rxq.length, t.out)) = some (1024, [.feedCount 4]) := by decide +kernel
/-- The byte that completes a CRC field that does not match: the error line goes out (95 responder lines). -/
theorem test_decode_step : after (exec .decode (rxAt { RxRegs.reset with
      phase := .readCrc, nameId := 12, crcCnt := 3, rxq := [0x01, 0x7E] }))
    (fun t => (t.out, t.sc, t.rx.rxq, t.rx.phase, t.rx.decoding))
    = some ([.event (.err .crc), .scOut [0x45, 0x52, 0x52, 0x4F, 0x52, 0x20, 0x30, 0x31, 0x0A]],
      [[0x45, 0x52, 0x52, 0x4F, 0x52, 0x20, 0x30, 0x31]], [0x7E], .seekMarker, false) := by decide +kernel
theorem test_drain : after (exec .drain (rxAt { RxRegs.reset with phase := .readName, rxq := [0x01] }))
    (fun t => (t.rx.rxq, t.rx.phase)) = some ([], .readName) := by decide +kernel
theorem test_cmdDone : after (exec .cmdDone (rxAt { RxRegs.reset with acksOwed := 2 }))
    (fun t => (t.rx.acksOwed, t.sc, t.out)) = some (1, [[0x4F, 0x4B]], [.scOut [0x4F, 0x4B, 0x0A]])
    ∧ after (exec .cmdDone State.reset) (fun t => (t.rx.acksOwed, t.sc, t.out)) = some (0, [], []) := by decide +kernel
theorem test_resetRx : after (exec .resetRx (rxAt { RxRegs.reset with
      phase := .readPayload, plen := 4, payCnt := 1, hwm := 4, pbuf := [(0, 0x11)], acksOwed := 1, rxq := [0x01]
      decoding := true }))
    (fun t => { t.rx with epoch := 0 }) = some RxRegs.reset := by decide +kernel

/-- A `DECODE` in progress, 2 bytes before it, an operation that waits, and two choices. -/
def midDecode (t : Turn) (op : Instr) : State :=
  { rxAt { RxRegs.reset with decoding := true, rxq := [0x55, 0x7E] } with reqs := [.port op], sched := [t, .serve] }

/-- 92 D41: an operation of the send half may come before the next byte of a `DECODE`, or after it. R73: one of
the receive half waits. -/
theorem test_interleaving :
    after (step (midDecode .proceed (.time 1))) (fun t => (t.rx.rxq, t.rx.decoding, t.reqs.length, t.sched))
      = some ([0x7E], true, 1, [.serve])
    ∧ after (step (midDecode .serve (.time 1))) (fun t => (t.rx.rxq, t.rx.decoding, t.reqs.length, t.sched))
      = some ([0x55, 0x7E], true, 0, [.serve])
    ∧ after (step (midDecode .serve .drain)) (fun t => (t.rx.rxq, t.rx.decoding, t.reqs.length, t.sched))
      = some ([0x7E], true, 1, [.serve]) :=
  ⟨by decide +kernel, by decide +kernel, by decide +kernel⟩

/-! ### Ports of the send half -/

/-- A sender that waits for the answer to V13, all but its buffer. -/
def waiting : State := txAt { TxRegs.reset with
  txState := .waiting, txbuf := memWriteN [] 0 v13, txLen := 19, txPos := 19, wdArmed := true }
def writing : State := txAt { TxRegs.reset with
  txState := .writing, txbuf := memWriteN [] 0 v13, txLen := 19, txPos := 10, wdArmed := true }
def fatal : State := txAt { TxRegs.reset with txState := .fatal, lastOutcome := .wdFatal, wdElapsed := 60001 }

/-- T1, T5, P3 step 1. -/
theorem test_send : after (exec (.send cmdStatus) State.reset)
      (fun t => (memReadN .txbuf 0 t.tx.txbuf 0 t.tx.txLen, t.tx.txState, t.tx.wdArmed, t.out))
      = some (v13, .writing, true, [.accepted])
    ∧ after (exec (.send (cmdFullBuffer 2 2 0x3F800000 [1, 2])) State.reset)
      (fun t => (t.tx.lastOutcome.code, t.tx.txState, t.tx.wdArmed)) = some (0x13#8, .idle, false)
    ∧ after (exec (.send ⟨7, [5, 0, 0, 0], [.one 1]⟩) State.reset) (fun t => t.tx.lastOutcome.code)
      = some 0x13#8 := by decide +kernel
/-- T3's rule at a small cap: 20 bytes of payload, `LEN_CAP` 16. T6: a held request. -/
theorem test_send_refused : after (exec (.send (cmdSetColor 0 0 [1, 2, 3])) (State.resetWith tiny))
      (fun t => (t.tx.lastOutcome.code, t.tx.txState)) = some (0x14#8, .idle)
    ∧ after (exec (.send cmdStatus) waiting) (fun t => (t.held, t.tx.txState, t.out))
      = some ([cmdStatus], .waiting, [.notAccepted]) := by decide +kernel
/-- P3 step 3. -/
theorem test_writeStep : after (exec (.writeStep 9) writing) (fun t => (t.tx.txPos, t.tx.txState, t.out))
      = some (19, .waiting, [.sinkWrite [0, 0, 0, 0, 0, 0, 0, 0, 0] 9])
    ∧ isRefused (exec (.writeStep 10) writing) = true := by decide +kernel
/-- A2, A5, A6. -/
theorem test_poll_line :
    after (exec (.poll (some [0x4F, 0x4B, 0x20, 0x72])) waiting) (fun t => (t.tx.lastOutcome.code, t.tx.wdArmed))
      = some (0x10#8, false)
    ∧ after (exec (.poll (some [0x45, 0x52, 0x52])) waiting) (fun t => (t.tx.txState, t.tx.polls))
      = some (.waiting, 1)
    ∧ after (exec (.poll (some [0x45, 0x52, 0x52, 0x4F, 0x52])) { waiting with
        sc := [[0x45, 0x52, 0x52, 0x4F, 0x52], [0x4F, 0x4B]] })
      (fun t => (t.tx.lastOutcome.code, t.sc, t.tx.wdArmed)) = some (0x11#8, [], true) := by decide +kernel
/-- A7's last poll, and P6 step 4. -/
theorem test_poll_null :
    after (exec (.poll none) { waiting with tx := { waiting.tx with polls := 999, wdElapsed := 49950 } })
      (fun t => (t.tx.lastOutcome.code, t.tx.polls, t.tx.wdElapsed, t.tx.txState)) = some (0x12#8, 1000, 50000, .idle)
    ∧ after (exec (.poll none) { waiting with tx := { waiting.tx with polls := 2, wdElapsed := 59951 } })
      (fun t => (t.tx.lastOutcome.code, t.tx.polls, t.tx.wdElapsed, t.tx.txState)) = some (0x1F#8, 2, 60001, .fatal) := by
  decide +kernel
/-- W1, W2. -/
theorem test_time : after (exec (.time 60000) waiting) (fun t => (t.tx.txState, t.tx.wdElapsed)) = some (.waiting, 60000)
    ∧ after (exec (.time 1) { waiting with tx := { waiting.tx with wdElapsed := 60000 } })
      (fun t => (t.tx.txState, t.tx.lastOutcome.code, t.tx.wdArmed, t.tx.wdElapsed))
      = some (.fatal, 0x1F#8, false, 60001) := by decide +kernel
/-- W6. -/
theorem test_resetTx : after (exec .resetTx fatal) (fun t => { t.tx with epoch := 0 }) = some TxRegs.reset := by
  decide +kernel
theorem test_ackLine : after (exec (.ackLine [0x21]) waiting) (fun t => (t.tx.lastOutcome.code, t.sc))
      = some (0x10#8, [])
    ∧ after (exec (.ackLine []) State.reset) (fun t => (t.tx.txState, t.sc)) = some (.idle, [[0x4F, 0x4B]]) := by
  decide +kernel
/-- One poll: of the line that came, or of an older one. -/
theorem test_errLine : after (exec (.errLine [0x20, 0x30, 0x31]) waiting)
      (fun t => (t.tx.lastOutcome.code, t.sc, t.tx.polls)) = some (0x11#8, [], 1)
    ∧ after (exec (.errLine []) { waiting with sc := [[0x68]] })
      (fun t => (t.tx.txState, t.sc, t.tx.polls)) = some (.waiting, [[0x45, 0x52, 0x52, 0x4F, 0x52]], 1) := by
  decide +kernel

/-- A program loaded from outside: its first operation is what the first step runs (log 3). -/
theorem test_fetch : parsedEvents (step (State.reset.withFetchWord 88 0x00737574617453_4144417E)) = some [.frameOk cmdStatus]
    ∧ after (step (State.reset.load [.feed [0x7E]])) (fun t => t.out) = some [.feedCount 1] := by decide +kernel

/-- s32 (R8): how a consumer reads an `i32` field. -/
theorem test_s32 : s32 0xFFFFFFFF#32 = -1 ∧ s32 0x7FFFFFFF#32 = 2147483647 := by decide +kernel


/-! ### Witnesses: for each obligation with hypotheses, inputs that meet them all -/

theorem test_reset_inv : State.reset.Inv := ⟨by constructor <;> decide +kernel, by constructor <;> decide +kernel⟩
theorem rxAt_inv {r : RxRegs} (h : RxInv Config.standard r) : (rxAt r).Inv := ⟨h, test_reset_inv.tx⟩
theorem txAt_inv {t : TxRegs} (h : TxInv Config.standard t) : (txAt t).Inv := ⟨test_reset_inv.rx, h⟩
theorem test_waiting_inv : waiting.Inv := txAt_inv (by constructor <;> decide +kernel)
theorem test_writing_inv : writing.Inv := txAt_inv (by constructor <;> decide +kernel)
theorem test_fatal_inv : fatal.Inv := txAt_inv (by constructor <;> decide +kernel)
theorem test_tiny_inv : (State.resetWith tiny).Inv :=
  ⟨by constructor <;> decide +kernel, by constructor <;> decide +kernel⟩

/-- Under the default configuration a frame of any of the 16 variants has a name. -/
theorem frameInstr_lt {id : Nat} {p : List Byte} {crc : Word} {i : Instr} (h : frameInstr id p crc = some i) :
    id < Config.standard.nameTable.length := by
  show id < 16
  simp only [frameInstr] at h
  split at h <;> first | omega | cases h

theorem test_witness_DecodeOfEncode :
    (Instr.setColor p1 0x0EAFF525#32).wellFormed = true ∧ (Instr.poll (some [0x4F, 0x4B])).wellFormed = true
    ∧ (Instr.ackLine []).wellFormed = true ∧ (Instr.errLine [0x20]).wellFormed = true
    ∧ ∀ i id p crc, frameInstr id p crc = some i → id < Config.standard.nameTable.length :=
  ⟨by decide, by decide, by decide, by decide, fun _ _ _ _ h => frameInstr_lt h⟩

/-- Two frames of one length that differ in a payload byte are records of their own. -/
theorem test_witness_AssembledFrameExactAndInjective :
    State.reset.Inv ∧ State.reset.tx.txState = .idle
    ∧ wellFormedCmd State.reset.cfg (cmdNeuralDrop 3) = true
    ∧ (payloadOf (cmdNeuralDrop 3)).length ≤ State.reset.cfg.lenCap
    ∧ encodeCmd State.reset.cfg (cmdNeuralDrop 3) = encodeCmd State.reset.cfg ⟨8, [3], []⟩ :=
  ⟨test_reset_inv, rfl, by decide +kernel, by decide +kernel, rfl⟩

/-- The first and the last bit of a payload. -/
theorem test_witness_ChecksumDetectsOneFlippedBit : 0 < p1.length ∧ 11 < p1.length
    ∧ crc32 (p1.set 0 (p1[0] ^^^ BitVec.twoPow 8 0)) ≠ crc32 p1
    ∧ crc32 (p1.set 11 (p1[11] ^^^ BitVec.twoPow 8 7)) ≠ crc32 p1 := by decide +kernel

theorem test_witness_LittleEndianFields : 0 + 4 ≤ [0x44#8, 0x33#8, 0x22#8, 0x11#8].length
    ∧ u32le [0x44, 0x33, 0x22, 0x11] 0 = 0x11223344#32 := by decide +kernel

theorem test_witness_SubDecodeInvertsPayload :
    Config.standard.nameTable[8]? = some ⟨[0x4E, 0x65, 0x75, 0x72, 0x61, 0x6C, 0x44, 0x72, 0x6F, 0x70], .fixed 1⟩
    ∧ wellFormedCmd Config.standard (cmdNeuralDrop 3) = true ∧ (cmdNeuralDrop 3).nameId = 8 := by decide +kernel

/-- V15's two colours, and none. -/
theorem test_witness_VariableLayouts : [1#32, 2#32].length = (2#32 : Word).toNat * (1#32 : Word).toNat
    ∧ ([] : List Word).length = (0#32 : Word).toNat * (5#32 : Word).toNat := by decide

theorem test_witness_DecodeTakesTheFirstByte : State.reset.rx.rxq = []
    ∧ (rxAt { RxRegs.reset with rxq := [0x7E] }).Inv
    ∧ (rxAt { RxRegs.reset with rxq := [0x7E] }).rx.rxq = 0x7E#8 :: [] :=
  ⟨rfl, rxAt_inv (by constructor <;> decide +kernel), rfl⟩

theorem test_witness_MarkerTestRule :
    Config.standard.marker <:+ [0x00, 0x7E, 0x41, 0x44] ++ [0x41#8]
    ∧ ¬ Config.standard.marker <:+ [0x7E, 0x41] ++ [0x44#8] ∧ ¬ Config.standard.marker <:+ [] ++ [0x7E#8]
    ∧ borderFree Config.standard.marker = true := by decide +kernel

/-- In flight, in `SEEK_MARKER`, and a byte that completes no marker there. -/
theorem test_witness_MarkerRestartsTheParser :
    completesMarker Config.standard [0x7E, 0x41, 0x44] 0x41#8 = true
    ∧ completesMarker Config.standard [0x7E, 0x41] 0x44#8 = false
    ∧ ∀ p, (rxAt { RxRegs.reset with phase := p, mhist := [0x7E, 0x41, 0x44], rxq := [0x41] }).rx.rxq
      = 0x41#8 :: [] := ⟨by decide +kernel, by decide +kernel, fun _ => rfl⟩

/-- A receive half in a name: after 6 bytes, or after the 32nd. -/
def inName (name : List Byte) (next : Byte) : State := rxAt { RxRegs.reset with
  phase := .readName, nameBuf := memWriteN [] 0 name, nameLen := name.length, rxq := [next] }

theorem test_witness_NameByteRule :
    (inName [0x53, 0x74, 0x61, 0x74, 0x75, 0x73] 0x41).Inv ∧ (inName (List.replicate 32 0x41) 0x41).Inv
    ∧ (inName (List.replicate 32 0x41) 0x41).rx.nameLen = Config.standard.nameMax
    ∧ (∀ name, (inName name 0x41).rx.rxq = 0x41#8 :: [] ∧ (inName name 0x41).rx.phase = .readName)
    ∧ completesMarker Config.standard [] 0x41#8 = false :=
  ⟨rxAt_inv (by constructor <;> decide +kernel), rxAt_inv (by constructor <;> decide +kernel), by decide +kernel,
    fun _ => ⟨rfl, rfl⟩, by decide +kernel⟩

/-- A name of the table, and one that is not in it. -/
theorem test_witness_NameEndRule :
    (inName [0x53, 0x74, 0x61, 0x74, 0x75, 0x73] 0x00).Inv ∧ (inName [0x58] 0x00).Inv
    ∧ (Config.standard.nameTable[12]?).map (·.name) = some (memReadN .nameBuf 0
      (inName [0x53, 0x74, 0x61, 0x74, 0x75, 0x73] 0x00).rx.nameBuf 0 6)
    ∧ (∀ e ∈ Config.standard.nameTable, e.name ≠ memReadN .nameBuf 0 (inName [0x58] 0x00).rx.nameBuf 0 1)
    ∧ completesMarker Config.standard [] 0x00#8 = false :=
  ⟨rxAt_inv (by constructor <;> decide +kernel), rxAt_inv (by constructor <;> decide +kernel), by decide +kernel,
    by decide +kernel, by decide +kernel⟩

/-- The fourth length byte, over and at the caps, and none: each branch of the rule has a length. -/
theorem test_witness_LengthByteRule :
    ((0x0000C351#32 ||| ((0x00#8).setWidth 32 <<< 24)).toNat > Config.standard.lenCap)
    ∧ (0x0000C350#32 ||| ((0x00#8).setWidth 32 <<< 24)).toNat = Config.standard.payloadRamBytes
    ∧ (0x00000009#32 ||| ((0x00#8).setWidth 32 <<< 24)).toNat > tiny.payloadRamBytes
    ∧ (0x00000009#32 ||| ((0x00#8).setWidth 32 <<< 24)).toNat ≤ tiny.lenCap
    ∧ (∀ k, (rxAt { RxRegs.reset with phase := .readLength, lenCnt := k, rxq := [0x00] }).rx.rxq = 0x00#8 :: [])
    ∧ (2 : Fin 4).val < 3 ∧ completesMarker Config.standard [] 0x00#8 = false :=
  ⟨by decide +kernel, by decide +kernel, by decide +kernel, by decide +kernel, fun _ => rfl, by decide, by decide +kernel⟩

theorem test_witness_PayloadByteRule :
    (rxAt { RxRegs.reset with
      phase := .readPayload, nameId := 8, plen := 4, payCnt := 3, hwm := 4, pbuf := memWriteN [] 0 [3, 0, 0]
      crcRun := crcFold crcInit [3, 0, 0], rxq := [0x00] }).Inv
    ∧ completesMarker Config.standard [] 0x00#8 = false :=
  ⟨rxAt_inv (by constructor <;> decide +kernel), by decide +kernel⟩

/-- V9 before its CRC field, and before the last byte of it. -/
def inCrc (cnt : Fin 4) (acc : Word) (next : Byte) : State := rxAt { RxRegs.reset with
  phase := .readCrc, nameId := 8, plen := 4, payCnt := 4, hwm := 4, pbuf := memWriteN [] 0 p9
  crcRun := crcFold crcInit p9, crcCnt := cnt, crcAcc := acc, rxq := [next] }

theorem test_witness_CrcByteRule :
    (inCrc 0 0#32 0xF2).Inv ∧ (inCrc 3 0x00F170F2#32 0x33).Inv
    ∧ (inCrc 0 0#32 0xF2).rx.crcCnt.val < 3 ∧ (inCrc 3 0x00F170F2#32 0x33).rx.crcCnt.val = 3
    ∧ memReadN .pbuf 0 (inCrc 3 0x00F170F2#32 0x33).rx.pbuf 0 4 = p9
    ∧ (0x00F170F2#32 ||| ((0x33#8).setWidth 32 <<< 24)) = crc32 p9
    ∧ (Config.standard.nameTable[8]?).map (·.cls) = some (.fixed 1)
    ∧ completesMarker Config.standard [] 0xF2#8 = false ∧ completesMarker Config.standard [] 0x33#8 = false :=
  ⟨rxAt_inv (by constructor <;> decide +kernel), rxAt_inv (by constructor <;> decide +kernel), by decide +kernel,
    by decide +kernel, by decide +kernel, by decide +kernel, by decide +kernel, by decide +kernel, by decide +kernel⟩

theorem test_witness_ErrorRecoveryIsPrecise :
    ∃ t, exec .decode (inName [0x58] 0x00) = .next t ∧ .event (.err .unknownName) ∈ t.out
      ∧ RxError.unknownName ≠ .resync := ⟨_, rfl, by decide +kernel, by decide⟩

theorem test_witness_CmdDoneAcknowledges : (rxAt { RxRegs.reset with acksOwed := 1 }).rx.acksOwed > 0
    ∧ State.reset.rx.acksOwed = 0 := by decide

/-! Frames that arrive whole, at the reset state: one of each row, each valid. -/

theorem arrives_at_reset {id : Nat} {p : List Byte} (h : id < 16)
    (hf : markerFree Config.standard ((frameBytes Config.standard id p (crc32 p)).drop 4)) :
    FrameArrives State.reset id p (crc32 p) :=
  ⟨test_reset_inv, rfl, rfl, rfl, rfl, by decide +kernel, h, hf⟩

theorem test_arrives_setColor : FrameArrives State.reset 0 p1 (crc32 p1) :=
  arrives_at_reset (by decide) (by decide +kernel)
theorem test_arrives_breathe : FrameArrives State.reset 1 p2 (crc32 p2) :=
  arrives_at_reset (by decide) (by decide +kernel)
theorem test_arrives_gradient : FrameArrives State.reset 2 p3 (crc32 p3) :=
  arrives_at_reset (by decide) (by decide +kernel)
theorem test_arrives_movingGradient : FrameArrives State.reset 3 p4 (crc32 p4) :=
  arrives_at_reset (by decide) (by decide +kernel)
theorem test_arrives_crossFade : FrameArrives State.reset 4 p5 (crc32 p5) :=
  arrives_at_reset (by decide) (by decide +kernel)
theorem test_arrives_rainbow : FrameArrives State.reset 5 p6 (crc32 p6) :=
  arrives_at_reset (by decide) (by decide +kernel)
theorem test_arrives_fire : FrameArrives State.reset 6 p7 (crc32 p7) :=
  arrives_at_reset (by decide) (by decide +kernel)
theorem test_arrives_twinkle : FrameArrives State.reset 7 p8 (crc32 p8) :=
  arrives_at_reset (by decide) (by decide +kernel)
theorem test_arrives_neuralDrop : FrameArrives State.reset 8 p9 (crc32 p9) :=
  arrives_at_reset (by decide) (by decide +kernel)
theorem test_arrives_waterDrop : FrameArrives State.reset 9 p10 (crc32 p10) :=
  arrives_at_reset (by decide) (by decide +kernel)
theorem test_arrives_startRain : FrameArrives State.reset 10 p11 (crc32 p11) :=
  arrives_at_reset (by decide) (by decide +kernel)
theorem test_arrives_stopRain : FrameArrives State.reset 11 p12 (crc32 p12) :=
  arrives_at_reset (by decide) (by decide +kernel)
theorem test_arrives_status : FrameArrives State.reset 12 p13 (crc32 p13) :=
  arrives_at_reset (by decide) (by decide +kernel)
theorem test_arrives_encodedBuffer : FrameArrives State.reset 13 p14 (crc32 p14) :=
  arrives_at_reset (by decide) (by decide +kernel)
theorem test_arrives_fullBuffer : FrameArrives State.reset 14 p15 (crc32 p15) :=
  arrives_at_reset (by decide) (by decide +kernel)
theorem test_arrives_speedTest : FrameArrives State.reset 15 p16 (crc32 p16) :=
  arrives_at_reset (by decide) (by decide +kernel)

/-- V9 instructs, is well-formed, and arrives. The other rows are in the theorems above. -/
theorem test_witness_WholeFrameGivesOneEvent :
    frameInstr 8 p9 (crc32 p9) = some (.neuralDrop p9 (crc32 p9)) ∧ (Instr.neuralDrop p9 (crc32 p9)).wellFormed = true
    ∧ FrameArrives State.reset 8 p9 (crc32 p9) := ⟨rfl, by decide, test_arrives_neuralDrop⟩

/-- The vectors' payloads are those of FixedCommandsDecode, and fit; `test_arrives_…` is the rest of each clause. -/
theorem test_witness_FixedCommandsDecode :
    p2 = le32 0x40000000#32 ++ le32 0x3F800000#32 ++ le32 0x3F000000#32 ∧ p6 = le32 100#32 ++ le32 0#32
    ∧ p7 = le32 0x425C0000#32 ++ le32 0x42F00000#32 ++ le32 0x41200000#32
    ∧ p8 = le32 5#32 ++ le32 0x40400000#32 ++ le32 0#32 ++ le32 0x00FFFFFF#32 ∧ p9 = le32 3#32
    ∧ p10 = le32 0#32 ++ le32 30#32 ++ le32 0x3E800000#32 ∧ p11 = le32 10#32 ++ le32 0x3F000000#32
    ∧ p12 = [] ∧ p13 = [] ∧ p16 = [] ∧ crc32 [] = 0#32 ∧ 16 ≤ State.reset.cfg.payloadRamBytes := by decide +kernel

/-- And those of VariableCommandsDecode. -/
theorem test_witness_VariableCommandsDecode :
    p1 = le32 3#32 ++ le32 10#32 ++ [0x00FF0000#32].flatMap le32
    ∧ p3 = le32 0xFFFFFFFF#32 ++ le32 0#32 ++ le32 0x3FC00000#32 ++ [0xFF#32, 0x00FF0000#32].flatMap le32
    ∧ p4 = le32 0x3F800000#32 ++ le32 0xBF800000#32 ++ le32 20#32 ++ [0x00FFFFFF#32].flatMap le32
    ∧ p5 = le32 0x40000000#32 ++ [0x000A141E#32].flatMap le32
    ∧ p14 = le32 2#32 ++ le32 3#32 ++ le32 0#32
      ++ ([(4#32, 0x00FF0000#32), (2#32, 0x0000FF00#32)].flatMap fun r => le32 r.1 ++ le32 r.2)
    ∧ p15 = le32 2#32 ++ le32 1#32 ++ le32 0x3F800000#32 ++ [1#32, 2#32].flatMap le32
    ∧ [1#32, 2#32].length = (2#32).toNat * (1#32).toNat ∧ p14.length ≤ State.reset.cfg.payloadRamBytes := by
  decide +kernel

/-- A frame whose bytes fit the FIFO, and more bytes than fit. -/
theorem test_witness_ArrivingBytesAreFedAndDecoded : State.reset.Inv ∧ State.reset.sched = []
    ∧ State.reset.pipe = none ∧ frameInstr 0 p1 0x0EAFF525#32 = some (.setColor p1 0x0EAFF525#32)
    ∧ State.reset.rx.rxq.length + (frameBytes State.reset.cfg 0 p1 0x0EAFF525#32).length ≤ State.reset.cfg.rxbufCap
    ∧ [0x7E#8] = State.reset.pipe.getD [] ++ [0x7E]
    ∧ 1 = min [0x7E#8].length (State.reset.cfg.rxbufCap - State.reset.rx.rxq.length) :=
  ⟨test_reset_inv, rfl, rfl, rfl, by decide +kernel, rfl, by decide +kernel⟩

theorem test_witness_FeedsMaySplitAnywhere : State.reset.Inv
    ∧ State.reset.rx.rxq.length + (v1.take 10).length + (v1.drop 10).length ≤ State.reset.cfg.rxbufCap :=
  ⟨test_reset_inv, by decide +kernel⟩

/-- Also the premises on the frame of MidFrameResyncs and ErrorThenValidFrame. -/
theorem test_witness_SentFrameIsReceived : State.reset.Inv ∧ borderFree State.reset.cfg.marker = true
    ∧ State.reset.tx.txState = .idle ∧ wellFormedCmd State.reset.cfg cmdStatus = true
    ∧ (payloadOf cmdStatus).length ≤ State.reset.cfg.payloadRamBytes
    ∧ markerFree State.reset.cfg ((encodeCmd State.reset.cfg cmdStatus).drop State.reset.cfg.marker.length)
    ∧ State.reset.rx.phase = .seekMarker ∧ State.reset.rx.rxq = []
    ∧ (encodeCmd State.reset.cfg cmdStatus).length ≤ State.reset.cfg.rxbufCap :=
  ⟨test_reset_inv, by decide +kernel, rfl, by decide +kernel, by decide +kernel, by decide +kernel, rfl, rfl,
    by decide +kernel⟩

/-- A receive half in a name of 4 bytes, its FIFO empty: the marker's first 3 bytes leave it in the name. -/
theorem test_witness_MidFrameResyncs :
    ((inName [8, 0xC3, 0xFD, 0xF2] 0).rx.phase ≠ .seekMarker)
    ∧ (rxAt { (inName [8, 0xC3, 0xFD, 0xF2] 0).rx with rxq := [] }).Inv
    ∧ ∃ m, feedAndDecode Config.standard.marker.dropLast
        (rxAt { (inName [8, 0xC3, 0xFD, 0xF2] 0).rx with rxq := [] }) = some ([], m) ∧ m.rx.phase ≠ .seekMarker :=
  ⟨by decide, rxAt_inv (by constructor <;> decide +kernel), _, rfl, by decide +kernel⟩

/-- An unknown name (E3). -/
theorem test_witness_ErrorThenValidFrame :
    ∃ m, feedAndDecode [0x7E, 0x41, 0x44, 0x41, 0x58, 0x00] State.reset = some ([.err .unknownName], m)
      ∧ m.rx.phase = .seekMarker
      ∧ ([0x7E, 0x41, 0x44, 0x41, 0x58, 0x00] ++ encodeCmd State.reset.cfg cmdStatus).length ≤ State.reset.cfg.rxbufCap :=
  ⟨_, rfl, by decide +kernel, by decide +kernel⟩

/-! The send half. -/

/-- A record at the cap, one over it, one not well-formed; a sender that is idle, and one that is not. -/
theorem test_witness_SendRule : (State.resetWith tiny).Inv ∧ (State.resetWith tiny).tx.txState = .idle
    ∧ wellFormedCmd tiny (cmdSetColor 0 0 [1, 2]) = true ∧ (payloadOf (cmdSetColor 0 0 [1, 2])).length = tiny.lenCap
    ∧ wellFormedCmd tiny (cmdSetColor 0 0 [1, 2, 3]) = true
    ∧ (payloadOf (cmdSetColor 0 0 [1, 2, 3])).length > tiny.lenCap
    ∧ wellFormedCmd tiny ⟨1, [0, 0], []⟩ = false ∧ waiting.Inv ∧ waiting.tx.txState ≠ .idle :=
  ⟨test_tiny_inv, rfl, by decide +kernel, by decide +kernel, by decide +kernel, by decide +kernel, by decide +kernel,
    test_waiting_inv, by decide⟩

/-- Nine bytes are left: 8, 9 and 10 are the three clauses. -/
theorem test_witness_WriteStepRule : writing.Inv ∧ writing.tx.txState = .writing
    ∧ 8 < writing.tx.txLen - writing.tx.txPos ∧ 9 = writing.tx.txLen - writing.tx.txPos
    ∧ 10 > writing.tx.txLen - writing.tx.txPos :=
  ⟨test_writing_inv, rfl, by decide, by decide, by decide⟩

theorem test_witness_WritesDeliverTheFrameInOrder : writing.Inv ∧ writing.tx.txState = .writing
    ∧ [4, 0, 5].sum ≤ writing.tx.txLen - writing.tx.txPos ∧ [4, 0, 5].sum = writing.tx.txLen - writing.tx.txPos :=
  ⟨test_writing_inv, rfl, by decide, by decide⟩

/-- A completion, an error and an ordinary line, each alone and as the head of `SC`. -/
theorem test_witness_polls : waiting.Inv ∧ waiting.tx.txState = .waiting ∧ waiting.sc = []
    ∧ waiting.cfg.ackToken <+: [0x4F, 0x4B, 0x41#8] ∧ waiting.cfg.errToken <+: [0x45, 0x52, 0x52, 0x4F, 0x52#8]
    ∧ ¬ waiting.cfg.ackToken <+: [0x45, 0x52, 0x52#8] ∧ ¬ waiting.cfg.errToken <+: [0x45, 0x52, 0x52#8]
    ∧ ∀ l : Line, State.sc { waiting with sc := [l, []] } = [l, []] ∧ (State.sc { waiting with sc := [l, []] }).head? = some l :=
  ⟨test_waiting_inv, rfl, rfl, by decide +kernel, by decide +kernel, by decide +kernel, by decide +kernel,
    fun _ => ⟨rfl, rfl⟩⟩

/-- The three outcomes of PollNull: a poll that is counted, the budget's last, and a watchdog that fires. -/
theorem test_witness_PollNull :
    (txAt { waiting.tx with polls := 999, wdElapsed := 49950 }).Inv
    ∧ (txAt { waiting.tx with polls := 2, wdElapsed := 59951 }).Inv
    ∧ 49950 + Config.standard.pollTimeoutMs ≤ Config.standard.wdCeilingMs
    ∧ 59951 + Config.standard.pollTimeoutMs > Config.standard.wdCeilingMs :=
  ⟨txAt_inv (by constructor <;> decide +kernel), txAt_inv (by constructor <;> decide +kernel), by decide +kernel,
    by decide +kernel⟩

theorem test_witness_DisabledOperations : State.reset.tx.txState ≠ .writing ∧ State.reset.tx.txState ≠ .waiting
    ∧ waiting.tx.txState = .waiting ∧ State.sc { waiting with sc := [[0x4F#8]] } = [0x4F] :: [] ∧ [0x4B#8] ≠ [0x4F] := by
  decide

theorem test_witness_SilenceTimesOut : waiting.Inv ∧ waiting.tx.txState = .waiting ∧ waiting.tx.polls = 0
    ∧ waiting.tx.wdElapsed + waiting.cfg.retryBudget * waiting.cfg.pollTimeoutMs ≤ waiting.cfg.wdCeilingMs :=
  ⟨test_waiting_inv, rfl, rfl, by decide +kernel⟩

/-- A wait that uses up its last poll on an ordinary line. -/
theorem test_witness_WaitIsBounded :
    (txAt { waiting.tx with polls := 999 }).Inv ∧ Config.standard.retryBudget ≤ 999 + [some [0x68#8]].length
    ∧ ∃ t, runOps ([some [0x68#8]].map .poll) (txAt { waiting.tx with polls := 999 }) = some t :=
  ⟨txAt_inv (by constructor <;> decide +kernel), by decide +kernel, _, rfl⟩

theorem test_witness_TimeRule : State.reset.tx.wdArmed = false ∧ waiting.tx.wdArmed = true
    ∧ waiting.tx.wdElapsed + 60000 ≤ waiting.cfg.wdCeilingMs ∧ waiting.tx.wdElapsed + 60001 > waiting.cfg.wdCeilingMs := by
  decide +kernel

theorem test_witness_FatalUntilResetTx : fatal.Inv ∧ fatal.tx.txState = .fatal
    ∧ (∃ t, exec (.time 5) fatal = .next t) ∧ ∃ t, exec .resetTx fatal = .next t :=
  ⟨test_fatal_inv, rfl, ⟨_, rfl⟩, _, rfl⟩

theorem test_witness_SilentDeviceEndsInFatal : waiting.Inv ∧ waiting.cfg.wdClearOn = .ackOnly
    ∧ waiting.tx.wdArmed = true ∧ (∀ i ∈ [Instr.poll none, .time 60001], bringsNoLine i = true)
    ∧ waiting.tx.wdElapsed + timeReported [.poll none, .time 60001] > waiting.cfg.wdCeilingMs
    ∧ ∃ t, runOps [.poll none, .time 60001] waiting = some t :=
  ⟨test_waiting_inv, rfl, rfl, by decide, by decide +kernel, _, rfl⟩

/-- One step for each transition of R37. -/
theorem test_witness_SenderTransitions :
    State.reset.Inv ∧ after (exec (.send cmdStatus) State.reset) (·.tx.txState) = some .writing
    ∧ writing.Inv ∧ after (exec (.writeStep 9) writing) (·.tx.txState) = some .waiting
    ∧ waiting.Inv ∧ after (exec (.poll (some [0x4F, 0x4B])) waiting) (·.tx.txState) = some .idle
    ∧ after (exec (.time 60001) waiting) (·.tx.txState) = some .fatal
    ∧ fatal.Inv ∧ after (exec .resetTx fatal) (·.tx.txState) = some .idle :=
  ⟨test_reset_inv, by decide +kernel, test_writing_inv, by decide +kernel, test_waiting_inv, by decide +kernel,
    by decide +kernel, test_fatal_inv, by decide +kernel⟩

/-- An accepted `SEND`, and a `RESET_TX` of a sender that has a frame. -/
theorem test_witness_SingleFlight :
    after (exec (.send cmdStatus) State.reset) (fun t => decide (t.tx.txLen ≠ 0)) = some true
    ∧ after (exec .resetTx writing) (fun t => decide (t.tx.txLen ≠ 19)) = some true := by decide +kernel

/-- A sender that does not wait, one that waits for the line, and one with a line before it. -/
theorem test_witness_TokenLinesArrive : State.reset.tx.txState ≠ .waiting ∧ waiting.tx.txState = .waiting ∧ waiting.sc = []
    ∧ State.sc { waiting with sc := [[0x68]] } = [0x68#8] :: [] := by
  decide

theorem test_witness_HandshakeCompletes : cmdInstr (cmdNeuralDrop 3) = some (.neuralDrop p9 (crc32 p9))
    ∧ wellFormedCmd waiting.cfg (cmdNeuralDrop 3) = true
    ∧ (payloadOf (cmdNeuralDrop 3)).length ≤ waiting.cfg.payloadRamBytes
    ∧ FrameArrives waiting 8 p9 (crc32 p9) ∧ payloadOf (cmdNeuralDrop 3) = p9
    ∧ waiting.tx.txState = .waiting ∧ waiting.sc = [] :=
  ⟨by decide +kernel, by decide +kernel, by decide +kernel,
    ⟨test_waiting_inv, rfl, rfl, rfl, rfl, by decide +kernel, by decide +kernel, by decide +kernel⟩, by decide +kernel,
    rfl, rfl⟩

theorem test_witness_StaleAcknowledgment : State.Inv { State.reset with sc := [[0x4F, 0x4B]] }
    ∧ State.reset.tx.txState = .idle ∧ wellFormedCmd State.reset.cfg cmdStatus = true
    ∧ (payloadOf cmdStatus).length ≤ State.reset.cfg.lenCap ∧ State.reset.cfg.ackToken <+: [0x4F#8, 0x4B] :=
  ⟨⟨test_reset_inv.rx, test_reset_inv.tx⟩, rfl, by decide +kernel, by decide +kernel, by decide +kernel⟩

/-- One operation of each half that answers a next state, and states that agree with the reset state in what
concerns that half, and in nothing else. -/
theorem test_witness_HalvesShareNoState :
    (∃ t, exec (.send cmdStatus) State.reset = .next t) ∧ (∃ t, exec (.feed [0x7E]) State.reset = .next t)
    ∧ (State.tx { inName [0x58] 0x00 with pipe := some [0x55] } = State.reset.tx
      ∧ State.sc { inName [0x58] 0x00 with pipe := some [0x55] } = State.reset.sc
      ∧ State.held { inName [0x58] 0x00 with pipe := some [0x55] } = State.reset.held
      ∧ (inName [0x58] 0x00).cfg = State.reset.cfg)
    ∧ State.rx { waiting with sc := [[0x68]] } = State.reset.rx ∧ State.pipe { waiting with sc := [[0x68]] } = State.reset.pipe
    ∧ State.cfg { waiting with sc := [[0x68]] } = State.reset.cfg :=
  ⟨⟨_, rfl⟩, ⟨_, rfl⟩, ⟨rfl, rfl, rfl, rfl⟩, rfl, rfl, rfl⟩

/-- A step that takes no byte, one that takes one, a reset of the receive half, and one that polls. -/
theorem test_witness_OneActionAStep :
    (∃ t, step (presented (.port (.feed [0x7E]))) = .next t)
    ∧ (∃ t, step { inName [0x58] 0x00 with reqs := [.port .decode] } = .next t)
    ∧ (∃ t, step (presented (.port .resetRx)) = .next t)
    ∧ ∃ t, step { waiting with reqs := [.port (.poll none)] } = .next t :=
  ⟨⟨_, rfl⟩, ⟨_, rfl⟩, ⟨_, rfl⟩, _, rfl⟩

theorem test_witness_StepKeepsInv : (presented (.port (.feed [0x7E]))).Inv
    ∧ ∃ t, step (presented (.port (.feed [0x7E]))) = .next t :=
  ⟨⟨test_reset_inv.rx, test_reset_inv.tx⟩, _, rfl⟩

/-- A request that decodes, a held request before a sender that is ready and one that is not, nothing to do, a
`DECODE` in progress; and bytes that arrive: with room, with a full FIFO, and none left. -/
theorem test_witness_StepRunsTheDecodedInstruction : State.reset.sched = [] ∧ State.reset.pipe = none
    ∧ (presented (.pipe v1)).rx.decoding = false ∧ (presented (.pipe v1)).reqs = .pipe v1 :: []
    ∧ Sys2Proof.decode State.reset.cfg (.pipe v1) = .ok (.setColor p1 0x0EAFF525#32)
    ∧ (State.held { State.reset with held := [cmdStatus] } = cmdStatus :: [] ∧ State.reset.tx.txState = .idle)
    ∧ (State.held { waiting with held := [cmdStatus] } = cmdStatus :: [] ∧ waiting.tx.txState ≠ .idle)
    ∧ State.reset.reqs = [] ∧ State.reset.held = []
    ∧ (rxAt { RxRegs.reset with decoding := true }).rx.decoding = true
    ∧ State.reset.rx.rxq.length < State.reset.cfg.rxbufCap
    ∧ State.reset.cfg.rxbufCap ≤ (rxAt { RxRegs.reset with rxq := List.replicate 1024 0 }).rx.rxq.length
    ∧ (∀ bs, State.pipe { State.reset with pipe := some bs } = some bs)
    ∧ (inName [0x58] 0x00).rx.rxq ≠ [] ∧ State.reset.rx.rxq = [] :=
  ⟨rfl, rfl, rfl, rfl, test_decode_setColor, ⟨rfl, rfl⟩, ⟨rfl, by decide⟩, rfl, rfl, rfl, by decide +kernel,
    by decide +kernel, fun _ => rfl, by decide, rfl⟩

/-- Bytes that are no frame; an ordinary line, before a sender that waits and one that does not; a line that
arrives, a held request; and the next request served, while bytes arrive or in between. -/
theorem test_witness_StepServesTheEnvironment :
    State.reset.sched = [] ∧ State.reset.rx.decoding = false ∧ State.reset.pipe = none
    ∧ Sys2Proof.decode State.reset.cfg (.pipe [0x55]) = .error .noMarker ∧ lineClean [0x68#8, 0x69] = true
    ∧ (presented (.pipe [0x55])).reqs = .pipe [0x55] :: []
    ∧ (presented (.side (lineBytes [0x68, 0x69]))).reqs = .side (lineBytes [0x68, 0x69]) :: []
    ∧ State.reqs { waiting with reqs := [.side (lineBytes [0x68, 0x69])] } = .side (lineBytes [0x68, 0x69]) :: []
    ∧ ¬ State.reset.cfg.ackToken <+: [0x68#8, 0x69] ∧ ¬ State.reset.cfg.errToken <+: [0x68#8, 0x69]
    ∧ State.reset.tx.txState ≠ .waiting ∧ waiting.tx.txState = .waiting
    ∧ waiting.sc ++ [[0x68#8, 0x69]] = [0x68, 0x69] :: []
    ∧ (∀ l ts, State.sched { State.reset with sched := .arrive l :: ts } = .arrive l :: ts)
    ∧ (State.held { State.reset with held := [cmdStatus] })[0]? = some cmdStatus ∧ State.reset.tx.txState = .idle
    ∧ (∀ ts, State.sched { presented (.pipe v1) with sched := .serve :: ts, pipe := some [0x7E] } = .serve :: ts)
    ∧ Sys2Proof.decode State.reset.cfg (.pipe v1) = .ok (.setColor p1 0x0EAFF525#32)
    ∧ (∀ ts, State.sched { presented (.port .resetRx) with sched := .serve :: ts } = .serve :: ts)
    ∧ (presented (.port .resetRx)).reqs = .port .resetRx :: []
    ∧ Sys2Proof.decode State.reset.cfg (.port .resetRx) = .ok .resetRx
    ∧ Sys2Proof.decode State.reset.cfg (.port .drain) = .ok .drain
    ∧ (midDecode .proceed .resetRx).sched = .proceed :: [.serve] ∧ (midDecode .serve .drain).sched = .serve :: [.serve]
    ∧ (midDecode .serve .drain).rx.decoding = true ∧ (midDecode .serve .drain).pipe = none
    ∧ (midDecode .serve .drain).reqs = .port .drain :: [] :=
  ⟨rfl, rfl, rfl, by decide +kernel, by decide, rfl, rfl, rfl, by decide +kernel, by decide +kernel, by decide, rfl, rfl,
    fun _ _ => rfl, rfl, rfl, fun _ => rfl, test_decode_setColor, fun _ => rfl, rfl, rfl, rfl, rfl, rfl, rfl, rfl, rfl⟩

end Sys2Proof.Tests
end

section
/-! PROOFS. Little-endian fields and legal configurations (00_scope R5, R9). -/

namespace Sys2Proof

/-! ### Little-endian fields (R9) -/

/-- A byte cut out of a word is the word divided by the weight of that byte's place. -/
theorem extractLsb'_byte_eq (v : Word) (k : Nat) : v.extractLsb' k 8 = BitVec.ofNat 8 (v.toNat / 2 ^ k) := by
  rw [← Nat.shiftRight_eq_div_pow]
  rfl

/-- A vector put above another weighs `2 ^ m` more, `m` being the lower one's width. -/
theorem toNat_append_eq_add {n m : Nat} (x : BitVec n) (y : BitVec m) :
    (x ++ y).toNat = 2 ^ m * x.toNat + y.toNat := by
  rw [BitVec.toNat_append, ← Nat.shiftLeft_add_eq_or_of_lt y.isLt, Nat.shiftLeft_eq, Nat.mul_comm]

theorem word4_toNat (b0 b1 b2 b3 : Byte) :
    (word4 b0 b1 b2 b3).toNat
      = b0.toNat + 2 ^ 8 * b1.toNat + 2 ^ 16 * b2.toNat + 2 ^ 24 * b3.toNat := by
  simp only [word4, toNat_append_eq_add]
  omega

/-- Settles O5: the bytes of `LE32` by division, the value of `U32LE` by its place weights, and the round trip. -/
theorem littleEndianFields : Obligations.LittleEndianFields := by
  unfold Obligations.LittleEndianFields
  refine ⟨fun v => ?_, fun s i _ => word4_toNat _ _ _ _, word4_extract⟩
  simp only [le32, extractLsb'_byte_eq, Nat.pow_zero, Nat.div_one]

/-! ### Legal configurations (R5) -/

/-- A name is written between the marker and a `00` (R80): not empty, short enough, and without a `00`. -/
theorem names_legal_iff (p : Params) :
    p.nameTable.all (fun e => e.name ≠ [] && decide (e.name.length ≤ p.nameMax) && !e.name.contains 0#8) = true
      ↔ ∀ e ∈ p.nameTable, e.name ≠ [] ∧ e.name.length ≤ p.nameMax ∧ 0x00#8 ∉ e.name := by
  simp [and_assoc]

/-- No line terminator stands in a token. -/
theorem token_bytes_legal_iff (p : Params) :
    (p.ackToken ++ p.errToken).all (fun b => b ≠ 0x0A#8 && b ≠ 0x0D#8) = true
      ↔ ∀ b ∈ p.ackToken ++ p.errToken, b ≠ 0x0A#8 ∧ b ≠ 0x0D#8 := by
  simp only [List.all_eq_true, Bool.and_eq_true, decide_eq_true_eq]

theorem not_isPrefixOf_iff (a b : List Byte) : (!a.isPrefixOf b) = true ↔ ¬ a <+: b := by
  rw [Bool.not_eq_true', ← Bool.not_eq_true, List.isPrefixOf_iff_prefix]

/-- The check of legality is R5's list of constraints, conjunct by conjunct. -/
theorem Params.legal_iff (p : Params) :
    p.legal = true ↔
      (p.marker ≠ [] ∧ 1 ≤ p.payloadRamBytes ∧ p.payloadRamBytes ≤ p.lenCap ∧ p.lenCap < 2 ^ 32
        ∧ (∀ e ∈ p.nameTable, e.name ≠ [] ∧ e.name.length ≤ p.nameMax ∧ 0x00#8 ∉ e.name)
        ∧ (p.nameTable.map (·.name)).Nodup
        ∧ p.ackToken ≠ [] ∧ p.errToken ≠ [] ∧ ¬ p.ackToken <+: p.errToken ∧ ¬ p.errToken <+: p.ackToken
        ∧ (∀ b ∈ p.ackToken ++ p.errToken, b ≠ 0x0A#8 ∧ b ≠ 0x0D#8)
        ∧ 1 ≤ p.rxbufCap ∧ 1 ≤ p.retryBudget ∧ 1 ≤ p.pollTimeoutMs
        ∧ (p.nameTable.map (·.cls)).take 16 = (standardTable.map (·.cls)).take p.nameTable.length) := by
  rw [Params.legal]
  simp only [Bool.and_eq_true, names_legal_iff, token_bytes_legal_iff, not_isPrefixOf_iff,
    decide_eq_true_eq, and_assoc]

/-- Building succeeds exactly on legal parameters, and keeps them. -/
theorem Config.build_eq_some_iff (p : Params) :
    (∃ c, Config.build p = some c ∧ c.toParams = p) ↔ p.legal = true := by
  constructor
  · rintro ⟨c, -, rfl⟩
    exact c.isLegal
  · intro h
    exact ⟨⟨p, h⟩, by simp [Config.build, h], rfl⟩

/-- Settles O53: only legal parameters are built, and legal are those that meet R5's list. -/
theorem illegalConfigurationsAreRefused : Obligations.IllegalConfigurationsAreRefused := by
  unfold Obligations.IllegalConfigurationsAreRefused
  exact fun p => (Config.build_eq_some_iff p).trans p.legal_iff

end Sys2Proof
end

section
/-! PROOFS. Bytes that arrive on the byte pipe (00_scope R11, 10_state R50, 40_rx_parser R110, R111; log 5). -/

namespace Sys2Proof.Machine

/-- Every frame instruction is the arrival of its variant's bytes: a frame means what `frameArrives` says. -/
theorem exec_frame {id : Nat} {p : List Byte} {crc : Word} {i : Instr} (h : frameInstr id p crc = some i)
    (s : State) : exec i s = .next (pipeArrives (frameBytes s.cfg id p crc) s) := by
  unfold frameInstr at h
  split at h <;> cases h <;> rfl

/-- The arrival of bytes, written out: the whole next state. -/
theorem pipeArrives_eq (bytes : List Byte) (s : State) :
    pipeArrives bytes s = { s with
      rx := { s.rx with
        rxq := s.rx.rxq ++ (s.pipe.getD [] ++ bytes).take (feedRoom (s.pipe.getD [] ++ bytes) s) }
      pipe := some ((s.pipe.getD [] ++ bytes).drop (feedRoom (s.pipe.getD [] ++ bytes) s))
      out := [.feedCount (feedRoom (s.pipe.getD [] ++ bytes) s)] } := rfl

/-- `FEED` of bytes that fit and `DECODE` until `INCOMPLETE` end where an arrival of them ends. -/
theorem feedAndDecode_arrived {bytes : List Byte} {s : State} {r : RxRegs} {es : List Event}
    (hp : s.pipe = none) (hfit : s.rx.rxq.length + bytes.length ≤ s.cfg.rxbufCap)
    (h : runRx s.cfg (s.rx.rxq ++ bytes) s.rx = some (r, es)) :
    feedAndDecode bytes s = some (es, arrived r es s) := by
  rw [feedAndDecode_run hfit h, arrived, ← hp]

/-- Settles O28: the parser takes any bytes from a state of the invariant, and the machine's steps and `DECODE`
until `INCOMPLETE` are both its run. -/
theorem arrivingBytesAreFedAndDecoded : Obligations.ArrivingBytesAreFedAndDecoded := by
  unfold Obligations.ArrivingBytesAreFedAndDecoded
  refine ⟨fun s id p crc i h => exec_frame h s, ?_, ?_⟩
  · rintro s bytes all k rfl rfl
    exact pipeArrives_eq bytes s
  · intro s bytes hinv hsched hpipe
    obtain ⟨r, es, hrun, -⟩ := runRx_inv hinv.rx (s.rx.rxq ++ bytes)
    obtain ⟨n, hn⟩ := pipeArrives_run hsched hpipe hrun
    exact ⟨r, es, hrun, ⟨n, hn []⟩, fun hfit => feedAndDecode_arrived hpipe hfit hrun⟩

end Sys2Proof.Machine
end

section
/-! PROOFS. What one step of the machine can do (00_scope R11, 40_rx_parser R111, 43_ack_handshake R201). -/

namespace Sys2Proof.Machine

/-! ### What a step may do, as predicates of their own -/

/-- What one step may make of the receive half of `s`: no byte passes the parser; or one byte leaves the FIFO and
passes it; or the half is reset. -/
def RxAction (s : State) (rx : RxRegs) : Prop :=
  (∃ q a d, rx = { s.rx with rxq := q, acksOwed := a, decoding := d }
      ∧ ((∃ bytes, q = s.rx.rxq ++ bytes) ∨ q = []))
  ∨ (∃ b q r ev, s.rx.rxq = b :: q ∧ byteStep s.cfg b s.rx = .ok (r, ev)
      ∧ rx = { r with rxq := q, decoding := ev.isNone })
  ∨ ∃ u, exec .resetRx s = .next u ∧ rx = u.rx

/-- What one step from `s` to `t` may do: one action of the receive half, one event, one poll. -/
structure OneAction (s t : State) : Prop where
  rx : RxAction s t.rx
  events : (eventsOf t.out).length ≤ 1
  reads : t.out.count (.sinkReadline s.cfg.pollTimeoutMs) ≤ 1
  polls : t.tx.polls ≤ s.tx.polls + 1

/-- A receive half that is left as it is. -/
theorem RxAction.refl (s : State) : RxAction s s.rx :=
  .inl ⟨s.rx.rxq, s.rx.acksOwed, s.rx.decoding, rfl, .inl ⟨[], by simp⟩⟩

/-- The reset of the receive half reads nothing else of the state. -/
theorem exec_resetRx_congr {s s' u : State} (hrx : s'.rx = s.rx) (h : exec .resetRx s' = .next u) :
    ∃ v, exec .resetRx s = .next v ∧ u.rx = v.rx := by
  cases h
  exact ⟨_, rfl, by rw [hrx]⟩

/-- What one step may do is said of the configuration and the two halves only: what the environment holds, and
what of it the step has taken up, does not matter. -/
theorem OneAction.of_halves {s s' t : State} (h : OneAction s' t) (hcfg : s'.cfg = s.cfg) (hrx : s'.rx = s.rx)
    (htx : s'.tx = s.tx) : OneAction s t where
  rx := by
    rcases h.rx with h | h | ⟨u, hu, ht⟩
    · exact .inl (by rwa [hrx] at h)
    · exact .inr (.inl (by rwa [hrx, hcfg] at h))
    · obtain ⟨v, hv, huv⟩ := exec_resetRx_congr hrx hu
      exact .inr (.inr ⟨v, hv, ht.trans huv⟩)
  events := h.events
  reads := hcfg ▸ h.reads
  polls := htx ▸ h.polls

/-! ### What the ports carry -/

/-- A port output that is neither an event of the parser nor a poll. -/
@[simp] def PortOut.plain : PortOut → Bool
  | .event _ | .sinkReadline _ => false
  | _ => true

theorem eventsOf_plain {os : List PortOut} (h : ∀ o ∈ os, o.plain = true) : eventsOf os = [] := by
  refine List.filterMap_eq_nil_iff.2 fun o ho => ?_
  cases o with
  | event e => exact absurd (h _ ho) (by simp)
  | _ => rfl

theorem count_sinkReadline_plain {os : List PortOut} (h : ∀ o ∈ os, o.plain = true) (ms : Nat) :
    os.count (.sinkReadline ms) = 0 :=
  List.count_eq_zero.2 fun hm => absurd (h _ hm) (by simp)

/-- A step of the receive half without an event, or of the send half without a poll. -/
theorem OneAction.of_plain {s t : State} (hrx : RxAction s t.rx) (hout : ∀ o ∈ t.out, o.plain = true)
    (hpolls : t.tx.polls ≤ s.tx.polls + 1) : OneAction s t where
  rx := hrx
  events := by simp [eventsOf_plain hout]
  reads := by simp [count_sinkReadline_plain hout]
  polls := hpolls

/-! ### The receive half -/

/-- The FIFO takes bytes at its end (R110). -/
theorem pipeOffer_oneAction (bytes : List Byte) (s : State) : OneAction s (pipeOffer bytes s) :=
  .of_plain (.inl ⟨_, _, _, rfl, .inl ⟨_, rfl⟩⟩) (by simp) (Nat.le_succ _)

/-- All that a step of `DECODE` can do (R111): `INCOMPLETE` on an empty FIFO, else one byte taken. -/
theorem exec_decode_cases {s t : State} (h : exec .decode s = .next t) :
    (s.rx.rxq = [] ∧ t = { s with rx := { s.rx with decoding := false }, out := [.incomplete] })
    ∨ ∃ b q r ev, s.rx.rxq = b :: q ∧ byteStep s.cfg b s.rx = .ok (r, ev) ∧ t = byteTaken q r ev s := by
  cases hq : s.rx.rxq with
  | nil =>
    simp only [exec, execDecode, hq] at h
    cases h
    refine .inl ⟨rfl, ?_⟩
    rw [← hq]
    rfl
  | cons b q =>
    cases hb : byteStep s.cfg b s.rx with
    | ok x =>
      rw [exec_decode_byte hq hb] at h
      cases h
      exact .inr ⟨b, q, x.1, x.2, rfl, hb, rfl⟩
    | error f =>
      -- the byte step does not read the FIFO, so it faults without its first byte too
      simp only [exec, execDecode, hq] at h
      split at h
      · cases h
      · rename_i u ev hr
        obtain ⟨r, hr, -⟩ := receiveByte_ok hr
        have hok := byteStep_with_queue s.rx.rxq s.rx.decoding hr
        exact absurd (hb.symm.trans hok) (by simp)

/-- The response to an event is that event, and at most a line (R211). -/
theorem sinkReadline_not_response (c : Config) (e : Event) (ms : Nat) :
    PortOut.sinkReadline ms ∉ responsePorts c e := by
  cases e with
  | frameOk _ => simp [responsePorts]
  | err k => cases k <;> simp [responsePorts]

theorem byteTaken_oneAction {s : State} {b : Byte} {q : List Byte} {r : RxRegs} {ev : Option Event}
    (hq : s.rx.rxq = b :: q) (h : byteStep s.cfg b s.rx = .ok (r, ev)) : OneAction s (byteTaken q r ev s) where
  rx := .inr (.inl ⟨b, q, r, ev, hq, h, rfl⟩)
  events := by
    rw [eventsOf_byteTaken]
    cases ev <;> simp
  reads := by
    cases ev with
    | none => simp [byteTaken]
    | some e => simp [byteTaken, List.count_eq_zero.2 (sinkReadline_not_response _ _ _)]
  polls := Nat.le_succ _

theorem exec_decode_oneAction {s t : State} (h : exec .decode s = .next t) : OneAction s t := by
  rcases exec_decode_cases h with ⟨hq, rfl⟩ | ⟨b, q, r, ev, hq, hb, rfl⟩
  · exact .of_plain (.inl ⟨[], _, false, by rw [← hq], .inr rfl⟩) (by simp) (Nat.le_succ _)
  · exact byteTaken_oneAction hq hb

theorem execCmdDone_oneAction {s t : State} (h : execCmdDone s = .next t) : OneAction s t := by
  rw [execCmdDone] at h
  split at h <;> cases h
  · exact .of_plain (.inl ⟨_, _, _, rfl, .inl ⟨[], by simp⟩⟩) (by simp) (Nat.le_succ _)
  · exact .of_plain (.refl s) (by simp) (Nat.le_succ _)

/-! ### The send half -/

/-- The watchdog counts no poll, and drives at most an outcome (R240, R241). -/
theorem watchdogAdvance_plain (d : Nat) (s : State) :
    (watchdogAdvance d s).tx.polls = s.tx.polls
    ∧ ∃ os, (watchdogAdvance d s).out = s.out ++ os ∧ ∀ o ∈ os, o.plain = true := by
  rcases watchdogAdvance_cases d s with ⟨-, e⟩ | ⟨-, -, e⟩ | ⟨-, -, e⟩ <;> rw [e]
  · exact ⟨rfl, [], by simp⟩
  · exact ⟨rfl, [], by simp⟩
  · exact ⟨rfl, [.outcome .wdFatal], rfl, by simp⟩

/-- A poll is counted once, whatever its answer ends, and the ports carry at most the outcome and the flush
(R201 to R205). -/
theorem countPoll_plain (ans : Option Line) (s : State) :
    (countPoll ans s).rx = s.rx ∧ (countPoll ans s).tx.polls = s.tx.polls + 1
    ∧ ∃ os, (countPoll ans s).out = s.out ++ os ∧ ∀ o ∈ os, o.plain = true := by
  have hgoes : ∃ os, s.out = s.out ++ os ∧ ∀ o ∈ os, o.plain = true := ⟨[], by simp⟩
  have hends : ∀ o, ∃ os, s.out ++ [.outcome o] = s.out ++ os ∧ ∀ o ∈ os, o.plain = true :=
    fun o => ⟨_, rfl, by simp⟩
  cases ans with
  | none =>
    simp only [countPoll]
    split
    · exact ⟨rfl, rfl, hends .ackTimeout⟩
    · exact ⟨rfl, rfl, hgoes⟩
  | some l =>
    simp only [countPoll]
    split
    · exact ⟨rfl, rfl, hends .ackOk⟩
    · split
      · exact ⟨rfl, rfl, [.outcome .ackError, .scFlush], by simp, by simp⟩
      · split
        · exact ⟨rfl, rfl, hends .ackTimeout⟩
        · exact ⟨rfl, rfl, hgoes⟩

/-- One answered poll: one `SINK_READLINE`, counted at most once (R201; a fire comes before the count). -/
theorem pollAnswered_plain (ans : Option Line) (s : State) :
    (pollAnswered ans s).rx = s.rx ∧ (pollAnswered ans s).tx.polls ≤ s.tx.polls + 1
    ∧ ∃ os, (pollAnswered ans s).out = s.out ++ .sinkReadline s.cfg.pollTimeoutMs :: os
      ∧ ∀ o ∈ os, o.plain = true := by
  cases ans with
  | some l =>
    obtain ⟨hrx, hpolls, os, hout, hos⟩ := countPoll_plain (some l) (s.emit (.sinkReadline s.cfg.pollTimeoutMs))
    exact ⟨hrx, hpolls.le, os, hout.trans (by simp), hos⟩
  | none =>
    obtain ⟨hp, ws, hw, hws⟩ :=
      watchdogAdvance_plain s.cfg.pollTimeoutMs (s.emit (.sinkReadline s.cfg.pollTimeoutMs))
    have hr := watchdogAdvance_rx s.cfg.pollTimeoutMs (s.emit (.sinkReadline s.cfg.pollTimeoutMs))
    rw [pollAnswered_none]
    generalize watchdogAdvance s.cfg.pollTimeoutMs (s.emit (.sinkReadline s.cfg.pollTimeoutMs)) = w at *
    split
    · exact ⟨hr, hp.le.trans (Nat.le_succ _), ws, by simpa using hw, hws⟩
    · obtain ⟨hrx, hpolls, os, hout, hos⟩ := countPoll_plain none w
      refine ⟨hrx.trans hr, by simp [hpolls, hp], ws ++ os, by simp [hout, hw], fun o ho => ?_⟩
      exact (List.mem_append.1 ho).elim (hws o) (hos o)

/-- A poll on ports that carry nothing yet. -/
theorem pollAnswered_oneAction (ans : Option Line) {s : State} (h : s.out = []) :
    OneAction s (pollAnswered ans s) := by
  obtain ⟨hrx, hpolls, os, hout, hos⟩ := pollAnswered_plain ans s
  rw [h, List.nil_append] at hout
  exact {
    rx := hrx ▸ .refl s
    events := by
      have hread : eventsOf (pollAnswered ans s).out = eventsOf os := by rw [hout]; rfl
      simp [hread, eventsOf_plain hos]
    reads := by simp [hout, count_sinkReadline_plain hos]
    polls := hpolls }

theorem lineArrives_oneAction (l : Line) (s : State) : OneAction s (lineArrives l s) := by
  rcases lineArrives_eq l s with ⟨-, e⟩ | ⟨-, e⟩ <;> rw [e]
  · exact .of_plain (.refl s) (by simp) (Nat.le_succ _)
  · exact (pollAnswered_oneAction _ (s := { s.clearOut with sc := (s.sc ++ [l]).tail }) rfl).of_halves rfl rfl rfl

theorem execSend_oneAction {cmd : Cmd} {s t : State} (h : execSend cmd s = .next t) : OneAction s t := by
  simp only [execSend] at h
  split at h
  · cases h
    exact .of_plain (.refl s) (by simp) (Nat.le_succ _)
  · split at h
    · cases h
      exact .of_plain (.refl s) (by simp) (Nat.le_succ _)
    · split at h
      · cases h
        exact .of_plain (.refl s) (by simp) (Nat.le_succ _)
      · split at h <;> cases h
        exact .of_plain (.refl s) (by simp [beginWrite]) (Nat.zero_le _)

theorem execWriteStep_oneAction {n : Nat} {s t : State} (h : execWriteStep n s = .next t) : OneAction s t := by
  simp only [execWriteStep] at h
  split at h
  · cases h
    exact .of_plain (.refl s) (by simp) (Nat.le_succ _)
  · split at h
    · cases h
    · split at h
      · cases h
      · split at h <;> cases h
        · exact .of_plain (.refl s) (by simp) (Nat.zero_le _)
        · exact .of_plain (.refl s) (by simp) (Nat.le_succ _)

theorem execPoll_oneAction {ans : Option Line} {s t : State} (h : execPoll ans s = .next t) : OneAction s t := by
  simp only [execPoll] at h
  split at h
  · cases h
    exact .of_plain (.refl s) (by simp) (Nat.le_succ _)
  · split at h
    · cases h
      exact (pollAnswered_oneAction _ (s := s.clearOut) rfl).of_halves rfl rfl rfl
    · cases h
      exact (pollAnswered_oneAction _ (s := s.clearOut) rfl).of_halves rfl rfl rfl
    · split at h <;> cases h
      exact (pollAnswered_oneAction _ (s := { s.clearOut with sc := _ }) rfl).of_halves rfl rfl rfl

theorem execTime_oneAction (d : Nat) (s : State) : OneAction s (watchdogAdvance d s.clearOut) := by
  obtain ⟨hp, os, hout, hos⟩ := watchdogAdvance_plain d s.clearOut
  rw [State.clearOut_out, List.nil_append] at hout
  exact .of_plain (watchdogAdvance_rx d s.clearOut ▸ .refl s) (hout ▸ hos) (hp.le.trans (Nat.le_succ _))

/-! ### Every instruction, and every step -/

theorem exec_oneAction {i : Instr} {s t : State} (h : exec i s = .next t) : OneAction s t := by
  cases i with
  | setColor p crc | breathe p crc | gradient p crc | movingGradient p crc | crossFade p crc | rainbow p crc
  | fire p crc | twinkle p crc | neuralDrop p crc | waterDrop p crc | startRain p crc | stopRain p crc
  | status p crc | encodedBuffer p crc | fullBuffer p crc | speedTest p crc =>
    cases h
    exact pipeOffer_oneAction _ s
  | feed bytes =>
    cases h
    exact .of_plain (.inl ⟨_, _, _, rfl, .inl ⟨_, rfl⟩⟩) (by simp) (Nat.le_succ _)
  | decode => exact exec_decode_oneAction h
  | drain =>
    cases h
    exact .of_plain (.inl ⟨[], _, _, rfl, .inr rfl⟩) (by simp) (Nat.le_succ _)
  | cmdDone => exact execCmdDone_oneAction h
  | resetRx =>
    have ht := h
    cases ht
    exact .of_plain (.inr (.inr ⟨_, h, rfl⟩)) (by simp) (Nat.le_succ _)
  | send cmd => exact execSend_oneAction h
  | writeStep n => exact execWriteStep_oneAction h
  | poll ans => exact execPoll_oneAction h
  | time d =>
    cases h
    exact execTime_oneAction d s
  | resetTx =>
    cases h
    exact .of_plain (.refl s) (by simp) (Nat.zero_le _)
  | ackLine rest | errLine rest =>
    cases h
    exact lineArrives_oneAction _ s

/-- A step in which neither half does anything. -/
theorem clearOut_oneAction (s : State) : OneAction s s.clearOut :=
  .of_plain (.refl s) (by simp) (Nat.le_succ _)

theorem present_oneAction {r : Request} {s t : State} (h : present r s = .next t) : OneAction s t := by
  unfold present at h
  split at h
  · exact exec_oneAction h
  · cases h
    exact pipeOffer_oneAction _ s
  · split at h <;> cases h
    exact lineArrives_oneAction _ s
  · cases h

theorem retryHeld_oneAction {k : Nat} {s t : State} (h : retryHeld k s = .next t) : OneAction s t := by
  rw [retryHeld] at h
  split at h
  · split at h
    · exact (exec_oneAction h).of_halves rfl rfl rfl
    · cases h
      exact clearOut_oneAction s
  · cases h
    exact clearOut_oneAction s

theorem serveNext_oneAction {s t : State} (h : serveNext s = .next t) : OneAction s t := by
  rw [serveNext] at h
  split at h
  · exact (present_oneAction h).of_halves rfl rfl rfl
  · exact retryHeld_oneAction h

theorem pipeTurn_oneAction {s t : State} (h : pipeTurn s = .next t) : OneAction s t := by
  rw [pipeTurn] at h
  split at h
  · split at h
    · cases h
      exact pipeOffer_oneAction _ s
    · exact exec_oneAction h
  · split at h
    · exact (exec_oneAction h).of_halves rfl rfl rfl
    · exact exec_oneAction h
  · exact exec_oneAction h

theorem stepDefault_oneAction {s t : State} (h : stepDefault s = .next t) : OneAction s t := by
  rw [stepDefault] at h
  split at h
  · exact pipeTurn_oneAction h
  · exact serveNext_oneAction h

theorem stepTurn_oneAction {τ : Turn} {s t : State} (h : stepTurn τ s = .next t) : OneAction s t := by
  cases τ with
  | serve =>
    simp only [stepTurn] at h
    split at h
    · exact stepDefault_oneAction h
    · exact serveNext_oneAction h
  | proceed => exact stepDefault_oneAction h
  | retry k => exact retryHeld_oneAction h
  | arrive l =>
    cases h
    exact .of_plain (.refl s) (by simp) (Nat.le_succ _)

theorem step_oneAction {s t : State} (h : step s = .next t) : OneAction s t := by
  rw [step, nextStep] at h
  split at h
  · exact stepDefault_oneAction h
  · exact (stepTurn_oneAction h).of_halves rfl rfl rfl

/-- Settles O22: each step is one instruction, one offer of the pipe, one arrival on the side channel or nothing,
and each of these does one thing. -/
theorem oneActionAStep : Obligations.OneActionAStep := by
  unfold Obligations.OneActionAStep
  intro s t h
  obtain ⟨hrx, hevents, hreads, hpolls⟩ := step_oneAction h
  exact ⟨hrx, hevents, hreads, hpolls⟩

end Sys2Proof.Machine
end

section
/-! PROOFS. The encodings of the control registers and the status outputs (10_state R22, R36, R46, 60_exceptions
R231, R232). -/

namespace Sys2Proof.Machine

/-! ### The status outputs (R46) -/

@[simp] theorem State.rxInFrame_iff (s : State) : s.rxInFrame = true ↔ s.rx.phase ≠ .seekMarker := by
  rw [State.rxInFrame, decide_eq_true_iff]

@[simp] theorem State.txReady_iff (s : State) : s.txReady = true ↔ s.tx.txState = .idle := by
  rw [State.txReady, decide_eq_true_iff]

@[simp] theorem State.fatalOut_iff (s : State) : s.fatalOut = true ↔ s.tx.txState = .fatal := by
  rw [State.fatalOut, decide_eq_true_iff]

/-! ### The error lines (R93) -/

/-- The default error line of an error, written out: the token, a space, the two digits of its code, and `0A`. -/
theorem wireLine_errorLine_standard (e : RxError) :
    wireLine (errorLine Config.standard e)
      = [0x45, 0x52, 0x52, 0x4F, 0x52, 0x20, hexDigit (e.code.toNat / 16), hexDigit (e.code.toNat % 16), 0x0A] :=
  rfl

/-- Settles O55: the codes are read off the tables, the error lines off their digits, and each status output is
a function of the state. -/
theorem codesAndStatusOutputs : Obligations.CodesAndStatusOutputs := by
  unfold Obligations.CodesAndStatusOutputs
  refine ⟨?phase, ?txState, ?errors, ?outcomes, ?lines, fun s => ?status, ?atReset⟩
  case phase => exact ⟨rfl, rfl, rfl, rfl, rfl⟩
  case txState => exact ⟨rfl, rfl, rfl, rfl⟩
  case errors => exact ⟨rfl, rfl, rfl, rfl, rfl, rfl, rfl⟩
  case outcomes => exact ⟨rfl, rfl, rfl, rfl, rfl, rfl, rfl⟩
  case lines =>
    rintro line rfl
    simp only [Function.comp_apply, wireLine_errorLine_standard]
    exact ⟨rfl, rfl, rfl, rfl, rfl, rfl⟩
  case status => exact ⟨s.rxInFrame_iff, rfl, s.txReady_iff, s.fatalOut_iff⟩
  case atReset => exact ⟨rfl, rfl, rfl, rfl⟩

end Sys2Proof.Machine
end

section
/-! PROOFS. What the machine serves in a step (10_state R50, 40_rx_parser R111, 43_ack_handshake R207; logs 4, 5,
6, 8, 20, 21): which instruction, or which arrival. -/

namespace Sys2Proof.Machine

/-! ### What a step turns to -/

theorem step_of_sched_nil {s : State} (h : s.sched = []) : step s = stepDefault s := by
  rw [step, nextStep, h]

theorem step_of_sched_cons {s : State} {τ : Turn} {ts : List Turn} (h : s.sched = τ :: ts) :
    step s = stepTurn τ { s with sched := ts } := by
  rw [step, nextStep, h]

/-- With no `DECODE` in progress and no bytes that arrive, the next request is served. -/
theorem stepDefault_of_quiet {s : State} (hd : s.rx.decoding = false) (hp : s.pipe = none) :
    stepDefault s = serveNext s := by
  simp [stepDefault, hd, hp]

/-- A `DECODE` in progress takes its next byte, unless the bytes that arrive have just come to their end. -/
theorem stepDefault_of_decoding {s : State} (hd : s.rx.decoding = true) (hq : s.pipe = none ∨ s.rx.rxq ≠ []) :
    stepDefault s = exec .decode s := by
  simp only [stepDefault, hd, Bool.true_or, if_true, pipeTurn]
  split
  · simp
  · next hp => rw [if_neg (hq.resolve_left (by simp [hp]))]
  · rfl

theorem serveNext_cons {s : State} {r : Request} {rest : List Request} (h : s.reqs = r :: rest) :
    serveNext s = present r { s with reqs := rest } := by
  rw [serveNext, h]

theorem retryHeld_ready {s : State} {k : Nat} {cmd : Cmd} (hk : s.held[k]? = some cmd)
    (ht : s.tx.txState = .idle) : retryHeld k s = exec (.send cmd) { s with held := s.held.eraseIdx k } := by
  simp only [retryHeld, hk]
  exact if_pos (s.txReady_iff.2 ht)

/-- The choice `serve`: while a `DECODE` is in progress only a request that may come between two of its bytes is
served, else the `DECODE` goes on (log 21). -/
theorem stepTurn_serve {s : State} {r : Request} {rest : List Request} (h : s.reqs = r :: rest) :
    stepTurn .serve s
      = if s.rx.decoding = true ∧ mayInterleave r = false then stepDefault s
        else present r { s with reqs := rest } := by
  simp [stepTurn, h, serveNext_cons h]

/-! ### What is presented -/

theorem present_of_decode_ok {s : State} {r : Request} {i : Instr} (h : Sys2Proof.decode s.cfg r = .ok i) :
present r s = exec i s := by
  simp only [present, h]

theorem present_pipe_of_error {s : State} {bytes : List Byte} {e : DecodeError}
    (h : Sys2Proof.decode s.cfg (.pipe bytes) = .error e) :
    present (.pipe bytes) s = .next (pipeArrives bytes s) := by
  simp only [present, h]

/-- A line with neither token is no instruction of the table (R92). -/
theorem decode_ordinaryLine {c : Config} {l : Line} (hl : lineClean l = true) (ha : ¬ c.ackToken <+: l)
    (he : ¬ c.errToken <+: l) : Sys2Proof.decode c (.side (lineBytes l)) = .error .ordinaryLine := by
  simp [Sys2Proof.decode, decodeLine, readWholeLine_lineBytes l hl, ha, he]

theorem present_ordinaryLine {s : State} {l : Line} (hl : lineClean l = true) (ha : ¬ s.cfg.ackToken <+: l)
    (he : ¬ s.cfg.errToken <+: l) : present (.side (lineBytes l)) s = .next (lineArrives l s) := by
  simp only [present, decode_ordinaryLine hl ha he, readWholeLine_lineBytes l hl]

theorem lineArrives_of_not_waiting {s : State} {l : Line} (h : s.tx.txState ≠ .waiting) :
    lineArrives l s = { s with sc := s.sc ++ [l], out := [] } := by
  rw [lineArrives, if_neg h]
  rfl

/-- A line that arrives at a waiting sender is the poll of the head of `SC`, the line behind it (log 6). -/
theorem lineArrives_of_waiting {s : State} {l h : Line} {q : List Line} (hw : s.tx.txState = .waiting)
    (hq : s.sc ++ [l] = h :: q) : .next (lineArrives l s) = exec (.poll (some h)) { s with sc := h :: q } := by
  simp [exec, execPoll, lineArrives, hw, hq, State.clearOut]

/-! ### Requests between two bytes of a DECODE (log 21) -/

theorem not_mayInterleave_of_frameInstr {id : Nat} {p : List Byte} {crc : Word} {i : Instr}
    (h : frameInstr id p crc = some i) : mayInterleave (.port i) = false := by
  unfold frameInstr at h
  split at h <;> cases h <;> rfl

/-- What the decoder reads at the start of bytes is a frame (R85). -/
theorem frameInstr_of_decodeFramePrefix {c : Config} {bytes rest : List Byte} {i : Instr}
    (h : decodeFramePrefix c bytes = .ok (i, rest)) : ∃ id p crc, frameInstr id p crc = some i := by
  simp only [decodeFramePrefix] at h
  repeat' split at h
  all_goals cases h
  next hf => exact ⟨_, _, _, hf⟩

/-- What the side channel's bytes decode to is an acknowledgment line or an error line. -/
theorem tokenLine_of_decodeLine {c : Config} {bytes : List Byte} {i : Instr} (h : decodeLine c bytes = .ok i) :
    ∃ rest, i = .ackLine rest ∨ i = .errLine rest := by
  simp only [decodeLine] at h
  repeat' split at h
  all_goals cases h
  · exact ⟨_, .inl rfl⟩
  · exact ⟨_, .inr rfl⟩

/-- Whether a request may come between two bytes of a `DECODE` can be read off its instruction. -/
theorem mayInterleave_of_decode {c : Config} {r : Request} {i : Instr} (h : Sys2Proof.decode c r = .ok i) :
    mayInterleave r = mayInterleave (.port i) := by
  cases r with
  | pipe bytes =>
    simp only [Sys2Proof.decode, decodeFrame] at h
    split at h <;> cases h
    next hp =>
      obtain ⟨id, p, crc, hf⟩ := frameInstr_of_decodeFramePrefix hp
      exact (not_mayInterleave_of_frameInstr hf).symm
  | side bytes =>
    obtain ⟨rest, rfl | rfl⟩ := tokenLine_of_decodeLine h <;> rfl
  | port op =>
    simp only [Sys2Proof.decode] at h
    split at h <;> cases h
    rfl

/-- The choice `serve`: an instruction that need not wait for a `DECODE` in progress is executed. -/
theorem stepTurn_serve_runs {s : State} {r : Request} {rest : List Request} {i : Instr} (hr : s.reqs = r :: rest)
    (hi : Sys2Proof.decode s.cfg r = .ok i) (hm : s.rx.decoding = false ∨ mayInterleave (.port i) = true) :
    stepTurn .serve s = exec i { s with reqs := rest } := by
  have hgo : ¬ (s.rx.decoding = true ∧ mayInterleave r = false) := by
    rw [mayInterleave_of_decode hi]
    rcases hm with h | h <;> simp [h]
  rw [stepTurn_serve hr, if_neg hgo]
  exact present_of_decode_ok hi

/-- The choice `serve` while a `DECODE` is in progress: an instruction that may not come between two of its bytes
waits, and the `DECODE` goes on. -/
theorem stepTurn_serve_waits {s : State} {r : Request} {rest : List Request} {i : Instr}
    (hr : s.reqs = r :: rest) (hi : Sys2Proof.decode s.cfg r = .ok i) (hm : mayInterleave (.port i) = false)
    (hd : s.rx.decoding = true) (hq : s.pipe = none ∨ s.rx.rxq ≠ []) : stepTurn .serve s = exec .decode s := by
  rw [stepTurn_serve hr, if_pos ⟨hd, (mayInterleave_of_decode hi).trans hm⟩, stepDefault_of_decoding hd hq]

/-- Settles O60: what is no instruction arrives by its channel; what the environment chooses is done as chosen;
and an instruction served during a `DECODE` is run or waits as its own half says. -/
theorem stepServesTheEnvironment : Obligations.StepServesTheEnvironment := by
  unfold Obligations.StepServesTheEnvironment
  intro s
  refine ⟨?bytes, ?ordinaryLine, ?arrive, ?retry, ?serve, ?proceed, ?serveDuringDecode⟩
  case bytes =>
    intro rest bytes e hs hd hp hr he
    rw [step_of_sched_nil hs, stepDefault_of_quiet hd hp, serveNext_cons hr]
    exact present_pipe_of_error he
  case ordinaryLine =>
    intro rest l hs hd hp hr hl ha he
    have hstep : step s = .next (lineArrives l { s with reqs := rest }) := by
      rw [step_of_sched_nil hs, stepDefault_of_quiet hd hp, serveNext_cons hr]
      exact present_ordinaryLine hl ha he
    rw [hstep]
    exact ⟨fun hw => congrArg _ (lineArrives_of_not_waiting hw), fun h q hw hq => lineArrives_of_waiting hw hq⟩
  case arrive =>
    intro l ts hs
    rw [step_of_sched_cons hs]
    rfl
  case retry =>
    intro k cmd ts hs hk ht
    rw [step_of_sched_cons hs]
    exact retryHeld_ready hk ht
  case serve =>
    intro ts r rest i hs hd hr hi
    rw [step_of_sched_cons hs]
    exact stepTurn_serve_runs hr hi (.inl hd)
  case proceed =>
    intro ts hs hd hq
    rw [step_of_sched_cons hs]
    exact stepDefault_of_decoding hd hq
  case serveDuringDecode =>
    intro ts r rest i hs hd hr hi
    rw [step_of_sched_cons hs]
    cases i with
    | send _ | writeStep _ | poll _ | time _ | resetTx | ackLine _ | errLine _ | resetRx =>
      exact stepTurn_serve_runs hr hi (.inr rfl)
    | _ => exact fun hq => stepTurn_serve_waits hr hi rfl hd hq

/-! ### All that a step can do -/

/-- What one step does to a state: it runs an instruction, or offers the pipe's bytes to `FEED`, or a line arrives
at the sender, or `SC` alone changes or nothing does; before that it may have taken up something of what the
environment holds (a request, a held `SEND`, a choice, the end of the bytes that arrive). -/
inductive StepDoes : State → State → Prop
  | instr {i : Instr} {s t : State} (h : exec i s = .next t) : StepDoes s t
  | offer (bytes : List Byte) (s : State) : StepDoes s (pipeOffer bytes s)
  | line (l : Line) (s : State) : StepDoes s (lineArrives l s)
  | queue (sc : List Line) (s : State) : StepDoes s { s.clearOut with sc := sc }
  | taken {s t : State} (pipe : Option (List Byte)) (held : List Cmd) (reqs : List Request) (sched : List Turn)
      (h : StepDoes { s with pipe := pipe, held := held, reqs := reqs, sched := sched } t) : StepDoes s t

theorem present_does {r : Request} {s t : State} (h : present r s = .next t) : StepDoes s t := by
  unfold present at h
  split at h
  · exact .instr h
  · cases h
    exact .offer _ s
  · split at h <;> cases h
    exact .line _ s
  · cases h

theorem retryHeld_does {k : Nat} {s t : State} (h : retryHeld k s = .next t) : StepDoes s t := by
  rw [retryHeld] at h
  split at h
  · split at h
    · exact .taken s.pipe _ s.reqs s.sched (.instr h)
    · cases h
      exact .queue s.sc s
  · cases h
    exact .queue s.sc s

theorem serveNext_does {s t : State} (h : serveNext s = .next t) : StepDoes s t := by
  rw [serveNext] at h
  split at h
  · exact .taken s.pipe s.held _ s.sched (present_does h)
  · exact retryHeld_does h

theorem pipeTurn_does {s t : State} (h : pipeTurn s = .next t) : StepDoes s t := by
  rw [pipeTurn] at h
  split at h
  · split at h
    · cases h
      exact .offer _ s
    · exact .instr h
  · split at h
    · exact .taken none s.held s.reqs s.sched (.instr h)
    · exact .instr h
  · exact .instr h

theorem stepDefault_does {s t : State} (h : stepDefault s = .next t) : StepDoes s t := by
  rw [stepDefault] at h
  split at h
  · exact pipeTurn_does h
  · exact serveNext_does h

theorem stepTurn_does {τ : Turn} {s t : State} (h : stepTurn τ s = .next t) : StepDoes s t := by
  cases τ with
  | serve =>
    simp only [stepTurn] at h
    split at h
    · exact stepDefault_does h
    · exact serveNext_does h
  | proceed => exact stepDefault_does h
  | retry k => exact retryHeld_does h
  | arrive l =>
    cases h
    exact .queue _ s

theorem step_does {s t : State} (h : step s = .next t) : StepDoes s t := by
  rw [step, nextStep] at h
  split at h
  · exact stepDefault_does h
  · exact .taken s.pipe s.held s.reqs _ (stepTurn_does h)

end Sys2Proof.Machine
end

section
/-! PROOFS. The send half's operations: all that each can do (10_state R37, 42_tx_encoder R182, R186, 43_ack_handshake
R201, 60_exceptions R241), and so every change of `tx_state`. -/

namespace Sys2Proof.Machine

/-! ### All that an operation of the send half can do -/

/-- All that `SEND` can do (R182): the request is held; or the record is refused; or its frame is assembled and the
write begins. -/
theorem exec_send_cases {cmd : Cmd} {s t : State} (h : exec (.send cmd) s = .next t) :
    (s.tx.txState ≠ .idle ∧ t = holdRequest cmd s.clearOut)
    ∨ (s.tx.txState = .idle ∧ ∃ o, o ≠ .wdFatal ∧ t = s.clearOut.setOutcome o)
    ∨ (s.tx.txState = .idle ∧ wellFormedCmd s.cfg cmd = true ∧ (payloadOf cmd).length ≤ s.cfg.lenCap
      ∧ ∃ r, assemble s.cfg cmd (payloadOf cmd) s.tx = .ok r ∧ t = beginWrite r s.clearOut) := by
  simp only [exec, execSend, Bool.not_eq_true', ← Bool.not_eq_true, State.txReady_iff] at h
  split at h
  · next hs =>
    cases h
    exact .inl ⟨hs, rfl⟩
  · next hs =>
    rw [not_not] at hs
    split at h
    · cases h
      exact .inr (.inl ⟨hs, .encMalformed, by simp, rfl⟩)
    · next hw =>
      split at h
      · cases h
        exact .inr (.inl ⟨hs, .encOversize, by simp, rfl⟩)
      · next hl =>
        split at h <;> cases h
        next r hr => exact .inr (.inr ⟨hs, not_not.1 hw, Nat.le_of_not_lt hl, r, hr, rfl⟩)

/-- All that `WRITE_STEP` can do (R186; log 7): nothing, outside `WRITING`; else what the Sink took is counted, and
the last byte taken begins the wait. -/
theorem exec_writeStep_cases {n : Nat} {s t : State} (h : exec (.writeStep n) s = .next t) :
    (s.tx.txState ≠ .writing ∧ t = s.clearOut.emit .disabled)
    ∨ (s.tx.txState = .writing ∧ n ≤ s.tx.txLen - s.tx.txPos ∧ ∃ out,
      (s.tx.txPos + n ≠ s.tx.txLen ∧ t = { s with tx := { s.tx with txPos := s.tx.txPos + n }, out := out })
      ∨ (s.tx.txPos + n = s.tx.txLen
        ∧ t = { s with
          tx := { s.tx with txPos := s.tx.txPos + n, txState := .waiting, polls := 0 }, out := out })) := by
  simp only [exec, execWriteStep] at h
  split at h
  · next hs =>
    cases h
    exact .inl ⟨hs, rfl⟩
  · next hs =>
    rw [not_not] at hs
    split at h
    · cases h
    · next offered hr =>
      obtain ⟨-, rfl⟩ := bufRead_ok hr
      rw [memReadN_length] at h
      split at h
      · cases h
      · next hn =>
        refine .inr ⟨hs, Nat.le_of_not_lt hn, ?_⟩
        split at h <;> cases h
        · next he => exact ⟨_, .inr ⟨he, rfl⟩⟩
        · next he => exact ⟨_, .inl ⟨he, rfl⟩⟩

/-- All that `POLL` can do (R201; logs 7, 10): nothing, outside `WAITING`; else its answer is judged. -/
theorem exec_poll_cases {ans : Option Line} {s t : State} (h : exec (.poll ans) s = .next t) :
    (s.tx.txState ≠ .waiting ∧ t = s.clearOut.emit .disabled)
    ∨ (s.tx.txState = .waiting ∧ ∃ q, t = pollAnswered ans { s.clearOut with sc := q }) := by
  simp only [exec, execPoll] at h
  split at h
  · next hs =>
    cases h
    exact .inl ⟨hs, rfl⟩
  · next hs =>
    refine .inr ⟨not_not.1 hs, ?_⟩
    split at h
    · cases h
      exact ⟨s.sc, rfl⟩
    · next hq =>
      cases h
      exact ⟨s.sc, rfl⟩
    · next rest hq =>
      split at h <;> cases h
      exact ⟨rest, rfl⟩

/-! ### What each part of an operation makes of `tx_state` -/

/-- Time leaves `tx_state` as it is, or fires the watchdog (R241). -/
theorem watchdogAdvance_txState (d : Nat) (s : State) :
    (watchdogAdvance d s).tx.txState = s.tx.txState ∨ (watchdogAdvance d s).tx.txState = .fatal := by
  rcases watchdogAdvance_cases d s with ⟨-, e⟩ | ⟨-, -, e⟩ | ⟨-, -, e⟩ <;> rw [e]
  · exact .inl rfl
  · exact .inl rfl
  · exact .inr rfl

/-- A counted poll goes on waiting or ends the wait (R202 to R205). -/
theorem countPoll_txState (ans : Option Line) (s : State) :
    (countPoll ans s).tx.txState = s.tx.txState ∨ (countPoll ans s).tx.txState = .idle := by
  cases ans with
  | none =>
    simp only [countPoll]
    split
    · exact .inr rfl
    · exact .inl rfl
  | some l =>
    simp only [countPoll]
    split
    · exact .inr rfl
    · split
      · exact .inr rfl
      · split
        · exact .inr rfl
        · exact .inl rfl

/-- A poll goes on waiting or ends the wait; or it was null, and the watchdog fired (R201, R241). -/
theorem pollAnswered_txState (ans : Option Line) (s : State) :
    (pollAnswered ans s).tx.txState = s.tx.txState ∨ (pollAnswered ans s).tx.txState = .idle
    ∨ (ans = none ∧ (pollAnswered ans s).tx.txState = .fatal) := by
  cases ans with
  | some l => exact (countPoll_txState (some l) (s.emit _)).imp_right .inl
  | none =>
    rw [pollAnswered_none]
    split
    · next hf => exact .inr (.inr ⟨rfl, hf⟩)
    · next hf =>
      have hsame := (watchdogAdvance_txState _ _).resolve_right hf
      exact (countPoll_txState none _).imp (·.trans hsame) .inl

/-- A line that arrives leaves `tx_state` as it is, or ends a wait (log 6). -/
theorem lineArrives_txState (l : Line) (s : State) :
    (lineArrives l s).tx.txState = s.tx.txState
    ∨ (s.tx.txState = .waiting ∧ (lineArrives l s).tx.txState = .idle) := by
  rcases lineArrives_eq l s with ⟨-, e⟩ | ⟨hw, e⟩ <;> rw [e]
  · exact .inl rfl
  · rcases pollAnswered_txState (s.sc ++ [l]).head? { s.clearOut with sc := (s.sc ++ [l]).tail }
      with h | h | ⟨hn, -⟩
    · exact .inl h
    · exact .inr ⟨hw, h⟩
    · simp at hn

/-! ### The receive half (R73) -/

/-- `DECODE` does not touch the send half. -/
theorem exec_decode_tx {s t : State} (h : exec .decode s = .next t) : t.tx = s.tx := by
  rcases exec_decode_cases h with ⟨-, rfl⟩ | ⟨b, q, r, ev, -, -, rfl⟩ <;> rfl

theorem exec_cmdDone_tx {s t : State} (h : exec .cmdDone s = .next t) : t.tx = s.tx := by
  simp only [exec, execCmdDone] at h
  split at h <;> cases h <;> rfl

/-- Settles O47: each operation of the send half makes its own change of `tx_state` or none, and the receive half
makes none. -/
theorem senderTransitions : Obligations.SenderTransitions := by
  unfold Obligations.SenderTransitions
  intro s t i _ h hne
  cases i with
  | setColor p crc | breathe p crc | gradient p crc | movingGradient p crc | crossFade p crc | rainbow p crc
  | fire p crc | twinkle p crc | neuralDrop p crc | waterDrop p crc | startRain p crc | stopRain p crc
  | status p crc | encodedBuffer p crc | fullBuffer p crc | speedTest p crc | feed bytes | drain | resetRx =>
    cases h
    exact absurd rfl hne
  | decode => exact absurd (congrArg _ (exec_decode_tx h)) hne
  | cmdDone => exact absurd (congrArg _ (exec_cmdDone_tx h)) hne
  | send cmd =>
    rcases exec_send_cases h with ⟨-, rfl⟩ | ⟨-, o, -, rfl⟩ | ⟨hs, -, -, r, -, rfl⟩
    · exact absurd rfl hne
    · exact absurd rfl hne
    · exact .inl ⟨hs, rfl, cmd, rfl⟩
  | writeStep n =>
    rcases exec_writeStep_cases h with ⟨-, rfl⟩ | ⟨hs, -, out, ⟨-, rfl⟩ | ⟨-, rfl⟩⟩
    · exact absurd rfl hne
    · exact absurd rfl hne
    · exact .inr (.inl ⟨hs, rfl, n, rfl⟩)
  | poll ans =>
    rcases exec_poll_cases h with ⟨-, rfl⟩ | ⟨hs, q, rfl⟩
    · exact absurd rfl hne
    · rcases pollAnswered_txState ans { s.clearOut with sc := q } with hsame | hidle | ⟨rfl, hfatal⟩
      · exact absurd hsame hne
      · exact .inr (.inr (.inl ⟨hs, hidle, .inl ⟨ans, rfl⟩⟩))
      · exact .inr (.inr (.inr (.inl ⟨hfatal, .inr rfl⟩)))
  | time d =>
    cases h
    have hfatal := (watchdogAdvance_txState d s.clearOut).resolve_left hne
    exact .inr (.inr (.inr (.inl ⟨hfatal, .inl ⟨d, rfl⟩⟩)))
  | resetTx =>
    cases h
    exact .inr (.inr (.inr (.inr ⟨rfl, rfl⟩)))
  | ackLine rest =>
    cases h
    obtain ⟨hs, hidle⟩ := (lineArrives_txState _ s).resolve_left hne
    exact .inr (.inr (.inl ⟨hs, hidle, .inr (.inl ⟨rest, rfl⟩)⟩))
  | errLine rest =>
    cases h
    obtain ⟨hs, hidle⟩ := (lineArrives_txState _ s).resolve_left hne
    exact .inr (.inr (.inl ⟨hs, hidle, .inr (.inr ⟨rest, rfl⟩)⟩))

end Sys2Proof.Machine
end

section
/-! PROOFS. The invariant: every operation keeps it, and so does every step (10_state R21 to R36, 20_memory R62 to
R65, 60_exceptions R232, R241). -/

namespace Sys2Proof.Machine

/-! ### The halves right after a reset (R270, R271) -/

/-- The receive half at its reset values has the invariant, whatever the free bytes of its buffers. -/
theorem RxInv.reset (c : Config) (epoch : Nat) : RxInv c { RxRegs.reset with epoch := epoch } where
  mhist_short := marker_pos c
  nameLen_le := Nat.zero_le _
  nameBuf_wf := rfl
  nameBuf_in := by simp [RxRegs.reset]
  nameBuf_written := fun i hi => absurd hi (Nat.not_lt_zero i)
  pbuf_wf := rfl
  pbuf_in := by simp [RxRegs.reset]
  pbuf_written := fun i hi => absurd hi (Nat.not_lt_zero i)
  payCnt_le := Nat.le_refl _
  plen_le := Nat.le_refl _
  hwm_le := Nat.zero_le _
  rxq_le := Nat.zero_le _
  crcRun_eq := rfl
  nameId_lt := by simp [RxRegs.reset]
  seek_clear := fun _ => rfl
  len_clear := fun _ => ⟨rfl, rfl⟩
  plen_clear := fun _ _ => rfl
  crc_clear := fun _ => ⟨rfl, rfl⟩
  payload_open := by simp [RxRegs.reset]
  payload_full := by simp [RxRegs.reset]
  lenCnt_clear := fun _ => rfl

/-- The send half at its reset values has the invariant, whatever the free bytes of TXBUF. -/
theorem TxInv.reset (c : Config) (epoch : Nat) : TxInv c { TxRegs.reset with epoch := epoch } where
  txbuf_wf := rfl
  txbuf_in := by simp [TxRegs.reset]
  txLen_le := Nat.zero_le _
  txbuf_written := fun i hi => absurd hi (Nat.not_lt_zero i)
  txPos_le := Nat.le_refl _
  polls_le := Nat.zero_le _
  writing_open := by simp [TxRegs.reset]
  waiting_open := by simp [TxRegs.reset]
  fatal_iff := by simp [TxRegs.reset]
  armed_busy := by simp [TxRegs.reset]
  disarmed_fatal := by simp [TxRegs.reset]
  elapsed_le := by simp [TxRegs.reset]

/-! ### The receive half -/

/-- The FIFO takes no more than it has room for (R110). -/
theorem feedRoom_fits {s : State} (h : RxInv s.cfg s.rx) (bytes : List Byte) :
    (s.rx.rxq ++ bytes.take (feedRoom bytes s)).length ≤ s.cfg.rxbufCap := by
  have hq := h.rxq_le
  simp only [feedRoom, List.length_append, List.length_take]
  omega

theorem pipeOffer_inv {s : State} (h : RxInv s.cfg s.rx) (bytes : List Byte) :
    RxInv s.cfg (pipeOffer bytes s).rx :=
  h.with_queue (feedRoom_fits h bytes) s.rx.acksOwed s.rx.decoding

/-- A byte that leaves the FIFO and passes the parser (R111). -/
theorem byteTaken_inv {s : State} {b : Byte} {q : List Byte} {r : RxRegs} {ev : Option Event}
    (h : RxInv s.cfg s.rx) (hq : s.rx.rxq = b :: q) (hb : byteStep s.cfg b s.rx = .ok (r, ev)) :
    RxInv s.cfg (byteTaken q r ev s).rx := by
  obtain ⟨r', ev', hb', hr⟩ := byteStep_inv h b
  cases hb.symm.trans hb'
  have hlen := h.rxq_le
  rw [hq, List.length_cons] at hlen
  exact hr.with_queue (Nat.le_of_succ_le hlen) r.acksOwed ev.isNone

theorem exec_decode_inv {s t : State} (h : RxInv s.cfg s.rx) (ht : exec .decode s = .next t) :
    RxInv s.cfg t.rx ∧ t.cfg = s.cfg ∧ t.tx = s.tx := by
  rcases exec_decode_cases ht with ⟨-, rfl⟩ | ⟨b, q, r, ev, hq, hb, rfl⟩
  · exact ⟨h.with_queue h.rxq_le s.rx.acksOwed false, rfl, rfl⟩
  · exact ⟨byteTaken_inv h hq hb, rfl, rfl⟩

theorem exec_cmdDone_inv {s t : State} (h : RxInv s.cfg s.rx) (ht : exec .cmdDone s = .next t) :
    RxInv s.cfg t.rx ∧ t.cfg = s.cfg ∧ t.tx = s.tx := by
  simp only [exec, execCmdDone] at ht
  split at ht <;> cases ht
  · exact ⟨h.with_queue h.rxq_le (s.rx.acksOwed - 1) s.rx.decoding, rfl, rfl⟩
  · exact ⟨h, rfl, rfl⟩

/-! ### The send half -/

/-- An outcome other than `WD_FATAL`, recorded outside `FATAL` (R232). -/
theorem TxInv.with_outcome {c : Config} {t : TxRegs} (h : TxInv c t) (ht : t.txState ≠ .fatal) {o : SendOutcome}
    (ho : o ≠ .wdFatal) : TxInv c { t with lastOutcome := o } :=
  { h with fatal_iff := ⟨fun hf => absurd hf ht, fun hf => absurd hf ho⟩ }

/-- A record that is well-formed has its variant in the name table (R181). -/
theorem nameId_lt_of_wellFormedCmd {c : Config} {cmd : Cmd} (h : wellFormedCmd c cmd = true) :
    cmd.nameId < c.nameTable.length := by
  simp only [wellFormedCmd] at h
  split at h
  · cases h
  · next hget => exact (List.getElem?_eq_some_iff.1 hget).1

/-- A frame that is within the bounds fits TXBUF (R65). -/
theorem frameBytes_fits {c : Config} {id : Nat} (hid : id < c.nameTable.length) {p : List Byte}
    (hp : p.length ≤ c.lenCap) (crc : Word) : (frameBytes c id p crc).length ≤ spaceSize c .txbuf := by
  have hname := spelling_length_le hid
  rw [frameBytes_length, spaceSize]
  omega

/-- An accepted `SEND`: any frame that fits is written into TXBUF and its write begins (R182, R183). -/
theorem TxInv.begin_write {s : State} (h : TxInv s.cfg s.tx) (hidle : s.tx.txState = .idle) {frame : List Byte}
    (hpos : 0 < frame.length) (hfit : frame.length ≤ spaceSize s.cfg .txbuf) :
    TxInv s.cfg
      (beginWrite { s.tx with txbuf := memWriteN s.tx.txbuf 0 frame, txLen := frame.length } s.clearOut).tx where
  txbuf_wf := memWf_memWriteN h.txbuf_wf 0 frame
  txbuf_in := fun x hx => by
    rcases mem_memWriteN hx with ⟨-, hlt⟩ | hx
    · omega
    · exact h.txbuf_in x hx
  txLen_le := hfit
  txbuf_written := fun i hi => by
    have hi : i < frame.length := hi
    change (memRead (memWriteN s.tx.txbuf 0 frame) i).isSome = true
    rw [memRead_memWriteN, if_pos (by omega)]
    simpa using hi
  txPos_le := Nat.zero_le _
  polls_le := Nat.zero_le _
  writing_open := fun _ => hpos
  waiting_open := by simp [beginWrite]
  fatal_iff := by
    have hne : s.tx.lastOutcome ≠ .wdFatal := fun ho => by simp [h.fatal_iff.2 ho] at hidle
    simp [beginWrite, hne]
  armed_busy := fun _ => rfl
  disarmed_fatal := by simp [beginWrite]
  elapsed_le := fun _ => by
    change (if s.tx.wdArmed = true then s.tx.wdElapsed else 0) ≤ s.cfg.wdCeilingMs
    split
    · next harm => exact h.elapsed_le harm
    · exact Nat.zero_le _

theorem exec_send_inv {cmd : Cmd} {s t : State} (h : TxInv s.cfg s.tx) (ht : exec (.send cmd) s = .next t) :
    TxInv s.cfg t.tx ∧ t.cfg = s.cfg ∧ t.rx = s.rx := by
  rcases exec_send_cases ht with ⟨-, rfl⟩ | ⟨hs, o, ho, rfl⟩ | ⟨hs, hw, hl, r, hr, rfl⟩
  · exact ⟨h, rfl, rfl⟩
  · exact ⟨h.with_outcome (by simp [hs]) ho, rfl, rfl⟩
  · have hid := nameId_lt_of_wellFormedCmd hw
    rw [assemble_eq h.txbuf_wf hid hl] at hr
    cases hr
    exact ⟨h.begin_write hs (by rw [frameBytes_length]; omega) (frameBytes_fits hid hl _), rfl, rfl⟩

theorem retryBudget_pos (c : Config) : 0 < c.retryBudget := by
  obtain ⟨-, -, -, -, -, -, -, -, -, -, -, -, hbudget, -⟩ := c.toParams.legal_iff.1 c.isLegal
  exact hbudget

theorem exec_writeStep_inv {n : Nat} {s t : State} (h : TxInv s.cfg s.tx)
    (ht : exec (.writeStep n) s = .next t) : TxInv s.cfg t.tx ∧ t.cfg = s.cfg ∧ t.rx = s.rx := by
  rcases exec_writeStep_cases ht with ⟨-, rfl⟩ | ⟨hs, hn, out, ⟨he, rfl⟩ | ⟨he, rfl⟩⟩
  · exact ⟨h, rfl, rfl⟩
  · have hopen := h.writing_open hs
    refine ⟨?_, rfl, rfl⟩
    exact { h with
      txPos_le := by simp only; omega
      writing_open := fun _ => by simp only; omega
      waiting_open := by simp [hs] }
  · refine ⟨?_, rfl, rfl⟩
    exact { h with
      txPos_le := he.le
      polls_le := Nat.zero_le _
      writing_open := by simp
      waiting_open := fun _ => ⟨he, retryBudget_pos s.cfg⟩
      fatal_iff := by
        have hne : s.tx.lastOutcome ≠ .wdFatal := fun ho => by simp [h.fatal_iff.2 ho] at hs
        simp [hne]
      armed_busy := fun _ => h.armed_busy (.inl hs)
      disarmed_fatal := by simp }

theorem exec_poll_inv {ans : Option Line} {s t : State} (h : TxInv s.cfg s.tx)
    (ht : exec (.poll ans) s = .next t) : TxInv s.cfg t.tx ∧ t.cfg = s.cfg ∧ t.rx = s.rx := by
  rcases exec_poll_cases ht with ⟨-, rfl⟩ | ⟨hs, q, rfl⟩
  · exact ⟨h, rfl, rfl⟩
  · exact pollAnswered_inv (s := { s.clearOut with sc := q }) h hs ans

/-! ### Every instruction -/

/-- What keeps the invariant from `s` to `t`, the configuration with it. -/
def KeepsInv (s t : State) : Prop := s.Inv → t.Inv ∧ t.cfg = s.cfg

/-- A step of the receive half keeps the invariant if it keeps that half's. -/
theorem KeepsInv.of_rx {s t : State}
    (h : RxInv s.cfg s.rx → RxInv s.cfg t.rx ∧ t.cfg = s.cfg ∧ t.tx = s.tx) : KeepsInv s t := fun hinv => by
  obtain ⟨hrx, hcfg, htx⟩ := h hinv.rx
  exact ⟨⟨by rw [hcfg]; exact hrx, by rw [hcfg, htx]; exact hinv.tx⟩, hcfg⟩

/-- A step of the send half keeps the invariant if it keeps that half's. -/
theorem KeepsInv.of_tx {s t : State}
    (h : TxInv s.cfg s.tx → TxInv s.cfg t.tx ∧ t.cfg = s.cfg ∧ t.rx = s.rx) : KeepsInv s t := fun hinv => by
  obtain ⟨htx, hcfg, hrx⟩ := h hinv.tx
  exact ⟨⟨by rw [hcfg, hrx]; exact hinv.rx, by rw [hcfg]; exact htx⟩, hcfg⟩

theorem pipeOffer_keepsInv (bytes : List Byte) (s : State) : KeepsInv s (pipeOffer bytes s) :=
  .of_rx fun h => ⟨pipeOffer_inv h bytes, rfl, rfl⟩

theorem lineArrives_keepsInv (l : Line) (s : State) : KeepsInv s (lineArrives l s) := .of_tx (lineArrives_inv l)

theorem exec_keepsInv {i : Instr} {s t : State} (h : exec i s = .next t) : KeepsInv s t := by
  cases i with
  | setColor p crc | breathe p crc | gradient p crc | movingGradient p crc | crossFade p crc | rainbow p crc
  | fire p crc | twinkle p crc | neuralDrop p crc | waterDrop p crc | startRain p crc | stopRain p crc
  | status p crc | encodedBuffer p crc | fullBuffer p crc | speedTest p crc =>
    cases h
    exact pipeOffer_keepsInv _ s
  | feed bytes =>
    cases h
    exact .of_rx fun hrx => ⟨pipeOffer_inv hrx bytes, rfl, rfl⟩
  | decode => exact .of_rx fun hrx => exec_decode_inv hrx h
  | drain =>
    cases h
    exact .of_rx fun hrx => ⟨hrx.with_queue (Nat.zero_le _) s.rx.acksOwed s.rx.decoding, rfl, rfl⟩
  | cmdDone => exact .of_rx fun hrx => exec_cmdDone_inv hrx h
  | resetRx =>
    cases h
    exact .of_rx fun _ => ⟨RxInv.reset s.cfg (s.rx.epoch + 1), rfl, rfl⟩
  | send cmd => exact .of_tx fun htx => exec_send_inv htx h
  | writeStep n => exact .of_tx fun htx => exec_writeStep_inv htx h
  | poll ans => exact .of_tx fun htx => exec_poll_inv htx h
  | time d =>
    cases h
    exact .of_tx fun htx =>
      ⟨watchdogAdvance_inv (s := s.clearOut) htx d, watchdogAdvance_cfg d _, watchdogAdvance_rx d _⟩
  | resetTx =>
    cases h
    exact .of_tx fun _ => ⟨TxInv.reset s.cfg (s.tx.epoch + 1), rfl, rfl⟩
  | ackLine rest | errLine rest =>
    cases h
    exact lineArrives_keepsInv _ s

/-! ### Every step -/

/-- What a step does keeps the invariant, which says nothing of what the environment holds. -/
theorem StepDoes.keepsInv {s t : State} (h : StepDoes s t) : KeepsInv s t := by
  induction h with
  | instr h => exact exec_keepsInv h
  | offer bytes s => exact pipeOffer_keepsInv bytes s
  | line l s => exact lineArrives_keepsInv l s
  | queue sc s => exact fun hinv => ⟨⟨hinv.rx, hinv.tx⟩, rfl⟩
  | taken pipe held reqs sched _ ih => exact fun hinv => ih ⟨hinv.rx, hinv.tx⟩

/-- Settles O57: whatever a step turns to, it is an instruction, an offer of the pipe or an arrival on the side
channel, and each of these keeps both halves' invariants. -/
theorem stepKeepsInv : Obligations.StepKeepsInv := by
  unfold Obligations.StepKeepsInv
  exact fun s t hinv h => (step_does h).keepsInv hinv

end Sys2Proof.Machine
end

section
/-! PROOFS. What a step does where the environment chooses nothing (00_scope R11, 40_rx_parser R110, R111,
43_ack_handshake R207, 60_exceptions R247; logs 4, 5, 8). -/

namespace Sys2Proof.Machine

/-! ### No bytes arrive -/

/-- With no request left the oldest held `SEND` is presented again (R207; log 8). -/
theorem serveNext_nil {s : State} (h : s.reqs = []) : serveNext s = retryHeld 0 s := by
  rw [serveNext, h]

/-- With nothing held there, or a sender that is not ready, the block idles (R247). -/
theorem retryHeld_idles {s : State} {k : Nat} (h : s.held[k]? = none ∨ s.tx.txState ≠ .idle) :
    retryHeld k s = .next s.clearOut := by
  rw [retryHeld]
  split
  · next hk =>
    have hbusy := h.resolve_left (by simp [hk])
    exact if_neg (mt s.txReady_iff.1 hbusy)
  · rfl

/-! ### Bytes arrive (log 5) -/

theorem stepDefault_of_pipe {s : State} {bs : List Byte} (h : s.pipe = some bs) : stepDefault s = pipeTurn s := by
  simp [stepDefault, h]

/-- The transport feeds when it has bytes, the FIFO has room and no `DECODE` is in progress (R110). -/
theorem pipeTurn_feeds {s : State} {bs : List Byte} (h : s.pipe = some bs) (hbs : bs ≠ [])
    (hd : s.rx.decoding = false) (hroom : s.rx.rxq.length < s.cfg.rxbufCap) :
    pipeTurn s = .next (pipeOffer bs s) := by
  cases bs with
  | nil => exact absurd rfl hbs
  | cons b bs => simp [pipeTurn, h, hd, hroom]

/-- With bytes on the pipe that cannot be fed now, the loop decodes (R111). -/
theorem pipeTurn_decodes {s : State} {bs : List Byte} (h : s.pipe = some bs) (hbs : bs ≠ [])
    (hfull : s.rx.decoding = true ∨ s.cfg.rxbufCap ≤ s.rx.rxq.length) : pipeTurn s = exec .decode s := by
  cases bs with
  | nil => exact absurd rfl hbs
  | cons b bs =>
    have hno : ¬ (s.rx.decoding = false ∧ s.rx.rxq.length < s.cfg.rxbufCap) := by
      rintro ⟨hd, hroom⟩
      rcases hfull with h | h
      · simp [hd] at h
      · omega
    simp only [pipeTurn, h, Bool.and_eq_true, Bool.not_eq_true', decide_eq_true_eq]
    exact if_neg hno

/-- With nothing left on the pipe the loop decodes, and the `DECODE` of an empty FIFO ends the arrival. -/
theorem pipeTurn_nil {s : State} (h : s.pipe = some []) :
    pipeTurn s = exec .decode (if s.rx.rxq = [] then { s with pipe := none } else s) := by
  rw [pipeTurn, h]

/-- Settles O59: what is in progress goes on, a `DECODE` before the arrival of bytes and both before a request;
the next request comes before a held one. -/
theorem stepRunsTheDecodedInstruction : Obligations.StepRunsTheDecodedInstruction := by
  unfold Obligations.StepRunsTheDecodedInstruction
  intro s hs
  rw [step_of_sched_nil hs]
  refine ⟨fun hd hp => ?quiet, fun hd hp => stepDefault_of_decoding hd (.inl hp), ?feeds, ?full, ?rest, ?ends⟩
  case quiet =>
    rw [stepDefault_of_quiet hd hp]
    refine ⟨?request, ?retry, ?idle⟩
    case request =>
      intro r rest i hr hi
      rw [serveNext_cons hr]
      exact present_of_decode_ok hi
    case retry =>
      intro cmd rest hr hheld ht
      rw [serveNext_nil hr, retryHeld_ready (by rw [hheld]; rfl) ht, hheld]
      rfl
    case idle =>
      intro hr hno
      rw [serveNext_nil hr]
      exact retryHeld_idles (hno.imp_left fun hheld => by rw [hheld]; rfl)
  case feeds =>
    rintro bs k hp hbs hd hroom rfl
    rw [stepDefault_of_pipe hp]
    exact pipeTurn_feeds hp hbs hd hroom
  case full =>
    intro bs hp hbs hfull
    rw [stepDefault_of_pipe hp]
    exact pipeTurn_decodes hp hbs hfull
  case rest =>
    intro hp hq
    rw [stepDefault_of_pipe hp, pipeTurn_nil hp, if_neg hq]
  case ends =>
    intro hp hq
    rw [stepDefault_of_pipe hp, pipeTurn_nil hp, if_pos hq]

end Sys2Proof.Machine
end

section
/-! PROOFS. The checksum sees every change of one byte (20_memory R66, R69): each step of the CRC register can be
undone, so two registers that differ after the changed byte still differ at the end. -/

namespace Sys2Proof.Machine

/-- The polynomial has its top bit set, so a shift moves the bit it drops to the top. -/
theorem crcShift_getLsbD_top (c : Word) : (crcShift c).getLsbD 31 = c.getLsbD 0 := by
  rw [crcShift]
  split
  · next h => simp [h]
  · next h =>
    rw [Bool.not_eq_true] at h
    rw [h]
    simp

theorem crcShift_injective : Function.Injective crcShift := by
  intro c d h
  have hlow : c.getLsbD 0 = d.getLsbD 0 := by
    rw [← crcShift_getLsbD_top c, ← crcShift_getLsbD_top d, h]
  have hhigh : c >>> 1 = d >>> 1 := by
    simp only [crcShift, hlow] at h
    split at h
    · exact (BitVec.xor_left_inj _).1 h
    · exact h
  refine BitVec.eq_of_getLsbD_eq fun i _ => ?_
  cases i with
  | zero => exact hlow
  | succ j =>
    have hj := congrArg (fun v : Word => v.getLsbD j) hhigh
    simpa [Nat.add_comm] using hj

/-- One byte on: the eight shifts of the register with the byte in its low bits. -/
theorem crcUpdate_eq_iterate (c : Word) (b : Byte) : crcUpdate c b = crcShift^[8] (c ^^^ b.setWidth 32) := rfl

theorem crcUpdate_inj_left {c d : Word} {b : Byte} : crcUpdate c b = crcUpdate d b ↔ c = d := by
  rw [crcUpdate_eq_iterate, crcUpdate_eq_iterate, (crcShift_injective.iterate 8).eq_iff, BitVec.xor_left_inj]

theorem crcUpdate_inj_right {c : Word} {a b : Byte} : crcUpdate c a = crcUpdate c b ↔ a = b := by
  rw [crcUpdate_eq_iterate, crcUpdate_eq_iterate, (crcShift_injective.iterate 8).eq_iff, BitVec.xor_right_inj]
  refine ⟨fun h => ?_, congrArg _⟩
  simpa using congrArg (BitVec.setWidth 8) h

theorem crcFold_cons (c : Word) (b : Byte) (s : List Byte) : crcFold c (b :: s) = crcFold (crcUpdate c b) s := rfl

/-- The same bytes take different registers to different registers. -/
theorem crcFold_inj_left {c d : Word} {s : List Byte} : crcFold c s = crcFold d s ↔ c = d := by
  induction s generalizing c d with
  | nil => exact Iff.rfl
  | cons b s ih => rw [crcFold_cons, crcFold_cons, ih, crcUpdate_inj_left]

/-- Byte strings that differ in one byte have different checksums. -/
theorem crc32_middle_inj {p q : List Byte} {a b : Byte} : crc32 (p ++ a :: q) = crc32 (p ++ b :: q) ↔ a = b := by
  rw [crc32, crc32, BitVec.xor_left_inj, crcFold_append, crcFold_append, crcFold_cons, crcFold_cons,
    crcFold_inj_left, crcUpdate_inj_right]

theorem xor_twoPow_ne {k : Nat} (hk : k < 8) (b : Byte) : b ^^^ BitVec.twoPow 8 k ≠ b := by
  intro h
  have hbit := congrArg (fun v : Byte => v.getLsbD k) h
  simp [hk] at hbit

/-- Settles O6: a flipped bit changes its byte, and a changed byte changes the checksum. -/
theorem checksumDetectsOneFlippedBit : Obligations.ChecksumDetectsOneFlippedBit := by
  unfold Obligations.ChecksumDetectsOneFlippedBit
  intro s i k h hk heq
  have hs : s = s.take i ++ s[i] :: s.drop (i + 1) := by simp
  rw [List.set_eq_take_append_cons_drop, if_pos h] at heq
  exact xor_twoPow_ne hk s[i] (crc32_middle_inj.1 (heq.trans (congrArg crc32 hs)))

end Sys2Proof.Machine
end

section
/-! PROOFS. From a state of the invariant no step faults (20_memory R62, R63, R65, R67; log 13). -/

namespace Sys2Proof.Machine

/-! ### The instructions that access a space -/

theorem exec_decode_ne_fault {s : State} (h : RxInv s.cfg s.rx) (f : Fault) : exec .decode s ≠ .fault f := by
  cases hq : s.rx.rxq with
  | nil => simp [exec, execDecode, hq]
  | cons b q =>
    obtain ⟨r, ev, hb, -⟩ := byteStep_inv h b
    simp [exec_decode_byte hq hb]

/-- A frame is only assembled when its variant is in the table and its payload within the cap, and so it fits TXBUF
(R65, R182). -/
theorem exec_send_ne_fault {s : State} (h : TxInv s.cfg s.tx) (cmd : Cmd) (f : Fault) :
    exec (.send cmd) s ≠ .fault f := by
  simp only [exec, execSend]
  split
  · simp
  · split
    · simp
    · next hw =>
      rw [Bool.not_eq_true', Bool.not_eq_false] at hw
      split
      · simp
      · next hl => simp [assemble_eq h.txbuf_wf (nameId_lt_of_wellFormedCmd hw) (Nat.le_of_not_lt hl)]

/-- What is offered to the Sink ends at `tx_len`, inside TXBUF (R65, R186). -/
theorem exec_writeStep_ne_fault {s : State} (h : TxInv s.cfg s.tx) (n : Nat) (f : Fault) :
    exec (.writeStep n) s ≠ .fault f := by
  have hin : s.tx.txPos + (s.tx.txLen - s.tx.txPos) ≤ spaceSize s.cfg .txbuf := by
    rw [Nat.add_sub_cancel' h.txPos_le]
    exact h.txLen_le
  simp only [exec, execWriteStep, bufRead, if_pos hin]
  split
  · simp
  · split
    · simp
    · split <;> simp

theorem exec_ne_fault {s : State} (h : s.Inv) (i : Instr) (f : Fault) : exec i s ≠ .fault f := by
  cases i with
  | decode => exact exec_decode_ne_fault h.rx f
  | send cmd => exact exec_send_ne_fault h.tx cmd f
  | writeStep n => exact exec_writeStep_ne_fault h.tx n f
  | cmdDone =>
    simp only [exec, execCmdDone]
    split <;> simp
  | poll ans =>
    simp only [exec, execPoll]
    split
    · simp
    · split
      · simp
      · simp
      · split <;> simp
  | _ => exact nofun

/-! ### Only an instruction faults -/

/-- An instruction faults in `s`, or does once the step has taken up something of what the environment holds. -/
def InstrFaults (s : State) (f : Fault) : Prop :=
  ∃ i pipe held reqs sched, exec i { s with pipe := pipe, held := held, reqs := reqs, sched := sched } = .fault f

theorem InstrFaults.here {i : Instr} {s : State} {f : Fault} (h : exec i s = .fault f) : InstrFaults s f :=
  ⟨i, s.pipe, s.held, s.reqs, s.sched, h⟩

theorem InstrFaults.taken {s : State} {f : Fault} {pipe : Option (List Byte)} {held : List Cmd}
    {reqs : List Request} {sched : List Turn}
    (h : InstrFaults { s with pipe := pipe, held := held, reqs := reqs, sched := sched } f) : InstrFaults s f := h

theorem present_fault {r : Request} {s : State} {f : Fault} (h : present r s = .fault f) : InstrFaults s f := by
  unfold present at h
  split at h
  · exact .here h
  · cases h
  · split at h <;> cases h
  · cases h

theorem retryHeld_fault {k : Nat} {s : State} {f : Fault} (h : retryHeld k s = .fault f) : InstrFaults s f := by
  rw [retryHeld] at h
  split at h
  · split at h
    · exact .taken (.here h)
    · cases h
  · cases h

theorem serveNext_fault {s : State} {f : Fault} (h : serveNext s = .fault f) : InstrFaults s f := by
  rw [serveNext] at h
  split at h
  · exact .taken (present_fault h)
  · exact retryHeld_fault h

theorem pipeTurn_fault {s : State} {f : Fault} (h : pipeTurn s = .fault f) : InstrFaults s f := by
  rw [pipeTurn] at h
  split at h
  · split at h
    · cases h
    · exact .here h
  · split at h
    · exact .taken (.here h)
    · exact .here h
  · exact .here h

theorem stepDefault_fault {s : State} {f : Fault} (h : stepDefault s = .fault f) : InstrFaults s f := by
  rw [stepDefault] at h
  split at h
  · exact pipeTurn_fault h
  · exact serveNext_fault h

theorem stepTurn_fault {τ : Turn} {s : State} {f : Fault} (h : stepTurn τ s = .fault f) : InstrFaults s f := by
  cases τ with
  | serve =>
    simp only [stepTurn] at h
    split at h
    · exact stepDefault_fault h
    · exact serveNext_fault h
  | proceed => exact stepDefault_fault h
  | retry k => exact retryHeld_fault h
  | arrive l => cases h

theorem step_fault {s : State} {f : Fault} (h : step s = .fault f) : InstrFaults s f := by
  rw [step, nextStep] at h
  split at h
  · exact stepDefault_fault h
  · exact .taken (stepTurn_fault h)

/-- Settles O58: a step faults only where an instruction does, and the invariant, which says nothing of what the
environment holds, keeps every access of an instruction inside its space. -/
theorem invNeverFaults : Obligations.InvNeverFaults := by
  unfold Obligations.InvNeverFaults
  intro s f hinv h
  obtain ⟨i, pipe, held, reqs, sched, hi⟩ := step_fault h
  refine exec_ne_fault ?_ i f hi
  exact ⟨hinv.rx, hinv.tx⟩

end Sys2Proof.Machine
end

section
/-! PROOFS. The two halves share no state (20_memory R73, 60_exceptions R245): an instruction of one half commutes
with putting anything in the place of the other. -/

namespace Sys2Proof.Machine

/-- What an answer becomes when its next state is changed. -/
def onNext (f : State → State) : Host.Outcome State Fault Refusal → Host.Outcome State Fault Refusal
  | .next s => .next (f s)
  | .fault r => .fault r
  | .refused r => .refused r

@[simp] theorem onNext_next (f : State → State) (s : State) : onNext f (.next s) = .next (f s) := rfl

theorem onNext_eq_next {f : State → State} {x : Host.Outcome State Fault Refusal} {t : State}
    (h : onNext f x = .next t) : ∃ u, x = .next u ∧ t = f u := by
  cases x with
  | next u =>
    cases h
    exact ⟨u, rfl, rfl⟩
  | fault r => cases h
  | refused r => cases h

/-- No instruction reads what the ports carried in the step before (R45). -/
theorem exec_clearOut (i : Instr) (s : State) : exec i s.clearOut = exec i s := by
  cases i <;> rfl

/-- Whether an instruction concerns the send half: its port operations, and the side channel's lines (R73, R100). -/
def concernsSend : Instr → Bool
  | .send _ | .writeStep _ | .poll _ | .time _ | .resetTx | .ackLine _ | .errLine _ => true
  | _ => false

/-- An instruction that commutes with putting anything in the place of one half does the same whatever that is. -/
theorem exec_of_commutes {side : State → State → State} {i : Instr} {s core t : State}
    (hc : ∀ o, exec i (side o core) = onNext (side o) (exec i core)) (h : exec i (side s core) = .next t) :
    ∃ u, t = side s u ∧ ∀ o, exec i (side o core) = .next (side o u) := by
  obtain ⟨u, hu, ht⟩ := onNext_eq_next ((hc s).symm.trans h)
  exact ⟨u, ht, fun o => by rw [hc o, hu]; rfl⟩

/-! ### The send half -/

/-- `s` with the receive side of `o`: all that the send half has no part in. -/
def State.withRxSide (o s : State) : State :=
  { s with rx := o.rx, pipe := o.pipe, reqs := o.reqs, sched := o.sched }

theorem watchdogAdvance_withRxSide (o : State) (d : Nat) (s : State) :
    watchdogAdvance d (o.withRxSide s) = o.withRxSide (watchdogAdvance d s) := by
  simp only [watchdogAdvance, apply_ite o.withRxSide]
  rfl

theorem countPoll_withRxSide (o : State) (ans : Option Line) (s : State) :
    countPoll ans (o.withRxSide s) = o.withRxSide (countPoll ans s) := by
  cases ans <;> simp only [countPoll, apply_ite o.withRxSide] <;> rfl

theorem pollAnswered_withRxSide (o : State) (ans : Option Line) (s : State) :
    pollAnswered ans (o.withRxSide s) = o.withRxSide (pollAnswered ans s) := by
  cases ans with
  | some l => exact countPoll_withRxSide o (some l) (s.emit _)
  | none =>
    have hw : watchdogAdvance (o.withRxSide s).cfg.pollTimeoutMs
        ((o.withRxSide s).emit (.sinkReadline (o.withRxSide s).cfg.pollTimeoutMs)) = _ :=
      watchdogAdvance_withRxSide o s.cfg.pollTimeoutMs (s.emit (.sinkReadline s.cfg.pollTimeoutMs))
    rw [pollAnswered_none, pollAnswered_none, hw, countPoll_withRxSide, apply_ite o.withRxSide]
    rfl

theorem lineArrives_withRxSide (o : State) (l : Line) (s : State) :
    lineArrives l (o.withRxSide s) = o.withRxSide (lineArrives l s) := by
  have hpoll := pollAnswered_withRxSide o (s.sc ++ [l]).head? { s.clearOut with sc := (s.sc ++ [l]).tail }
  simp only [lineArrives, apply_ite o.withRxSide, ← hpoll]
  rfl

theorem exec_send_withRxSide (o : State) (cmd : Cmd) (s : State) :
    exec (.send cmd) (o.withRxSide s) = onNext o.withRxSide (exec (.send cmd) s) := by
  simp only [exec, execSend, apply_ite (onNext o.withRxSide)]
  cases hr : assemble s.cfg cmd (payloadOf cmd) s.tx <;> simp only [State.withRxSide, hr] <;> rfl

theorem exec_writeStep_withRxSide (o : State) (n : Nat) (s : State) :
    exec (.writeStep n) (o.withRxSide s) = onNext o.withRxSide (exec (.writeStep n) s) := by
  simp only [exec, execWriteStep, apply_ite (onNext o.withRxSide)]
  cases hr : bufRead s.cfg .txbuf s.tx.epoch s.tx.txbuf s.tx.txPos (s.tx.txLen - s.tx.txPos) <;>
    simp only [State.withRxSide, hr, apply_ite (onNext _)] <;> rfl

theorem exec_poll_withRxSide (o : State) (ans : Option Line) (s : State) :
    exec (.poll ans) (o.withRxSide s) = onNext o.withRxSide (exec (.poll ans) s) := by
  have hpoll : ∀ ans q, pollAnswered ans { (o.withRxSide s).clearOut with sc := q }
      = o.withRxSide (pollAnswered ans { s.clearOut with sc := q }) :=
    fun ans q => pollAnswered_withRxSide o ans { s.clearOut with sc := q }
  have hsc : (o.withRxSide s).sc = s.sc := rfl
  simp only [exec, execPoll, apply_ite (onNext o.withRxSide), hsc]
  congr 1
  split
  · exact congrArg _ (hpoll none s.sc)
  · exact congrArg _ (hpoll _ s.sc)
  · next rest _ =>
    rw [apply_ite (onNext o.withRxSide), onNext_next, hpoll]
    rfl

theorem exec_withRxSide {i : Instr} (hi : concernsSend i = true) (o s : State) :
    exec i (o.withRxSide s) = onNext o.withRxSide (exec i s) := by
  cases i with
  | send cmd => exact exec_send_withRxSide o cmd s
  | writeStep n => exact exec_writeStep_withRxSide o n s
  | poll ans => exact exec_poll_withRxSide o ans s
  | time d => exact congrArg _ (watchdogAdvance_withRxSide o d s.clearOut)
  | resetTx => rfl
  | ackLine rest | errLine rest => exact congrArg _ (lineArrives_withRxSide o _ s)
  | _ => cases hi

/-- What an instruction that concerns the send half makes of `s` is the receive side of `s` as it was, and a send side
`u` that it makes of any state with that of `s`. -/
theorem exec_sendSide {i : Instr} {s t : State} (hi : concernsSend i = true) (h : exec i s = .next t) :
    ∃ u : State, t = s.withRxSide u
      ∧ ∀ s' : State, s'.cfg = s.cfg → s'.tx = s.tx → s'.sc = s.sc → s'.held = s.held →
        exec i s' = .next (s'.withRxSide u) := by
  rw [← exec_clearOut] at h
  obtain ⟨u, ht, hu⟩ := exec_of_commutes (side := State.withRxSide) (s := s) (exec_withRxSide hi · s.clearOut) h
  refine ⟨u, ht, fun s' hcfg htx hsc hheld => ?_⟩
  have hs' : s'.clearOut = s'.withRxSide s.clearOut := by
    simp [State.withRxSide, State.clearOut, ← hcfg, ← htx, ← hsc, ← hheld]
  rw [← exec_clearOut, hs', hu]

/-! ### The receive half -/

/-- `s` with the send side of `o`: all that the receive half has no part in. The lines that `s` has in `SC` stand
behind those of `o`. -/
def State.withTxSide (o s : State) : State :=
  { s with tx := o.tx, sc := o.sc ++ s.sc, held := o.held, reqs := o.reqs, sched := o.sched }

theorem scPush_withTxSide (o : State) (l : Line) (s : State) :
    (o.withTxSide s).scPush l = o.withTxSide (s.scPush l) := by
  simp [State.withTxSide, State.scPush]

theorem respond_withTxSide (o : State) (e : Event) (s : State) :
    respond e (o.withTxSide s) = o.withTxSide (respond e s) := by
  simp [respond_eq, State.withTxSide]

theorem receiveByte_withTxSide (o : State) (b : Byte) (s : State) :
    receiveByte b (o.withTxSide s) = (receiveByte b s).map fun x => (o.withTxSide x.1, x.2) := by
  simp only [receiveByte]
  rcases hb : byteStep s.cfg b s.rx with f | ⟨r, _ | e⟩
  · simp only [State.withTxSide, hb]
    rfl
  · simp only [State.withTxSide, hb]
    rfl
  · have hr := respond_withTxSide o e { s with rx := r }
    simp only [State.withTxSide, hb] at hr ⊢
    rw [hr]
    rfl

theorem exec_decode_withTxSide (o s : State) :
    exec .decode (o.withTxSide s) = onNext o.withTxSide (exec .decode s) := by
  have hqueue : (o.withTxSide s).rx.rxq = s.rx.rxq := rfl
  simp only [exec, execDecode, hqueue]
  split
  · rfl
  · next b q _ =>
    have hbyte : receiveByte b { (o.withTxSide s).clearOut with rx := { (o.withTxSide s).rx with rxq := q } } = _ :=
      receiveByte_withTxSide o b { s.clearOut with rx := { s.rx with rxq := q } }
    rw [hbyte]
    cases receiveByte b { s.clearOut with rx := { s.rx with rxq := q } } <;> rfl

theorem exec_cmdDone_withTxSide (o s : State) :
    exec .cmdDone (o.withTxSide s) = onNext o.withTxSide (exec .cmdDone s) := by
  have hpush := scPush_withTxSide o s.cfg.ackToken
    { s.clearOut with rx := { s.rx with acksOwed := s.rx.acksOwed - 1 } }
  simp only [exec, execCmdDone, apply_ite (onNext o.withTxSide), onNext_next, ← hpush]
  rfl

theorem exec_withTxSide {i : Instr} (hi : concernsSend i = false) (o s : State) :
    exec i (o.withTxSide s) = onNext o.withTxSide (exec i s) := by
  cases i with
  | send _ | writeStep _ | poll _ | time _ | resetTx | ackLine _ | errLine _ => cases hi
  | decode => exact exec_decode_withTxSide o s
  | cmdDone => exact exec_cmdDone_withTxSide o s
  | _ => rfl

/-- What an instruction that concerns the receive half makes of `s` is the send side of `s` as it was, with lines
behind those in `SC`, and a receive side `u` that it makes, with the same lines, of any state with that of `s`. -/
theorem exec_receiveSide {i : Instr} {s t : State} (hi : concernsSend i = false) (h : exec i s = .next t) :
    ∃ u : State, t = s.withTxSide u
      ∧ ∀ s' : State, s'.cfg = s.cfg → s'.rx = s.rx → s'.pipe = s.pipe →
        exec i s' = .next (s'.withTxSide u) := by
  have core : ∀ s' : State, s'.cfg = s.cfg → s'.rx = s.rx → s'.pipe = s.pipe →
      s'.clearOut = s'.withTxSide { s.clearOut with sc := [] } := fun s' hcfg hrx hpipe => by
    simp [State.withTxSide, State.clearOut, ← hcfg, ← hrx, ← hpipe]
  rw [← exec_clearOut, core s rfl rfl rfl] at h
  obtain ⟨u, ht, hu⟩ := exec_of_commutes (exec_withTxSide hi · _) h
  refine ⟨u, ht, fun s' hcfg hrx hpipe => ?_⟩
  rw [← exec_clearOut, core s' hcfg hrx hpipe, hu]

/-- Settles O52: an instruction leaves the other half's side as it was, and makes its own side's next state out of
its own side alone. -/
theorem halvesShareNoState : Obligations.HalvesShareNoState := by
  unfold Obligations.HalvesShareNoState
  intro s s' t i h hcfg
  cases i with
  | send _ | writeStep _ | poll _ | time _ | resetTx | ackLine _ | errLine _ =>
    obtain ⟨u, rfl, hu⟩ := exec_sendSide rfl h
    exact ⟨rfl, rfl, fun htx hsc hheld => ⟨_, hu s' hcfg htx hsc hheld, rfl, rfl, rfl, rfl⟩⟩
  | _ =>
    obtain ⟨u, rfl, hu⟩ := exec_receiveSide rfl h
    refine ⟨rfl, rfl, fun hrx hpipe => ⟨_, hu s' hcfg hrx hpipe, rfl, rfl, rfl, fun lines hlines => ?_⟩⟩
    exact congrArg _ (List.append_cancel_left hlines)

end Sys2Proof.Machine
end

section
/-! PROOFS. Encodings (30_encoding R80 to R93, R100): a frame's bytes and its instruction determine each other, and
what the encoder writes for a line or a port operation reads back. -/

namespace Sys2Proof.Machine

/-! ### Frames (R80, R82, R85, R89) -/

/-- A frame and the bytes after it, parted where the decoder parts them: marker, name, `00`, the rest. -/
theorem frameBytes_append (c : Config) (id : Nat) (p : List Byte) (crc : Word) (rest : List Byte) :
    frameBytes c id p crc ++ rest
      = c.marker ++ (spelling c id ++ 0#8 :: (le32 (BitVec.ofNat 32 p.length) ++ p ++ le32 crc ++ rest)) := by
  simp [frameBytes]

/-- The names of the table are told apart by their indices (R5, R89). -/
theorem nameIndex_eq_some_iff {c : Config} {name : List Byte} {id : Nat} :
    nameIndex c name = some id ↔ id < c.nameTable.length ∧ spelling c id = name := by
  constructor
  · intro h
    rw [nameIndex, List.findIdx?_eq_some_iff_getElem] at h
    obtain ⟨hid, hname, -⟩ := h
    exact ⟨hid, (spelling_eq hid).trans (by simpa using hname)⟩
  · rintro ⟨hid, rfl⟩
    exact nameIndex_spelling hid

/-- What stands after a frame's `00` is its length, its payload, its CRC field, and the bytes after the frame. -/
theorem frameFields_split {t : List Byte} {len : Nat} (hlen : (u32le t 0).toNat = len)
    (ht : 4 + len + 4 ≤ t.length) :
    le32 (BitVec.ofNat 32 ((t.drop 4).take len).length) ++ (t.drop 4).take len ++ le32 (u32le t (4 + len))
      ++ t.drop (4 + len + 4) = t := by
  have hsize : BitVec.ofNat 32 ((t.drop 4).take len).length = u32le t 0 := by
    rw [List.length_take, List.length_drop, Nat.min_eq_left (by omega), ← hlen, BitVec.ofNat_toNat,
      BitVec.setWidth_eq]
  rw [hsize, le32_u32le (by omega), le32_u32le (by omega), List.drop_zero, ← List.take_add, ← List.take_add,
    List.take_append_drop]

/-- The fields after a frame's `00`, read back one by one. -/
theorem frameFields_read {p rest t : List Byte} {crc : Word} (hp : p.length < 2 ^ 32)
    (ht : t = le32 (BitVec.ofNat 32 p.length) ++ p ++ le32 crc ++ rest) :
    (u32le t 0).toNat = p.length ∧ ¬ t.length < 4 + p.length + 4 ∧ (t.drop 4).take p.length = p
    ∧ u32le t (4 + p.length) = crc ∧ t.drop (4 + p.length + 4) = rest := by
  have hsize : (le32 (BitVec.ofNat 32 p.length)).length = 4 := le32_length _
  subst ht
  refine ⟨?len, ?long, ?payload, ?crc, List.drop_left' (by simp; omega)⟩
  case len => simp only [List.append_assoc, u32le_le32_append, BitVec.toNat_ofNat, Nat.mod_eq_of_lt hp]
  case long =>
    simp only [List.length_append, le32_length]
    omega
  case payload => rw [List.append_assoc, List.append_assoc, List.drop_left' hsize, List.take_left]
  case crc => simpa using u32le_append_le32 (le32 (BitVec.ofNat 32 p.length) ++ p) crc rest

/-- A frame that stands at the start of bytes is read, and the bytes after it are left (R85). -/
theorem decodeFramePrefix_frameBytes {c : Config} {id : Nat} {p : List Byte} {crc : Word} {i : Instr}
    (hid : id < c.nameTable.length) (hp : p.length < 2 ^ 32) (hi : frameInstr id p crc = some i)
    (rest : List Byte) : decodeFramePrefix c (frameBytes c id p crc ++ rest) = .ok (i, rest) := by
  obtain ⟨hlen, hlong, hpayload, hcrc, hrest⟩ := frameFields_read (crc := crc) (rest := rest) hp rfl
  rw [frameBytes_append, decodeFramePrefix, if_pos (List.isPrefixOf_iff_prefix.2 (List.prefix_append _ _)),
    List.drop_left]
  simp only [splitAtZero_append _ _ (spelling_no_zero hid), if_neg (Nat.not_lt.2 (spelling_length_le hid)),
    nameIndex_spelling hid, hlen, if_neg hlong, hpayload, hcrc, hi, hrest]

/-- What the decoder reads as a frame is that frame's bytes, and what it leaves is all that stands after them
(R80, R85). -/
theorem eq_frameBytes_of_decodeFramePrefix {c : Config} {bytes rest : List Byte} {i : Instr}
    (h : decodeFramePrefix c bytes = .ok (i, rest)) :
    ∃ id p crc, frameInstr id p crc = some i ∧ bytes = frameBytes c id p crc ++ rest := by
  simp only [decodeFramePrefix] at h
  repeat' split at h
  all_goals cases h
  next hmarker _ name t hsplit _ _ id hname hlong _ hinstr =>
    refine ⟨id, _, _, hinstr, ?_⟩
    obtain ⟨-, hspelling⟩ := nameIndex_eq_some_iff.1 hname
    obtain ⟨hbytes, -⟩ := eq_of_splitAtZero hsplit
    rw [frameBytes_append, frameFields_split rfl (Nat.not_lt.1 hlong), hspelling, ← hbytes]
    exact (List.prefix_iff_eq_append.1 (List.isPrefixOf_iff_prefix.1 hmarker)).symm

theorem decode_frameBytes {c : Config} {id : Nat} {p : List Byte} {crc : Word} {i : Instr}
    (hid : id < c.nameTable.length) (hp : p.length < 2 ^ 32) (hi : frameInstr id p crc = some i) :
    Sys2Proof.decode c (.pipe (frameBytes c id p crc)) = .ok i := by
  have hprefix := decodeFramePrefix_frameBytes hid hp hi []
  rw [List.append_nil] at hprefix
  simp only [Sys2Proof.decode, decodeFrame, hprefix]

/-- Bytes that decode to an instruction on the pipe are the bytes of one frame, and no more (R85). -/
theorem eq_frameBytes_of_decode {c : Config} {bytes : List Byte} {i : Instr}
    (h : Sys2Proof.decode c (.pipe bytes) = .ok i) :
    ∃ id p crc, frameInstr id p crc = some i ∧ bytes = frameBytes c id p crc := by
  simp only [Sys2Proof.decode, decodeFrame] at h
  split at h <;> cases h
  next hprefix =>
    obtain ⟨id, p, crc, hinstr, hbytes⟩ := eq_frameBytes_of_decodeFramePrefix hprefix
    exact ⟨id, p, crc, hinstr, hbytes.trans (List.append_nil _)⟩

/-- The encoder writes the frame of the row's variant (R80). -/
theorem encode_frame {id : Nat} {p : List Byte} {crc : Word} {i : Instr} (h : frameInstr id p crc = some i)
    (c : Config) : encode c i = .pipe (frameBytes c id p crc) := by
  unfold frameInstr at h
  split at h <;> cases h <;> rfl

/-- A frame's one condition is that its length fits the length field (R83). -/
theorem wellFormed_frame {id : Nat} {p : List Byte} {crc : Word} {i : Instr} (h : frameInstr id p crc = some i) :
    i.wellFormed = true ↔ p.length < 2 ^ 32 := by
  have hfits : i.wellFormed = payloadFits p := by
    unfold frameInstr at h
    split at h <;> cases h <;> rfl
  rw [hfits, payloadFits, decide_eq_true_iff]

/-! ### Lines (R92, R93) -/

/-- A line begins with at most one of the two tokens: neither of them begins with the other (R5). -/
theorem not_ackToken_of_errToken {c : Config} {l : Line} (h : c.errToken <+: l) : ¬ c.ackToken <+: l := by
  obtain ⟨-, -, -, -, -, -, -, -, hae, hea, -⟩ := c.legal_iff.1 c.isLegal
  exact fun ha => (List.prefix_or_prefix_of_prefix ha h).elim hae hea

/-- A token holds no line terminator (R5), so a line that a token begins is a line when its rest is one. -/
theorem lineClean_token_append {c : Config} {token rest : List Byte} (ht : token = c.ackToken ∨ token = c.errToken)
    (hr : lineClean rest = true) : lineClean (token ++ rest) = true := by
  obtain ⟨-, -, -, -, -, -, -, -, -, -, hbytes, -⟩ := c.legal_iff.1 c.isLegal
  have htoken : 0x0A#8 ∉ token := fun hm =>
    (hbytes _ (List.mem_append.2 (ht.imp (· ▸ hm) (· ▸ hm)))).1 rfl
  simpa [lineClean, htoken] using hr

theorem decode_ackLine {c : Config} {rest : List Byte} (h : lineClean rest = true) :
    Sys2Proof.decode c (.side (lineBytes (c.ackToken ++ rest))) = .ok (.ackLine rest) := by
  simp [Sys2Proof.decode, decodeLine, readWholeLine_lineBytes _ (lineClean_token_append (.inl rfl) h)]

theorem decode_errLine {c : Config} {rest : List Byte} (h : lineClean rest = true) :
    Sys2Proof.decode c (.side (lineBytes (c.errToken ++ rest))) = .ok (.errLine rest) := by
  have hack : ¬ c.ackToken <+: c.errToken ++ rest := not_ackToken_of_errToken (List.prefix_append _ _)
  simp [Sys2Proof.decode, decodeLine, readWholeLine_lineBytes _ (lineClean_token_append (.inr rfl) h), hack]

/-! ### Port operations (R100) -/

/-- A port operation stands at its port as it is. -/
theorem encode_portOp {i : Instr} (h : i.isPortOp = true) (c : Config) : encode c i = .port i := by
  cases i with
  | feed _ | decode | drain | cmdDone | resetRx | send _ | writeStep _ | poll _ | time _ | resetTx => rfl
  | _ => cases h

theorem decode_portOp {i : Instr} (h : i.isPortOp = true) (hw : i.wellFormed = true) (c : Config) :
    Sys2Proof.decode c (.port i) = .ok i := by
  simp [Sys2Proof.decode, h, hw]

/-! ### The round trips -/

/-- The rows of the opcode table: 16 frames, each with its variant's number (R88), 10 port operations and 2 lines. -/
theorem instr_rows (i : Instr) :
    (∃ id p crc, frameInstr id p crc = some i) ∨ i.isPortOp = true
    ∨ ∃ rest, i = .ackLine rest ∨ i = .errLine rest := by
  cases i with
  | setColor p crc => exact .inl ⟨0, p, crc, rfl⟩
  | breathe p crc => exact .inl ⟨1, p, crc, rfl⟩
  | gradient p crc => exact .inl ⟨2, p, crc, rfl⟩
  | movingGradient p crc => exact .inl ⟨3, p, crc, rfl⟩
  | crossFade p crc => exact .inl ⟨4, p, crc, rfl⟩
  | rainbow p crc => exact .inl ⟨5, p, crc, rfl⟩
  | fire p crc => exact .inl ⟨6, p, crc, rfl⟩
  | twinkle p crc => exact .inl ⟨7, p, crc, rfl⟩
  | neuralDrop p crc => exact .inl ⟨8, p, crc, rfl⟩
  | waterDrop p crc => exact .inl ⟨9, p, crc, rfl⟩
  | startRain p crc => exact .inl ⟨10, p, crc, rfl⟩
  | stopRain p crc => exact .inl ⟨11, p, crc, rfl⟩
  | status p crc => exact .inl ⟨12, p, crc, rfl⟩
  | encodedBuffer p crc => exact .inl ⟨13, p, crc, rfl⟩
  | fullBuffer p crc => exact .inl ⟨14, p, crc, rfl⟩
  | speedTest p crc => exact .inl ⟨15, p, crc, rfl⟩
  | feed _ | decode | drain | cmdDone | resetRx | send _ | writeStep _ | poll _ | time _ | resetTx =>
    exact .inr (.inl rfl)
  | ackLine rest => exact .inr (.inr ⟨rest, .inl rfl⟩)
  | errLine rest => exact .inr (.inr ⟨rest, .inr rfl⟩)

/-- Settles O1, by the kinds of row: a frame is read up to its end, a line up to its `0A`, and a port operation
stands at its port as it is. -/
theorem decodeOfEncode : Obligations.DecodeOfEncode := by
  unfold Obligations.DecodeOfEncode
  intro c i hwf hknown
  obtain ⟨id, p, crc, hi⟩ | hport | ⟨rest, rfl | rfl⟩ := instr_rows i
  · rw [encode_frame hi]
    exact decode_frameBytes (hknown id p crc hi) ((wellFormed_frame hi).1 hwf) hi
  · rw [encode_portOp hport]
    exact decode_portOp hport hwf c
  · exact decode_ackLine hwf
  · exact decode_errLine hwf

/-- Settles O2: bytes that decode are a frame's, and the encoder writes that frame. -/
theorem encodeOfDecodedBytes : Obligations.EncodeOfDecodedBytes := by
  unfold Obligations.EncodeOfDecodedBytes
  intro c bytes i h
  obtain ⟨id, p, crc, hi, rfl⟩ := eq_frameBytes_of_decode h
  exact encode_frame hi c

/-- Settles O3: each word is the frame of R80, or the line of R92, of its instruction, and so reads back. -/
theorem writtenWordsDecode : Obligations.WrittenWordsDecode := by
  unfold Obligations.WrittenWordsDecode
  refine ⟨?v1, ?v9, ?v13, ?ack, ?err⟩
  case v1 =>
    exact decode_frameBytes (c := Config.standard) (id := 0) (crc := 0x0EAFF525#32)
      (p := [0x03, 0x00, 0x00, 0x00, 0x0A, 0x00, 0x00, 0x00, 0x00, 0x00, 0xFF, 0x00]) (by decide) (by decide) rfl
  case v9 =>
    exact decode_frameBytes (c := Config.standard) (id := 8) (crc := 0x33F170F2#32)
      (p := [0x03, 0x00, 0x00, 0x00]) (by decide) (by decide) rfl
  case v13 =>
    exact decode_frameBytes (c := Config.standard) (id := 12) (crc := 0#32) (p := []) (by decide) (by decide) rfl
  case ack => exact decode_ackLine (c := Config.standard) (rest := []) rfl
  case err => exact decode_errLine (c := Config.standard) (rest := [0x20, 0x30, 0x31]) rfl

end Sys2Proof.Machine
end

section
/-! PROOFS. Token lines that arrive on the side channel (30_encoding R92, R93, 43_ack_handshake R201 to R203;
log 6). -/

namespace Sys2Proof.Machine

/-! ### What a poll makes of a token line (R201 to R203) -/

@[simp] theorem isAckLine_iff (c : Config) (l : Line) : isAckLine c l = true ↔ c.ackToken <+: l :=
  List.isPrefixOf_iff_prefix

/-- No line that begins with the error token begins with the other one, so the order of the tests is no matter. -/
@[simp] theorem isErrLine_iff (c : Config) (l : Line) : isErrLine c l = true ↔ c.errToken <+: l := by
  simp only [isErrLine, Bool.and_eq_true, Bool.not_eq_true', ← Bool.not_eq_true, isAckLine_iff,
    List.isPrefixOf_iff_prefix, and_iff_right_iff_imp]
  exact not_ackToken_of_errToken

/-- A completion line ends the wait in success (R202). -/
theorem pollAnswered_completionLine {s : State} {l : Line} (h : s.cfg.ackToken <+: l) :
    pollAnswered (some l) s = { s with
      tx := { s.tx with polls := s.tx.polls + 1, txState := .idle, lastOutcome := .ackOk, wdArmed := false }
      out := s.out ++ [.sinkReadline s.cfg.pollTimeoutMs, .outcome .ackOk] } := by
  simp [pollAnswered, countPoll, h, ackOk, State.setOutcome, State.emit]

/-- An error line ends the wait in an error and empties `SC` (R203). -/
theorem pollAnswered_errorLine {s : State} {l : Line} (h : s.cfg.errToken <+: l) :
    pollAnswered (some l) s = { s with
      sc := []
      tx := { s.tx with
        polls := s.tx.polls + 1, txState := .idle, lastOutcome := .ackError, wdArmed := armedAfterWait s }
      out := s.out ++ [.sinkReadline s.cfg.pollTimeoutMs, .outcome .ackError, .scFlush] } := by
  simp [pollAnswered, countPoll, h, not_ackToken_of_errToken h, ackError, State.setOutcome, State.emit,
    armedAfterWait]

/-! ### A line that arrives at a sender that waits (log 6) -/

/-- With nothing before it, the line is the answer of the poll. -/
theorem lineArrives_of_waiting_alone {s : State} {l : Line} (hw : s.tx.txState = .waiting) (hq : s.sc = []) :
    lineArrives l s = pollAnswered (some l) s.clearOut := by
  simp [lineArrives, hw, hq, State.clearOut]

/-- With lines before it, the oldest of them is the answer: one poll is counted, and the receive half is left as it
is. -/
theorem lineArrives_counts_one_poll {s : State} {l h : Line} {q : List Line} (hw : s.tx.txState = .waiting)
    (hq : s.sc = h :: q) : (lineArrives l s).rx = s.rx ∧ (lineArrives l s).tx.polls = s.tx.polls + 1 := by
  have hpoll : lineArrives l s = pollAnswered (some h) { s.clearOut with sc := q ++ [l] } := by
    simp [lineArrives, hw, hq]
  obtain ⟨hrx, hpolls, -⟩ :=
    countPoll_plain (some h) ({ s.clearOut with sc := q ++ [l] }.emit (.sinkReadline s.cfg.pollTimeoutMs))
  rw [hpoll]
  exact ⟨hrx, hpolls⟩

/-- Settles O49, by what the sender does: it leaves the line, takes it, or polls the oldest line before it. -/
theorem tokenLinesArrive : Obligations.TokenLinesArrive := by
  unfold Obligations.TokenLinesArrive
  intro s rest
  refine ⟨fun hw => ?leaves, fun hw hq => ?takes, fun h q hw hq => ?polls⟩
  case leaves =>
    exact ⟨congrArg _ (lineArrives_of_not_waiting hw), congrArg _ (lineArrives_of_not_waiting hw)⟩
  case takes =>
    have hack : lineArrives (s.cfg.ackToken ++ rest) s = _ :=
      (lineArrives_of_waiting_alone hw hq).trans
        (pollAnswered_completionLine (s := s.clearOut) (List.prefix_append _ _))
    have herr : lineArrives (s.cfg.errToken ++ rest) s = _ :=
      (lineArrives_of_waiting_alone hw hq).trans
        (pollAnswered_errorLine (s := s.clearOut) (List.prefix_append _ _))
    rw [← hq] at herr
    exact ⟨congrArg _ hack, congrArg _ herr⟩
  case polls =>
    have hbehind : ∀ l, s.sc ++ [l] = h :: (q ++ [l]) := fun l => by rw [hq, List.cons_append]
    exact ⟨⟨lineArrives_of_waiting hw (hbehind _), _, rfl, lineArrives_counts_one_poll hw hq⟩,
      lineArrives_of_waiting hw (hbehind _), _, rfl, lineArrives_counts_one_poll hw hq⟩

end Sys2Proof.Machine
end

section
/-! PROOFS. One step of `DECODE`: the first byte leaves the FIFO and goes to the marker test, and if it completes no
marker to the rule of its phase (40_rx_parser R110 to R121, R123, R126, 60_exceptions R235, R236). -/

namespace Sys2Proof.Machine

/-! ### The ports (R110, R111, R123) -/

/-- Settles O11: both meanings, written out. -/
theorem fifoPorts : Obligations.FifoPorts := by
  unfold Obligations.FifoPorts
  exact ⟨fun _ _ => rfl, fun _ => rfl⟩

theorem exec_decode_nil {s : State} (h : s.rx.rxq = []) :
    exec .decode s = .next { s with rx := { s.rx with decoding := false }, out := [.incomplete] } := by
  simp [exec, execDecode, h, State.emit, State.clearOut]

/-- Settles O12: the FIFO is empty, or its first byte is taken: from a state of the invariant its byte step does not
fault. -/
theorem decodeTakesTheFirstByte : Obligations.DecodeTakesTheFirstByte := by
  unfold Obligations.DecodeTakesTheFirstByte
  refine ⟨fun s h => exec_decode_nil h, fun s b q hinv hq => ?_⟩
  obtain ⟨r, ev, hstep, -⟩ := byteStep_inv hinv.rx b
  exact ⟨r, ev, hstep, exec_decode_byte hq hstep⟩

/-! ### The byte step, phase by phase (R112) -/

/-- The registers as the rule of the phase sees them: the marker test has come before it (R112). -/
def RxRegs.tested (c : Config) (b : Byte) (r : RxRegs) : RxRegs := { r with mhist := nextMhist c r.mhist b }

theorem byteStep_of_completes {c : Config} {b : Byte} {r : RxRegs} (h : completesMarker c r.mhist b = true) :
    byteStep c b r = .ok (markerDetected { r with mhist := [] }) := by
  simp [byteStep, h, nextMhist_of_completes h]

section
variable {c : Config} {b : Byte} {r : RxRegs} (hm : completesMarker c r.mhist b = false)
include hm

theorem byteStep_seekMarker (hp : r.phase = .seekMarker) :
    byteStep c b r = .ok (r.tested c b, none) := by
  simp [byteStep, RxRegs.tested, hm, hp]

theorem byteStep_nameByte (hp : r.phase = .readName) (hb : b ≠ 0#8) :
    byteStep c b r = nameByte c b (r.tested c b) := by
  simp [byteStep, RxRegs.tested, hm, hp, hb]

theorem byteStep_lengthByte (hp : r.phase = .readLength) :
    byteStep c b r = .ok (lengthByte c b (r.tested c b)) := by
  simp [byteStep, RxRegs.tested, hm, hp]

theorem byteStep_payloadByte (hp : r.phase = .readPayload) :
    byteStep c b r = payloadByte c b (r.tested c b) := by
  simp [byteStep, RxRegs.tested, hm, hp]

theorem byteStep_crcByte (hp : r.phase = .readCrc) :
    byteStep c b r = crcByte c b (r.tested c b) := by
  simp [byteStep, RxRegs.tested, hm, hp]

end

theorem byteStep_nameEnd {c : Config} {r : RxRegs} (hm : completesMarker c r.mhist 0#8 = false)
    (hp : r.phase = .readName) :
    byteStep c 0#8 r = nameEnd c (r.tested c 0#8) := by
  simp [byteStep, RxRegs.tested, hm, hp]

/-! ### The marker (R114, R126, R236) -/

/-- Settles O14, by whether a frame was in flight. -/
theorem markerRestartsTheParser : Obligations.MarkerRestartsTheParser := by
  unfold Obligations.MarkerRestartsTheParser
  intro s b q hq
  refine ⟨fun hm => ?restart, fun hm hp => exec_decode_byte hq (byteStep_seekMarker hm hp)⟩
  case restart =>
    rw [exec_decode_byte hq (byteStep_of_completes hm)]
    by_cases hp : s.rx.phase = .seekMarker
    · simp [hp, byteTaken, msgClear, crcInit]
    · simp [hp, byteTaken, msgClear, crcInit, responsePorts, responseLines]

/-! ### The rules of the phases (R115 to R121) -/

/-- Whatever raised an error, its recovery is the same (R235). -/
theorem raiseRxError_eq (e : RxError) (r : RxRegs) : raiseRxError e r = (recovered r.mhist r, some (.err e)) := rfl

/-- One byte written inside a space. -/
theorem bufWrite_byte {c : Config} {sp : Space} {i : Nat} (h : i < spaceSize c sp) (m : Memory) (b : Byte) :
    bufWrite c sp m i [b] = .ok (memWrite m i b) := by
  rw [bufWrite, if_pos (by simpa using h)]
  rfl

/-- A read from a space's start, inside it. -/
theorem bufRead_zero {c : Config} {sp : Space} {n : Nat} (h : n ≤ spaceSize c sp) (ep : Nat) (m : Memory) :
    bufRead c sp ep m 0 n = .ok (memReadN sp ep m 0 n) := by
  rw [bufRead, if_pos (by omega)]

/-- R115, after the byte `NAME_MAX`. -/
theorem nameByte_of_full {c : Config} {b : Byte} {r : RxRegs} (h : r.nameLen = c.nameMax) :
    nameByte c b r = .ok (recovered r.mhist r, some (.err .nameTooLong)) := by
  rw [nameByte, if_pos h, raiseRxError_eq]

/-- R115, while there is room. -/
theorem nameByte_of_room {c : Config} {b : Byte} {r : RxRegs} (h : r.nameLen < c.nameMax) :
    nameByte c b r
      = .ok ({ r with nameBuf := memWrite r.nameBuf r.nameLen b, nameLen := r.nameLen + 1 }, none) := by
  rw [nameByte, if_neg (Nat.ne_of_lt h), bufWrite_byte h]

/-- Settles O15, by whether the name is full: the invariant bounds its length by `NAME_MAX`. -/
theorem nameByteRule : Obligations.NameByteRule := by
  unfold Obligations.NameByteRule
  intro s b q hinv hq hp hb hm
  have hstep := byteStep_nameByte hm hp hb
  split
  case isTrue hfull => exact exec_decode_byte hq (hstep.trans (nameByte_of_full hfull))
  case isFalse hopen =>
    have hroom : s.rx.nameLen < s.cfg.nameMax := lt_of_le_of_ne hinv.rx.nameLen_le hopen
    exact exec_decode_byte hq (hstep.trans (nameByte_of_room hroom))

/-- The name of an entry is the one spelling of its index. -/
theorem nameTable_getElem?_name_iff {c : Config} {i : Nat} {name : List Byte} :
    (c.nameTable[i]?).map (·.name) = some name ↔ nameIndex c name = some i := by
  rw [nameIndex_eq_some_iff, Option.map_eq_some_iff]
  constructor
  · rintro ⟨e, he, rfl⟩
    obtain ⟨hi, rfl⟩ := List.getElem?_eq_some_iff.1 he
    exact ⟨hi, spelling_eq hi⟩
  · rintro ⟨hi, rfl⟩
    exact ⟨_, List.getElem?_eq_getElem hi, (spelling_eq hi).symm⟩

theorem nameIndex_eq_none_iff {c : Config} {name : List Byte} :
    nameIndex c name = none ↔ ∀ e ∈ c.nameTable, e.name ≠ name := by
  simp [nameIndex, List.findIdx?_eq_none_iff]

section
variable {c : Config} {r : RxRegs} (hlen : r.nameLen ≤ c.nameMax)
include hlen

/-- R116, for a name in the table. -/
theorem nameEnd_known {i : Nat}
    (h : nameIndex c (memReadN .nameBuf r.epoch r.nameBuf 0 r.nameLen) = some i) :
    nameEnd c r = .ok ({ r with nameId := i, lenAcc := 0#32, lenCnt := 0, phase := .readLength }, none) := by
  simp only [nameEnd, bufRead_zero (sp := .nameBuf) hlen, h]

/-- R116, for any other name. -/
theorem nameEnd_unknown (h : nameIndex c (memReadN .nameBuf r.epoch r.nameBuf 0 r.nameLen) = none) :
    nameEnd c r = .ok (recovered r.mhist r, some (.err .unknownName)) := by
  simp only [nameEnd, bufRead_zero (sp := .nameBuf) hlen, h, raiseRxError_eq]

end

/-- Settles O16, by whether the table has the name: the invariant keeps it inside `name_buf`. -/
theorem nameEndRule : Obligations.NameEndRule := by
  unfold Obligations.NameEndRule
  intro s q hinv hq hp hm
  have hstep := byteStep_nameEnd hm hp
  have hlen := hinv.rx.nameLen_le
  refine ⟨fun i hi => ?known, fun hnone => ?unknown⟩
  case known =>
    have hrule := nameEnd_known (r := s.rx.tested s.cfg 0#8) hlen (nameTable_getElem?_name_iff.1 hi)
    exact exec_decode_byte hq (hstep.trans hrule)
  case unknown =>
    exact exec_decode_byte hq (hstep.trans (nameEnd_unknown hlen (nameIndex_eq_none_iff.2 hnone)))

/-- A counter of four bytes that stands at 3 waits for the last of them. -/
theorem not_lt_three {n : Fin 4} (h : n.val = 3) : ¬ n < 3 := by
  rw [Fin.lt_def, h]
  decide

/-- R117. -/
theorem lengthByte_of_lt {c : Config} {b : Byte} {r : RxRegs} (h : r.lenCnt.val < 3) :
    lengthByte c b r = ({ r with lenAcc := accumulate r.lenAcc r.lenCnt b, lenCnt := r.lenCnt + 1 }, none) := by
  rw [lengthByte, if_pos (Fin.lt_def.2 h)]

section
variable {c : Config} {b : Byte} {r : RxRegs} {l : Nat} (hcnt : r.lenCnt.val = 3)
  (hl : l = (accumulate r.lenAcc 3 b).toNat)
include hcnt hl

/-- R118, on a length above `LEN_CAP`. -/
theorem lengthByte_of_oversize (hcap : l > c.lenCap) :
    lengthByte c b r = (recovered r.mhist r, some (.err .oversize)) := by
  rw [lengthByte, if_neg (not_lt_three hcnt)]
  simp only [← hl, if_pos hcap, raiseRxError_eq]

/-- R118, on a length that `LEN_CAP` allows and PBUF does not hold. -/
theorem lengthByte_of_alloc (hcap : ¬ l > c.lenCap) (hram : l > c.payloadRamBytes) :
    lengthByte c b r = (recovered r.mhist r, some (.err .alloc)) := by
  rw [lengthByte, if_neg (not_lt_three hcnt)]
  simp only [← hl, if_neg hcap, if_pos hram, raiseRxError_eq]

/-- R118, on a length that is accepted. -/
theorem lengthByte_of_accepted (hcap : ¬ l > c.lenCap) (hram : ¬ l > c.payloadRamBytes) :
    lengthByte c b r = ({ r with
      plen := l, payCnt := 0, crcRun := crcInit, crcAcc := 0#32, crcCnt := 0, lenCnt := 0
      hwm := max r.hwm l, phase := if l = 0 then .readCrc else .readPayload }, none) := by
  rw [lengthByte, if_neg (not_lt_three hcnt)]
  simp only [← hl, if_neg hcap, if_neg hram]

end

/-- Settles O17, by the length byte's number, and for the fourth by what the length is checked against. -/
theorem lengthByteRule : Obligations.LengthByteRule := by
  unfold Obligations.LengthByteRule
  intro s b q hq hp hm
  have hstep := byteStep_lengthByte hm hp
  refine ⟨fun hcnt => ?accumulated, fun l hcnt hl => ?checked⟩
  case accumulated => exact exec_decode_byte hq (hstep.trans (congrArg _ (lengthByte_of_lt hcnt)))
  case checked =>
    split
    case isTrue hcap =>
      exact exec_decode_byte hq (hstep.trans (congrArg _ (lengthByte_of_oversize hcnt hl hcap)))
    case isFalse hcap =>
      split
      case isTrue hram =>
        exact exec_decode_byte hq (hstep.trans (congrArg _ (lengthByte_of_alloc hcnt hl hcap hram)))
      case isFalse hram =>
        exact exec_decode_byte hq (hstep.trans (congrArg _ (lengthByte_of_accepted hcnt hl hcap hram)))

/-- R119. -/
theorem payloadByte_of_room {c : Config} {b : Byte} {r : RxRegs} (hp : r.phase = .readPayload)
    (h : r.payCnt < c.payloadRamBytes) :
    payloadByte c b r = .ok ({ r with
      pbuf := memWrite r.pbuf r.payCnt b, crcRun := crcUpdate r.crcRun b, payCnt := r.payCnt + 1
      phase := if r.payCnt + 1 = r.plen then .readCrc else .readPayload }, none) := by
  simp only [payloadByte, bufWrite_byte (sp := .pbuf) h, hp]

/-- The payload in flight stands inside PBUF (R62). -/
theorem RxInv.plen_fits {c : Config} {r : RxRegs} (h : RxInv c r) : r.plen ≤ c.payloadRamBytes :=
  h.plen_le.trans h.hwm_le

/-- Settles O18: a payload in flight is not yet complete, so the byte's address is inside PBUF. -/
theorem payloadByteRule : Obligations.PayloadByteRule := by
  unfold Obligations.PayloadByteRule
  intro s b q hinv hq hp hm
  have hroom : s.rx.payCnt < s.cfg.payloadRamBytes := (hinv.rx.payload_open hp).trans_le hinv.rx.plen_fits
  exact exec_decode_byte hq ((byteStep_payloadByte hm hp).trans (payloadByte_of_room hp hroom))

/-- R120. -/
theorem crcByte_of_lt {c : Config} {b : Byte} {r : RxRegs} (h : r.crcCnt.val < 3) :
    crcByte c b r
      = .ok ({ r with crcAcc := accumulate r.crcAcc r.crcCnt b, crcCnt := r.crcCnt + 1 }, none) := by
  rw [crcByte, if_pos (Fin.lt_def.2 h)]

/-- When the CRC field comes, the running CRC is that of the payload in PBUF (R27). -/
theorem RxInv.crcRun_complete {c : Config} {r : RxRegs} (h : RxInv c r) (hp : r.phase = .readCrc) :
    r.crcRun ^^^ 0xFFFFFFFF#32 = crc32 (memReadN .pbuf r.epoch r.pbuf 0 r.plen) := by
  rw [h.crcRun_eq, h.payload_full hp, crc32]

section
variable {c : Config} {b : Byte} {r : RxRegs} (hcnt : r.crcCnt.val = 3)
include hcnt

/-- R121, on a CRC field that does not match. -/
theorem crcByte_of_mismatch (hcrc : accumulate r.crcAcc 3 b ≠ r.crcRun ^^^ 0xFFFFFFFF#32) :
    crcByte c b r = .ok (recovered r.mhist r, some (.err .crc)) := by
  rw [crcByte, if_neg (not_lt_three hcnt), if_pos hcrc, raiseRxError_eq]

variable (hcrc : accumulate r.crcAcc 3 b = r.crcRun ^^^ 0xFFFFFFFF#32) (hlen : r.plen ≤ c.payloadRamBytes)
  {e : NameEntry} (he : c.nameTable[r.nameId]? = some e)
include hcrc hlen he

/-- R121, on a good CRC and a payload that does not fit the layout. -/
theorem crcByte_of_malformed
    (hd : subDecode c.trailingPolicy r.nameId e.cls (memReadN .pbuf r.epoch r.pbuf 0 r.plen) = none) :
    crcByte c b r = .ok (recovered r.mhist r, some (.err .malformed)) := by
  rw [crcByte, if_neg (not_lt_three hcnt), if_neg (not_not.2 hcrc)]
  simp only [he, bufRead_zero (sp := .pbuf) hlen, hd, raiseRxError_eq]

/-- R121, on a good CRC and a payload of the layout. -/
theorem crcByte_of_decoded {cmd : Cmd}
    (hd : subDecode c.trailingPolicy r.nameId e.cls (memReadN .pbuf r.epoch r.pbuf 0 r.plen) = some cmd) :
    crcByte c b r
      = .ok ({ recovered r.mhist r with acksOwed := r.acksOwed + 1 }, some (.frameOk cmd)) := by
  rw [crcByte, if_neg (not_lt_three hcnt), if_neg (not_not.2 hcrc)]
  simp only [he, bufRead_zero (sp := .pbuf) hlen, hd]
  rfl

end

/-- Settles O19: the first three bytes are accumulated; the fourth is answered by the CRC first, then the layout. -/
theorem crcByteRule : Obligations.CrcByteRule := by
  unfold Obligations.CrcByteRule
  intro s b q hinv hq hp hm
  have hstep := byteStep_crcByte hm hp
  refine ⟨fun hcnt => ?accumulated, ?last⟩
  case accumulated => exact exec_decode_byte hq (hstep.trans (crcByte_of_lt hcnt))
  case last =>
    rintro payload e hcnt rfl he
    rw [← hinv.rx.crcRun_complete hp]
    have hlen := hinv.rx.plen_fits
    split
    case isTrue hcrc => exact exec_decode_byte hq (hstep.trans (crcByte_of_mismatch hcnt hcrc))
    case isFalse hcrc =>
      have hmatch := not_not.1 hcrc
      cases hd : subDecode s.cfg.trailingPolicy s.rx.nameId e.cls
          (memReadN .pbuf s.rx.epoch s.rx.pbuf 0 s.rx.plen) with
      | none => exact exec_decode_byte hq (hstep.trans (crcByte_of_malformed hcnt hmatch hlen he hd))
      | some cmd =>
        have hrule := crcByte_of_decoded (r := s.rx.tested s.cfg b) hcnt hmatch hlen he hd
        exact exec_decode_byte hq (hstep.trans hrule)

end Sys2Proof.Machine
end

section
/-! PROOFS. The marker test over a whole byte string (40_rx_parser R113, 00_scope R6): for a border-free marker the
detections so far do not matter. -/

namespace Sys2Proof.Machine

/-! ### One byte (R113) -/

/-- The test of R113 is a suffix test, whatever the history. -/
theorem completesMarker_iff_suffix (c : Config) (h : List Byte) (b : Byte) :
    completesMarker c h b = true ↔ c.marker <:+ h ++ [b] := by
  rw [completesMarker, Bool.and_eq_true, decide_eq_true_eq, beq_iff_eq, lastN_eq_self_iff_suffix]
  exact and_iff_right_of_imp List.IsSuffix.length_le

/-- The last bytes of a string, counted up to its length. -/
theorem lastN_eq_drop_min (n : Nat) (w : List Byte) : lastN n w = w.drop (w.length - min w.length n) := by
  rw [lastN]
  congr 1
  omega

/-! ### A border-free marker (R6) -/

/-- What both begins and ends a border-free string is empty or the whole of it. -/
theorem eq_nil_or_eq_of_border {m p : List Byte} (hb : borderFree m = true) (hpre : p <+: m) (hsuf : p <:+ m) :
    p = [] ∨ p = m := by
  by_cases hlen : p.length < m.length
  · have hk := List.all_eq_true.1 hb p.length (List.mem_range.2 hlen)
    rw [List.prefix_iff_eq_take] at hpre
    rw [List.suffix_iff_eq_drop] at hsuf
    rw [Bool.or_eq_true, decide_eq_true_eq, decide_eq_true_eq, ← hpre, ← hsuf] at hk
    exact .inl (List.length_eq_zero_iff.1 (hk.resolve_right (not_not.2 rfl)))
  · exact .inr (hpre.eq_of_length_le (Nat.not_lt.1 hlen))

/-- After a border-free marker, another one ends only when as many bytes have come as it has. -/
theorem length_le_of_suffix_append {m u v : List Byte} (hb : borderFree m = true) (hu : m <:+ u)
    (h : m <:+ u ++ v) (hv : v ≠ []) : m.length ≤ v.length := by
  by_contra hlt
  obtain ⟨p, rfl⟩ : v <:+ m :=
    List.suffix_of_suffix_length_le (List.suffix_append u v) h (Nat.le_of_not_le hlt)
  have hpu : p <:+ u := List.suffix_append_self_iff.1 h
  have hpm : p <:+ p ++ v := List.suffix_of_suffix_length_le hpu hu (by simp)
  obtain rfl | hp := eq_nil_or_eq_of_border hb (List.prefix_append p v) hpm
  · simp at hlt
  · exact hv (List.self_eq_append_right.1 hp)

/-! ### The history after a byte string (R113) -/

theorem historyAfter_concat (c : Config) (w : List Byte) (b : Byte) :
    historyAfter c (w ++ [b]) = nextMhist c (historyAfter c w) b := by
  simp [historyAfter]

/-- The history is that of the bytes since the last detection, which ended with a marker. -/
theorem historyAfter_eq (c : Config) (w : List Byte) :
    ∃ u v, w = u ++ v ∧ (u = [] ∨ c.marker <:+ u) ∧ historyAfter c w = lastN (c.marker.length - 1) v := by
  induction w using List.reverseRecOn with
  | nil => exact ⟨[], [], rfl, .inl rfl, (lastN_of_length_le (Nat.zero_le _)).symm⟩
  | append_singleton w b ih =>
    obtain ⟨u, v, rfl, hu, hv⟩ := ih
    rw [historyAfter_concat, hv]
    by_cases hm : c.marker <:+ v ++ [b]
    · refine ⟨u ++ v ++ [b], [], (List.append_nil _).symm, .inr ?_, ?_⟩
      · rw [List.append_assoc]
        exact hm.trans (List.suffix_append _ _)
      · rw [nextMhist_of_completes ((completesMarker_iff c v b).2 hm), lastN_of_length_le (Nat.zero_le _)]
    · exact ⟨u, v ++ [b], List.append_assoc _ _ _, hu, nextMhist_of_not_completes hm⟩

/-- Settles O13: the fourth clause because no marker of a border-free kind overlaps the last one detected. -/
theorem markerTestRule : Obligations.MarkerTestRule := by
  unfold Obligations.MarkerTestRule
  intro c h b
  have htest := completesMarker_iff_suffix c h b
  refine ⟨htest, fun hm => nextMhist_of_completes (htest.2 hm), fun hm => ?kept, fun hb => ?received⟩
  case kept => rw [nextMhist, if_neg (mt htest.1 hm), lastN_eq_drop_min]
  case received =>
    obtain ⟨u, v, rfl, hu, hv⟩ := historyAfter_eq c h
    rw [hv, completesMarker_iff, List.append_assoc]
    refine ⟨fun hm => hm.trans (List.suffix_append _ _), fun hm => ?_⟩
    obtain rfl | hu := hu
    · exact hm
    · have hlen := length_le_of_suffix_append hb hu hm (by simp)
      exact List.suffix_of_suffix_length_le hm (List.suffix_append _ _) hlen

end Sys2Proof.Machine
end

section
/-! PROOFS. Runs of the parser (40_rx_parser R111, R122, R124, R127, 60_exceptions R237): how a `DECODE` ends, what a
frame that arrives whole does, and bytes fed in parts. -/

namespace Sys2Proof.Machine

/-! ### One `DECODE` (R127) -/

theorem runOps_cons {i : Instr} {is : List Instr} {s t : State} (h : exec i s = .next t) :
    runOps (i :: is) s = runOps is t := by
  simp only [runOps, h]

/-- By induction on the FIFO: it is empty, its first byte gives an event, or the `DECODE` goes on without it. -/
theorem decode_responds {q : List Byte} {s : State} (h : RxInv s.cfg s.rx) (hq : s.rx.rxq = q) :
    ∃ k t, 0 < k ∧ k ≤ q.length + 1 ∧ runOps (List.replicate k .decode) s = some t
      ∧ t.rx.decoding = false ∧ t.rx.rxq = q.drop k := by
  induction q generalizing s with
  | nil => exact ⟨1, _, Nat.one_pos, Nat.le_refl _, runOps_cons (exec_decode_nil hq), rfl, hq⟩
  | cons b q ih =>
    obtain ⟨r, ev, hb, -⟩ := byteStep_inv h b
    have hnext := exec_decode_byte hq hb
    cases ev with
    | some e => exact ⟨1, _, Nat.one_pos, by simp, runOps_cons hnext, rfl, rfl⟩
    | none =>
      have hinv := byteTaken_inv h hq hb
      obtain ⟨k, t, -, hk, hrun, hd, ht⟩ := ih (s := byteTaken q r none s) hinv rfl
      exact ⟨k + 1, t, Nat.succ_pos k, Nat.succ_le_succ hk, (runOps_cons hnext).trans hrun, hd, ht⟩

/-- Settles O21: the invariant of the receive half is all it needs. -/
theorem decodeResponds : Obligations.DecodeResponds := by
  unfold Obligations.DecodeResponds
  exact fun s hinv => decode_responds hinv.rx rfl

/-! ### A frame that arrives whole (R122, R237) -/

/-- Settles O25: the instruction is the arrival of its bytes, the arrival is the parser's run over them, and that run
gives the frame's one event. -/
theorem wholeFrameGivesOneEvent : Obligations.WholeFrameGivesOneEvent := by
  unfold Obligations.WholeFrameGivesOneEvent
  intro s id p crc i hi hwf ⟨hinv, hseek, hfifo, hpipe, hsched, hborder, hknown, hfree⟩
  have hrun := runRx_frame hborder hseek hinv.rx.mhist_short hknown ((wellFormed_frame hi).1 hwf) hfree
  rw [← List.nil_append (frameBytes s.cfg id p crc), ← hfifo] at hrun
  obtain ⟨n, hn⟩ := pipeArrives_run hsched hpipe hrun
  exact ⟨exec_frame hi s, n, hn []⟩

/-! ### Bytes fed in parts (R124) -/

/-- The state when `DECODE` has taken the whole FIFO: the parser's registers are `r`, and the events `es` went out. -/
def fedAndDecoded (r : RxRegs) (es : List Event) (s : State) : State :=
  { s with
    rx := { r with rxq := [], decoding := false }
    sc := s.sc ++ es.flatMap (responseLines s.cfg)
    out := [.incomplete] }

/-- Bytes that fit are taken from a state of the invariant, as the parser's run takes them. -/
theorem feedAndDecode_inv {s : State} {bytes : List Byte} (h : RxInv s.cfg s.rx)
    (hfit : s.rx.rxq.length + bytes.length ≤ s.cfg.rxbufCap) :
    ∃ r es, runRx s.cfg (s.rx.rxq ++ bytes) s.rx = some (r, es) ∧ RxInv s.cfg r
      ∧ feedAndDecode bytes s = some (es, fedAndDecoded r es s) := by
  obtain ⟨r, es, hrun, hr⟩ := runRx_inv h (s.rx.rxq ++ bytes)
  exact ⟨r, es, hrun, hr, feedAndDecode_run hfit hrun⟩

/-- Two feeds, one after the other: the parser's run over all the bytes. -/
theorem feedAndDecode_append {s : State} {a b : List Byte} {r₁ r₂ : RxRegs} {e₁ e₂ : List Event}
    (hfit : s.rx.rxq.length + (a ++ b).length ≤ s.cfg.rxbufCap)
    (h₁ : runRx s.cfg (s.rx.rxq ++ a) s.rx = some (r₁, e₁)) (h₂ : runRx s.cfg b r₁ = some (r₂, e₂)) :
    feedAndDecode (a ++ b) s = some (e₁ ++ e₂, fedAndDecoded r₂ (e₁ ++ e₂) s) := by
  refine feedAndDecode_run hfit ?_
  rw [← List.append_assoc]
  exact runRx_append h₁ h₂

/-- Settles O29: the second feed goes on with the registers that the first has left, its empty FIFO apart, which no byte
step reads. -/
theorem feedsMaySplitAnywhere : Obligations.FeedsMaySplitAnywhere := by
  unfold Obligations.FeedsMaySplitAnywhere
  intro s a b hinv hfit
  obtain ⟨r₁, e₁, hrun₁, hr₁, hfeed₁⟩ := feedAndDecode_inv (bytes := a) hinv.rx (by omega)
  obtain ⟨r₂, e₂, hrun₂, -⟩ := runRx_inv hr₁ b
  have hfeed₂ := feedAndDecode_run (bs := b) (s := fedAndDecoded r₁ e₁ s)
    (by simp only [fedAndDecoded, List.length_nil]; omega) (runRx_with_queue [] false hrun₂)
  have hwhole := feedAndDecode_append (by simpa [Nat.add_assoc] using hfit) hrun₁ hrun₂
  refine ⟨e₁, _, e₂, _, hfeed₁, hfeed₂, hwhole.trans ?_⟩
  simp [fedAndDecoded]

end Sys2Proof.Machine
end

section
/-! PROOFS. Valid frames (40_rx_parser R125, 42_tx_encoder R181, R183, R184, R189): the sub-decoder reads what the
encoder writes, so the frame of a well-formed record is `FRAME_OK` of it, also after an error. -/

namespace Sys2Proof.Machine

/-! ### What the encoder writes, the sub-decoder reads (R150, R181, R183) -/

/-- Elements that are all plain are the words they hold. -/
theorem exists_words_of_all_one {elems : List Elem} (h : elems.all elemIsOne = true) :
    ∃ ws : List Word, elems = ws.map .one := by
  induction elems with
  | nil => exact ⟨[], rfl⟩
  | cons x elems ih =>
    rw [List.all_cons, Bool.and_eq_true] at h
    obtain ⟨ws, rfl⟩ := ih h.2
    cases x with
    | one w => exact ⟨w :: ws, rfl⟩
    | pair _ _ => exact absurd h.1 (by simp [elemIsOne])

/-- Elements none of which is plain are the pairs they hold. -/
theorem exists_pairs_of_all_pair {elems : List Elem} (h : (elems.all fun e => !elemIsOne e) = true) :
    ∃ rs : List (Word × Word), elems = rs.map fun r => .pair r.1 r.2 := by
  induction elems with
  | nil => exact ⟨[], rfl⟩
  | cons x elems ih =>
    rw [List.all_cons, Bool.and_eq_true] at h
    obtain ⟨rs, rfl⟩ := ih h.2
    cases x with
    | one _ => exact absurd h.1 (by simp [elemIsOne])
    | pair count color => exact ⟨(count, color) :: rs, rfl⟩

section
variable (id : Nat) (words : List Word)

theorem wordsAt_payloadOf (elems : List Elem) :
    wordsAt (payloadOf ⟨id, words, elems⟩) 0 words.length = words :=
  wordsAt_written [] words _

theorem wordsAt_payloadOf_ones (ws : List Word) :
    wordsAt (payloadOf ⟨id, words, ws.map .one⟩) (4 * words.length) ws.length = ws := by
  have hread := wordsAt_written (words.flatMap le32) ws []
  rw [List.append_nil, flatMap_le32_length] at hread
  simpa only [payloadOf, flatMap_one] using hread

theorem pairsAt_payloadOf (rs : List (Word × Word)) :
    pairsAt (payloadOf ⟨id, words, rs.map fun r => .pair r.1 r.2⟩) (4 * words.length) rs.length
      = rs.map fun r => .pair r.1 r.2 := by
  have hread := pairsAt_written (words.flatMap le32) rs []
  rw [List.append_nil, flatMap_le32_length] at hread
  simpa only [payloadOf, List.flatMap_map, elemBytes] using hread

theorem length_payloadOf_ones (ws : List Word) :
    (payloadOf ⟨id, words, ws.map .one⟩).length = 4 * words.length + 4 * ws.length := by
  rw [payloadOf, List.length_append, flatMap_one, flatMap_le32_length, flatMap_le32_length]

theorem length_payloadOf_pairs (rs : List (Word × Word)) :
    (payloadOf ⟨id, words, rs.map fun r => .pair r.1 r.2⟩).length = 4 * words.length + 8 * rs.length := by
  simp [payloadOf, elemBytes, List.flatMap_map, List.length_flatMap, Nat.mul_comm]

end

/-- The sub-decoder reads back what the encoder writes for a record that fits its layout, whatever the policy. -/
theorem subDecode_payloadOf (policy : TrailingPolicy) {cls : LayoutClass} {cmd : Cmd}
    (hwords : cmd.words.length = classWords cls) (helems : elemsFit cls cmd.words cmd.elems = true) :
    subDecode policy cmd.nameId cls (payloadOf cmd) = some cmd := by
  obtain ⟨id, words, elems⟩ := cmd
  simp only at hwords helems ⊢
  cases cls with
  | fixed k =>
    obtain rfl : elems = [] := by simpa [elemsFit] using helems
    have hlen : (payloadOf ⟨id, words, []⟩).length = 4 * words.length := length_payloadOf_ones id words []
    simp [subDecode, ← hwords, wordsAt_payloadOf, hlen]
  | array4 k =>
    obtain ⟨ws, rfl⟩ := exists_words_of_all_one helems
    simp [subDecode, ← hwords, wordsAt_payloadOf, length_payloadOf_ones, wordsAt_payloadOf_ones]
  | w3A8 =>
    obtain ⟨rs, rfl⟩ := exists_pairs_of_all_pair helems
    simp [subDecode, ← hwords, wordsAt_payloadOf, length_payloadOf_pairs, pairsAt_payloadOf]
  | w3P =>
    rw [elemsFit, Bool.and_eq_true, beq_iff_eq] at helems
    obtain ⟨hone, hcount⟩ := helems
    obtain ⟨ws, rfl⟩ := exists_words_of_all_one hone
    rw [List.length_map] at hcount
    simp [subDecode, ← hwords, wordsAt_payloadOf, length_payloadOf_ones, ← hcount, wordsAt_payloadOf_ones]

/-! ### An error, then a valid frame (R125) -/

theorem exists_entry_of_wellFormedCmd {c : Config} {cmd : Cmd} (h : wellFormedCmd c cmd = true) :
    ∃ e, c.nameTable[cmd.nameId]? = some e ∧ cmd.words.length = classWords e.cls
      ∧ elemsFit e.cls cmd.words cmd.elems = true := by
  rw [wellFormedCmd] at h
  split at h
  case h_1 => cases h
  case h_2 e he =>
    rw [Bool.and_eq_true, beq_iff_eq] at h
    exact ⟨e, he, h⟩

/-- What fits PBUF is below the other bounds on a length (R5). -/
theorem payload_length_bounds {c : Config} {p : List Byte} (h : p.length ≤ c.payloadRamBytes) :
    p.length ≤ c.lenCap ∧ p.length < 2 ^ 32 := by
  obtain ⟨-, -, hram, hcap, -⟩ := c.legal_iff.1 c.isLegal
  omega

/-- The frame of a well-formed record that fits PBUF is `FRAME_OK` of that record (R184, R237). -/
theorem frameVerdict_of_wellFormedCmd {c : Config} {cmd : Cmd} (h : wellFormedCmd c cmd = true)
    (hfits : (payloadOf cmd).length ≤ c.payloadRamBytes) :
    frameVerdict c cmd.nameId (payloadOf cmd) (crc32 (payloadOf cmd)) = .frameOk cmd := by
  obtain ⟨e, he, hwords, helems⟩ := exists_entry_of_wellFormedCmd h
  obtain ⟨hcap, -⟩ := payload_length_bounds hfits
  rw [frameVerdict, if_neg (Nat.not_lt.2 hcap), if_neg (Nat.not_lt.2 hfits), if_neg (not_not.2 rfl)]
  simp only [he, subDecode_payloadOf c.trailingPolicy hwords helems]

/-- The frame of such a record, from `SEEK_MARKER`: `FRAME_OK` is its one event (R189). -/
theorem runRx_encodeCmd {c : Config} {cmd : Cmd} {r : RxRegs} (hb : borderFree c.marker = true)
    (hinv : RxInv c r) (hseek : r.phase = .seekMarker) (hwf : wellFormedCmd c cmd = true)
    (hfits : (payloadOf cmd).length ≤ c.payloadRamBytes)
    (hfree : markerFree c ((encodeCmd c cmd).drop c.marker.length)) :
    runRx c (encodeCmd c cmd) r
      = some (frameRx c cmd.nameId (payloadOf cmd) (crc32 (payloadOf cmd)) (.frameOk cmd) r, [.frameOk cmd]) := by
  have hrun := runRx_frame hb hseek hinv.mhist_short (nameId_lt_of_wellFormedCmd hwf)
    (payload_length_bounds hfits).2 hfree
  rwa [frameVerdict_of_wellFormedCmd hwf hfits] at hrun

/-- Settles O32: the error's bytes leave registers of the invariant that hunt for a marker, and the frame's run starts
there. -/
theorem errorThenValidFrame : Obligations.ErrorThenValidFrame := by
  unfold Obligations.ErrorThenValidFrame
  intro s m cmd c e hinv _ hfifo hborder herr hseek hwf hfits hfree hlen
  have hroom : s.rx.rxq.length + (c ++ encodeCmd s.cfg cmd).length ≤ s.cfg.rxbufCap := by
    rwa [hfifo, List.length_nil, Nat.zero_add]
  obtain ⟨r, es, hrun, hr, hfeed⟩ := feedAndDecode_inv (bytes := c) hinv.rx
    (by rw [List.length_append] at hroom; omega)
  cases herr.symm.trans hfeed
  exact ⟨_, feedAndDecode_append hroom hrun (runRx_encodeCmd hborder hr hseek hwf hfits hfree)⟩

end Sys2Proof.Machine
end

section
/-! PROOFS. Payload layouts (30_encoding R90, 41_payload_layouts R150 to R166, 42_tx_encoder R181, R183): what the
sub-decoder makes of each layout class, that it and the payload encoder undo each other, and the 16 layouts. -/

namespace Sys2Proof.Machine

/-! ### Each layout class (R90, R150) -/

section
variable (policy : TrailingPolicy) (id : Nat) (p : List Byte)

theorem subDecode_fixed (k : Nat) :
    subDecode policy id (.fixed k) p =
      if p.length < 4 * k ∨ (p.length ≠ 4 * k ∧ policy = .reject) then none
      else some ⟨id, wordsAt p 0 k, []⟩ := by
  rw [ite_or]
  by_cases hshort : p.length < 4 * k
  · simp [subDecode, classWords, hshort]
  · have hrest : p.length - 4 * k ≠ 0 ↔ p.length ≠ 4 * k := by omega
    simp only [subDecode, classWords, hrest]

theorem subDecode_array4 (k : Nat) :
    subDecode policy id (.array4 k) p =
      if p.length < 4 * k ∨ ((p.length - 4 * k) % 4 ≠ 0 ∧ policy = .reject) then none
      else some ⟨id, wordsAt p 0 k, (wordsAt p (4 * k) ((p.length - 4 * k) / 4)).map .one⟩ := by
  rw [ite_or]
  rfl

theorem subDecode_w3A8 :
    subDecode policy id .w3A8 p =
      if p.length < 12 ∨ ((p.length - 12) % 8 ≠ 0 ∧ policy = .reject) then none
      else some ⟨id, wordsAt p 0 3, pairsAt p 12 ((p.length - 12) / 8)⟩ := by
  rw [ite_or]
  rfl

theorem wordsAt_three : wordsAt p 0 3 = [u32le p 0, u32le p 4, u32le p 8] := rfl

/-- The number of elements that the first two words of a `W3P` payload ask for (R90): it is not reduced mod `2^32`. -/
def productAt (p : List Byte) : Nat := (u32le p 0).toNat * (u32le p 4).toNat

theorem productCount_wordsAt : productCount (wordsAt p 0 3) = productAt p := rfl

theorem subDecode_w3P :
    subDecode policy id .w3P p =
      if p.length < 12 ∨ p.length - 12 < 4 * productAt p ∨ (p.length - 12 ≠ 4 * productAt p ∧ policy = .reject)
      then none else some ⟨id, wordsAt p 0 3, (wordsAt p 12 (productAt p)).map .one⟩ := by
  rw [ite_or, ite_or]
  rfl

end

/-- Settles O7: the equation of each class, its fields and elements written out one by one. -/
theorem subDecodeRule : Obligations.SubDecodeRule := by
  unfold Obligations.SubDecodeRule
  intro policy id p
  refine ⟨fun k => ?fixed, fun k => ?array4, ?w3A8, ?w3P⟩
  case fixed => simp only [subDecode_fixed, wordsAt, Nat.zero_add]
  case array4 => simp only [subDecode_array4, wordsAt, Nat.zero_add, List.map_map, Function.comp_def]
  case w3A8 => simp only [subDecode_w3A8, wordsAt_three, pairsAt, Nat.reduceAdd]
  case w3P =>
    rw [subDecode_w3P, wordsAt_three]
    simp only [wordsAt, List.map_map, Function.comp_def, productAt]

/-! ### Under `reject` the sub-decoder and the payload encoder undo each other (R181, R183) -/

theorem all_elemIsOne_ones (ws : List Word) : (ws.map Elem.one).all elemIsOne = true := by
  simp [elemIsOne]

theorem all_not_elemIsOne_pairs (rs : List (Word × Word)) :
    ((rs.map fun r => Elem.pair r.1 r.2).all fun e => !elemIsOne e) = true := by
  simp [elemIsOne]

theorem all_not_elemIsOne_pairsAt (p : List Byte) (off n : Nat) :
    ((pairsAt p off n).all fun e => !elemIsOne e) = true := by
  simp [pairsAt, elemIsOne]

theorem elemsFit_w3P {words ws : List Word} (h : ws.length = productCount words) :
    elemsFit .w3P words (ws.map .one) = true := by
  rw [elemsFit, all_elemIsOne_ones, List.length_map, h, Bool.true_and, beq_self_eq_true]

/-- Fields and plain elements that are read from a whole payload have its bytes. -/
theorem payloadOf_wordsAt_ones (id : Nat) {p : List Byte} {k n : Nat} (h : p.length = 4 * k + 4 * n) :
    payloadOf ⟨id, wordsAt p 0 k, (wordsAt p (4 * k) n).map .one⟩ = p := by
  rw [payloadOf, flatMap_one, flatMap_wordsAt (by omega), flatMap_wordsAt (by omega), List.drop_zero,
    ← List.take_add, List.take_of_length_le (Nat.le_of_eq h)]

/-- Fields and pairs that are read from a whole payload have its bytes. -/
theorem payloadOf_wordsAt_pairsAt (id : Nat) {p : List Byte} {k n : Nat} (h : p.length = 4 * k + 8 * n) :
    payloadOf ⟨id, wordsAt p 0 k, pairsAt p (4 * k) n⟩ = p := by
  rw [payloadOf, flatMap_pairsAt (by omega), flatMap_wordsAt (by omega), List.drop_zero,
    ← List.take_add, List.take_of_length_le (Nat.le_of_eq h)]

/-- What `reject` lets pass fits the layout and has the whole payload in it, class by class. -/
theorem fits_of_subDecode_reject {id : Nat} {cls : LayoutClass} {p : List Byte} {cmd : Cmd}
    (h : subDecode .reject id cls p = some cmd) :
    cmd.nameId = id ∧ cmd.words.length = classWords cls ∧ elemsFit cls cmd.words cmd.elems = true
      ∧ payloadOf cmd = p := by
  cases cls
  all_goals
    simp only [subDecode_fixed, subDecode_array4, subDecode_w3A8, subDecode_w3P, Option.ite_none_left_eq_some,
      Option.some.injEq, and_true] at h
    obtain ⟨hlen, rfl⟩ := h
    refine ⟨rfl, wordsAt_length .., ?_⟩
  case fixed => exact ⟨rfl, payloadOf_wordsAt_ones id (n := 0) (by omega)⟩
  case array4 => exact ⟨all_elemIsOne_ones _, payloadOf_wordsAt_ones id (by omega)⟩
  case w3A8 => exact ⟨all_not_elemIsOne_pairsAt .., payloadOf_wordsAt_pairsAt id (k := 3) (by omega)⟩
  case w3P => exact ⟨elemsFit_w3P (wordsAt_length ..), payloadOf_wordsAt_ones id (k := 3) (by omega)⟩

theorem wellFormedCmd_iff {c : Config} {cmd : Cmd} {e : NameEntry} (he : c.nameTable[cmd.nameId]? = some e) :
    wellFormedCmd c cmd = true
      ↔ cmd.words.length = classWords e.cls ∧ elemsFit e.cls cmd.words cmd.elems = true := by
  simp only [wellFormedCmd, he, Bool.and_eq_true, beq_iff_eq]

/-- Settles O8: what `reject` lets pass fits the layout, and what fits the layout reads back, whatever the policy. -/
theorem subDecodeInvertsPayload : Obligations.SubDecodeInvertsPayload := by
  unfold Obligations.SubDecodeInvertsPayload
  intro c id e p cmd he
  have hback : ∀ policy, wellFormedCmd c cmd = true → cmd.nameId = id →
      subDecode policy id e.cls (payloadOf cmd) = some cmd := by
    rintro policy hwf rfl
    obtain ⟨hwords, helems⟩ := (wellFormedCmd_iff he).1 hwf
    exact subDecode_payloadOf policy hwords helems
  refine ⟨⟨fun h => ?_, ?_⟩, hback .ignore⟩
  · obtain ⟨rfl, hwords, helems, hp⟩ := fits_of_subDecode_reject h
    exact ⟨(wellFormedCmd_iff he).2 ⟨hwords, helems⟩, rfl, hp⟩
  · rintro ⟨hwf, hid, rfl⟩
    exact hback .reject hwf hid

/-! ### The layouts of the 16 variants (R151 to R166) -/

theorem payloadOf_fields (id : Nat) (words : List Word) : payloadOf ⟨id, words, []⟩ = words.flatMap le32 :=
  List.append_nil _

theorem payloadOf_ones (id : Nat) (words ws : List Word) :
    payloadOf ⟨id, words, ws.map .one⟩ = words.flatMap le32 ++ ws.flatMap le32 := by
  rw [payloadOf, flatMap_one]

theorem payloadOf_pairs (id : Nat) (words : List Word) (rs : List (Word × Word)) :
    payloadOf ⟨id, words, rs.map fun r => .pair r.1 r.2⟩
      = words.flatMap le32 ++ rs.flatMap fun r => le32 r.1 ++ le32 r.2 := by
  simp only [payloadOf, List.flatMap_map, elemBytes]

/-- What a layout says of a record and its bytes: they are its payload, and read back as the record. -/
theorem subDecode_of_payloadOf_eq (policy : TrailingPolicy) {cls : LayoutClass} {cmd : Cmd} {bytes : List Byte}
    (hbytes : payloadOf cmd = bytes) (hwords : cmd.words.length = classWords cls)
    (helems : elemsFit cls cmd.words cmd.elems = true) :
    subDecode policy cmd.nameId cls bytes = some cmd :=
  hbytes ▸ subDecode_payloadOf policy hwords helems

theorem ite_none_some_eq_none_iff {α : Type} {P : Prop} [Decidable P] {a : α} :
    (if P then none else some a) = none ↔ P := by
  simp

section
variable (policy : TrailingPolicy) (id : Nat) (words colors : List Word) (runs : List (Word × Word))
  {bytes : List Byte} (p : List Byte)

theorem layout_fixed (hbytes : words.flatMap le32 = bytes) :
    payloadOf ⟨id, words, []⟩ = bytes
    ∧ subDecode policy id (.fixed words.length) bytes = some ⟨id, words, []⟩
    ∧ (subDecode policy id (.fixed words.length) p = none
      ↔ p.length < 4 * words.length ∨ (p.length ≠ 4 * words.length ∧ policy = .reject)) := by
  have hpay := (payloadOf_fields id words).trans hbytes
  refine ⟨hpay, subDecode_of_payloadOf_eq policy hpay rfl rfl, ?_⟩
  rw [subDecode_fixed, ite_none_some_eq_none_iff]

theorem layout_array4 (hbytes : words.flatMap le32 ++ colors.flatMap le32 = bytes) :
    payloadOf ⟨id, words, colors.map .one⟩ = bytes
    ∧ subDecode policy id (.array4 words.length) bytes = some ⟨id, words, colors.map .one⟩
    ∧ (subDecode policy id (.array4 words.length) p = none
      ↔ p.length < 4 * words.length ∨ ((p.length - 4 * words.length) % 4 ≠ 0 ∧ policy = .reject)) := by
  have hpay := (payloadOf_ones id words colors).trans hbytes
  refine ⟨hpay, subDecode_of_payloadOf_eq policy hpay rfl (all_elemIsOne_ones colors), ?_⟩
  rw [subDecode_array4, ite_none_some_eq_none_iff]

theorem layout_w3A8 (hwords : words.length = 3)
    (hbytes : (words.flatMap le32 ++ runs.flatMap fun r => le32 r.1 ++ le32 r.2) = bytes) :
    payloadOf ⟨id, words, runs.map fun r => .pair r.1 r.2⟩ = bytes
    ∧ subDecode policy id .w3A8 bytes = some ⟨id, words, runs.map fun r => .pair r.1 r.2⟩
    ∧ (subDecode policy id .w3A8 p = none
      ↔ p.length < 12 ∨ ((p.length - 12) % 8 ≠ 0 ∧ policy = .reject)) := by
  have hpay := (payloadOf_pairs id words runs).trans hbytes
  refine ⟨hpay, subDecode_of_payloadOf_eq policy hpay hwords (all_not_elemIsOne_pairs runs), ?_⟩
  rw [subDecode_w3A8, ite_none_some_eq_none_iff]

theorem layout_w3P (hwords : words.length = 3) (hbytes : words.flatMap le32 ++ colors.flatMap le32 = bytes) :
    payloadOf ⟨id, words, colors.map .one⟩ = bytes
    ∧ (colors.length = productCount words →
      subDecode policy id .w3P bytes = some ⟨id, words, colors.map .one⟩)
    ∧ (subDecode policy id .w3P p = none
      ↔ p.length < 12 ∨ p.length - 12 < 4 * productAt p
        ∨ (p.length - 12 ≠ 4 * productAt p ∧ policy = .reject)) := by
  have hpay := (payloadOf_ones id words colors).trans hbytes
  refine ⟨hpay, fun hcount => ?_, ?_⟩
  · exact subDecode_of_payloadOf_eq policy hpay hwords (elemsFit_w3P hcount)
  · rw [subDecode_w3P, ite_none_some_eq_none_iff]

/-- A layout without fields: every byte is one too many. -/
theorem subDecode_fixed_zero_eq_none_iff :
    subDecode policy id (.fixed 0) p = none ↔ p ≠ [] ∧ policy = .reject := by
  rw [subDecode_fixed, ite_none_some_eq_none_iff]
  simp

end

/-- Settles O9: each is the layout of its fields in order. -/
theorem fixedLayouts : Obligations.FixedLayouts := by
  unfold Obligations.FixedLayouts
  intro policy w x y z p
  refine ⟨?breathe, ?rainbow, ?fire, ?twinkle, ?neuralDrop, ?waterDrop, ?startRain, ?empty⟩
  case breathe => exact layout_fixed policy 1 [w, x, y] p (by simp)
  case rainbow => exact layout_fixed policy 5 [w, x] p (by simp)
  case fire => exact layout_fixed policy 6 [w, x, y] p (by simp)
  case twinkle => exact layout_fixed policy 7 [w, x, y, z] p (by simp)
  case neuralDrop => exact layout_fixed policy 8 [w] p (by simp)
  case waterDrop => exact layout_fixed policy 9 [w, x, y] p (by simp)
  case startRain => exact layout_fixed policy 10 [w, x] p (by simp)
  case empty =>
    obtain ⟨hstop, hstopBack, -⟩ := layout_fixed policy 11 [] p rfl
    obtain ⟨hstatus, hstatusBack, -⟩ := layout_fixed policy 12 [] p rfl
    obtain ⟨hspeed, hspeedBack, -⟩ := layout_fixed policy 15 [] p rfl
    exact ⟨hstop, hstatus, hspeed, hstopBack, hstatusBack, hspeedBack,
      fun id _ => subDecode_fixed_zero_eq_none_iff policy id p⟩

/-- Settles O10: each is the layout of its fields in order, and of its elements behind them. -/
theorem variableLayouts : Obligations.VariableLayouts := by
  unfold Obligations.VariableLayouts
  intro policy w x y colors runs p
  refine ⟨?setColor, ?gradient, ?movingGradient, ?crossFade, ?encodedBuffer, ?fullBuffer⟩
  case setColor => exact layout_array4 policy 0 [w, x] colors p (by simp)
  case gradient => exact layout_array4 policy 2 [w, x, y] colors p (by simp)
  case movingGradient => exact layout_array4 policy 3 [w, x, y] colors p (by simp)
  case crossFade => exact layout_array4 policy 4 [w] colors p (by simp)
  case encodedBuffer => exact layout_w3A8 policy 13 [w, x, y] runs p rfl (by simp)
  case fullBuffer => exact layout_w3P policy 14 [w, x, y] colors p rfl (by simp)

end Sys2Proof.Machine
end

section
/-! PROOFS. Valid frames of the 16 commands (30_encoding R88, 40_rx_parser R121, 41_payload_layouts R151 to R166): each
is `FRAME_OK` of its record. -/

namespace Sys2Proof.Machine

/-! ### The layout class of each variant (R88; log 19) -/

/-- A variant with an entry in the name table has the layout class that R88 gives it. -/
theorem cls_of_standardTable {c : Config} {id : Nat} {cls : LayoutClass}
    (hid : id < c.nameTable.length) (hcls : (standardTable[id]?).map (·.cls) = some cls) :
    (c.nameTable[id]).cls = cls := by
  obtain ⟨-, -, -, -, -, -, -, -, -, -, -, -, -, -, htable⟩ := c.legal_iff.1 c.isLegal
  have hrow : id < 16 := by
    obtain ⟨_, he, -⟩ := Option.map_eq_some_iff.1 hcls
    exact (List.getElem?_eq_some_iff.1 he).1
  have hat := congrArg (·[id]?) htable
  simpa [List.getElem?_take_of_lt, hrow, hid, hcls] using hat

/-! ### A valid frame of a record that fits its layout (R121, R181) -/

/-- The frame of a record that fits the layout R88 gives its variant arrives whole, and its verdict is `FRAME_OK`. -/
theorem decodesTo_of_fits {s : State} {cmd : Cmd} {p : List Byte} {cls : LayoutClass} {i : Instr}
    (hp : payloadOf cmd = p) (hi : frameInstr cmd.nameId p (crc32 p) = some i)
    (hcls : (standardTable[cmd.nameId]?).map (·.cls) = some cls) (hwords : cmd.words.length = classWords cls)
    (helems : elemsFit cls cmd.words cmd.elems = true) (ha : FrameArrives s cmd.nameId p (crc32 p))
    (hfits : p.length ≤ s.cfg.payloadRamBytes) :
    DecodesTo i cmd.nameId p (crc32 p) cmd s := by
  subst hp
  have he := List.getElem?_eq_getElem ha.known
  have hwf : wellFormedCmd s.cfg cmd = true := by
    rw [wellFormedCmd_iff he, cls_of_standardTable ha.known hcls]
    exact ⟨hwords, helems⟩
  have hlen := (wellFormed_frame hi).2 (payload_length_bounds hfits).2
  have hone := wholeFrameGivesOneEvent s cmd.nameId _ _ i hi hlen ha
  rwa [frameVerdict_of_wellFormedCmd hwf hfits] at hone

section
variable {s : State} {id : Nat} {words : List Word} {p : List Byte} {i : Instr}

theorem decodesTo_fixed (hi : frameInstr id p (crc32 p) = some i)
    (hcls : (standardTable[id]?).map (·.cls) = some (.fixed words.length))
    (hp : p = words.flatMap le32) (ha : FrameArrives s id p (crc32 p))
    (hfits : 4 * words.length ≤ s.cfg.payloadRamBytes) :
    DecodesTo i id p (crc32 p) ⟨id, words, []⟩ s :=
  decodesTo_of_fits (cmd := ⟨id, words, []⟩) ((payloadOf_fields id words).trans hp.symm) hi hcls rfl rfl ha
    (by rwa [hp, flatMap_le32_length])

/-- A command without fields: the checksum of no bytes is 0 (R66). -/
theorem decodesTo_empty (hi : frameInstr id [] 0#32 = some i)
    (hcls : (standardTable[id]?).map (·.cls) = some (.fixed 0)) (ha : FrameArrives s id [] 0#32) :
    DecodesTo i id [] 0#32 ⟨id, [], []⟩ s := by
  have hcrc : crc32 [] = 0#32 := by decide
  rw [← hcrc] at hi ha ⊢
  exact decodesTo_fixed hi hcls rfl ha (Nat.zero_le _)

theorem decodesTo_array4 {colors : List Word} (hi : frameInstr id p (crc32 p) = some i)
    (hcls : (standardTable[id]?).map (·.cls) = some (.array4 words.length))
    (hp : p = words.flatMap le32 ++ colors.flatMap le32) (ha : FrameArrives s id p (crc32 p))
    (hfits : p.length ≤ s.cfg.payloadRamBytes) :
    DecodesTo i id p (crc32 p) ⟨id, words, colors.map .one⟩ s :=
  decodesTo_of_fits (cmd := ⟨id, words, colors.map .one⟩) ((payloadOf_ones id words colors).trans hp.symm) hi hcls
    rfl (all_elemIsOne_ones colors) ha hfits

end

/-- Settles O26: each is the frame of its fields in order. -/
theorem fixedCommandsDecode : Obligations.FixedCommandsDecode := by
  unfold Obligations.FixedCommandsDecode
  intro s w x y z
  refine ⟨fun p hp => ?breathe, fun p hp => ?rainbow, fun p hp => ?fire, fun p hp => ?twinkle,
    fun p hp => ?neuralDrop, fun p hp => ?waterDrop, fun p hp => ?startRain, ?stopRain, ?status, ?speedTest⟩
  case breathe => exact decodesTo_fixed (words := [w, x, y]) rfl rfl (by simpa using hp)
  case rainbow => exact decodesTo_fixed (words := [w, x]) rfl rfl (by simpa using hp)
  case fire => exact decodesTo_fixed (words := [w, x, y]) rfl rfl (by simpa using hp)
  case twinkle => exact decodesTo_fixed (words := [w, x, y, z]) rfl rfl (by simpa using hp)
  case neuralDrop => exact decodesTo_fixed (words := [w]) rfl rfl (by simpa using hp)
  case waterDrop => exact decodesTo_fixed (words := [w, x, y]) rfl rfl (by simpa using hp)
  case startRain => exact decodesTo_fixed (words := [w, x]) rfl rfl (by simpa using hp)
  case stopRain => exact decodesTo_empty rfl rfl
  case status => exact decodesTo_empty rfl rfl
  case speedTest => exact decodesTo_empty rfl rfl

/-- Settles O27: each is the frame of its fields in order, and of its elements behind them. -/
theorem variableCommandsDecode : Obligations.VariableCommandsDecode := by
  unfold Obligations.VariableCommandsDecode
  intro s w x y colors runs
  refine ⟨fun p hp => ?setColor, fun p hp => ?gradient, fun p hp => ?movingGradient, fun p hp => ?crossFade,
    fun p hp => ?encodedBuffer, fun p hp hcount => ?fullBuffer⟩
  case setColor => exact decodesTo_array4 (words := [w, x]) rfl rfl (by simpa using hp)
  case gradient => exact decodesTo_array4 (words := [w, x, y]) rfl rfl (by simpa using hp)
  case movingGradient => exact decodesTo_array4 (words := [w, x, y]) rfl rfl (by simpa using hp)
  case crossFade => exact decodesTo_array4 (words := [w]) rfl rfl (by simpa using hp)
  case encodedBuffer =>
    have hpay : payloadOf (cmdEncodedBuffer w x y runs) = p := by
      simpa [hp, cmdEncodedBuffer] using payloadOf_pairs 13 [w, x, y] runs
    exact decodesTo_of_fits hpay rfl rfl rfl (all_not_elemIsOne_pairs runs)
  case fullBuffer =>
    have hpay : payloadOf (cmdFullBuffer w x y colors) = p := by
      simpa [hp, cmdFullBuffer] using payloadOf_ones 14 [w, x, y] colors
    exact decodesTo_of_fits hpay rfl rfl rfl (elemsFit_w3P hcount)

end Sys2Proof.Machine
end

section
/-! PROOFS. The send half's port operations, case by case (42_tx_encoder R182, R183, R185, R186, 43_ack_handshake
R201, R206, R207; logs 7 to 10), and runs of `WRITE_STEP`. -/

namespace Sys2Proof.Machine

/-! ### Operations that are not enabled, and answers that are no draw (logs 7, 10) -/

theorem exec_writeStep_disabled {s : State} (h : s.tx.txState ≠ .writing) (n : Nat) :
    exec (.writeStep n) s = .next { s with out := [.disabled] } := by
  simp only [exec, execWriteStep, if_pos h]
  rfl

theorem exec_poll_disabled {s : State} (h : s.tx.txState ≠ .waiting) (ans : Option Line) :
    exec (.poll ans) s = .next { s with out := [.disabled] } := by
  simp only [exec, execPoll, if_pos h]
  rfl

theorem exec_poll_notHead {s : State} {l h : Line} {rest : List Line} (hw : s.tx.txState = .waiting)
    (hsc : s.sc = h :: rest) (hne : l ≠ h) : exec (.poll (some l)) s = .refused .pollAnswerNotHead := by
  simp only [exec, execPoll, if_neg (not_not.2 hw), hsc, if_neg hne.symm]

/-- Settles O40: the three cases, each an equation of its operation. -/
theorem disabledOperations : Obligations.DisabledOperations := by
  unfold Obligations.DisabledOperations
  exact fun s => ⟨fun n h => exec_writeStep_disabled h n, fun ans h => exec_poll_disabled h ans,
    fun _ _ _ hw hsc hne => exec_poll_notHead hw hsc hne⟩

/-! ### `SEND` (R182, R183, R185, R207) -/

theorem exec_send_held {s : State} (h : s.tx.txState ≠ .idle) (cmd : Cmd) :
    exec (.send cmd) s = .next { s with held := s.held ++ [cmd], out := [.notAccepted] } := by
  have hbusy : (!s.txReady) = true := by simpa [← Bool.not_eq_true] using h
  simp only [exec, execSend, if_pos hbusy]
  rfl

section
variable {s : State} {cmd : Cmd} (hidle : s.tx.txState = .idle)
include hidle

/-- An idle sender passes the first test of `SEND`. -/
theorem not_busy_of_idle : ¬ (!s.txReady) = true := by simpa using hidle

theorem exec_send_malformed (hwf : wellFormedCmd s.cfg cmd = false) :
    exec (.send cmd) s = .next { s with
      tx := { s.tx with lastOutcome := .encMalformed }, out := [.outcome .encMalformed] } := by
  simp only [exec, execSend, if_neg (not_busy_of_idle hidle), hwf, Bool.not_false, if_true]
  rfl

theorem exec_send_oversize (hwf : wellFormedCmd s.cfg cmd = true) (hlong : (payloadOf cmd).length > s.cfg.lenCap) :
    exec (.send cmd) s = .next { s with
      tx := { s.tx with lastOutcome := .encOversize }, out := [.outcome .encOversize] } := by
  simp only [exec, execSend, if_neg (not_busy_of_idle hidle), hwf, Bool.not_true, Bool.false_eq_true, if_false,
    if_pos hlong]
  rfl

/-- An accepted `SEND`: the frame of the record stands in TXBUF, and its write begins. -/
theorem exec_send_accepted (hmem : memWf s.tx.txbuf = true) (hwf : wellFormedCmd s.cfg cmd = true)
    (hcap : (payloadOf cmd).length ≤ s.cfg.lenCap) :
    exec (.send cmd) s = .next { s with
      tx := { s.tx with
        txbuf := memWriteN s.tx.txbuf 0 (encodeCmd s.cfg cmd), txLen := (encodeCmd s.cfg cmd).length
        txPos := 0, polls := 0, txState := .writing, wdArmed := true
        wdElapsed := if s.tx.wdArmed then s.tx.wdElapsed else 0 }
      out := [.accepted] } := by
  simp only [exec, execSend, if_neg (not_busy_of_idle hidle), hwf, Bool.not_true, Bool.false_eq_true, if_false,
    if_neg (Nat.not_lt.2 hcap), assemble_eq hmem (nameId_lt_of_wellFormedCmd hwf) hcap]
  rfl

end

/-- Settles O33, by whether the sender is idle, and then by what the encoder makes of the record. -/
theorem sendRule : Obligations.SendRule := by
  unfold Obligations.SendRule
  intro s cmd hinv
  refine ⟨fun hidle hwf hcap => ?accepted, exec_send_malformed, exec_send_oversize, fun h => exec_send_held h cmd⟩
  case accepted =>
    rw [exec_send_accepted hidle hinv.tx.txbuf_wf hwf hcap]
    simp only [encodeCmd, frameBytes_length]

/-! ### `WRITE_STEP` (R186) -/

/-- What a `WRITE_STEP` offers the Sink: the unwritten rest of the frame. -/
def TxRegs.rest (t : TxRegs) : List Byte := memReadN .txbuf t.epoch t.txbuf t.txPos (t.txLen - t.txPos)

section
variable {s : State} (hinv : TxInv s.cfg s.tx) (hs : s.tx.txState = .writing)
include hinv hs

/-- The rest of the frame is inside TXBUF, so it is offered; what the Sink answers decides. -/
theorem exec_writeStep_writing (n : Nat) :
    exec (.writeStep n) s =
      if n > s.tx.txLen - s.tx.txPos then .refused (.sinkOverrun (s.tx.txLen - s.tx.txPos) n)
      else if s.tx.txPos + n = s.tx.txLen then .next { s with
        tx := { s.tx with txPos := s.tx.txPos + n, txState := .waiting, polls := 0 }
        out := [.sinkWrite s.tx.rest n] }
      else .next { s with tx := { s.tx with txPos := s.tx.txPos + n }, out := [.sinkWrite s.tx.rest n] } := by
  have hin : s.tx.txPos + (s.tx.txLen - s.tx.txPos) ≤ spaceSize s.cfg .txbuf := by
    rw [Nat.add_sub_cancel' hinv.txPos_le]
    exact hinv.txLen_le
  simp only [exec, execWriteStep, if_neg (not_not.2 hs), bufRead, if_pos hin, memReadN_length]
  rfl

theorem exec_writeStep_overrun {n : Nat} (hn : n > s.tx.txLen - s.tx.txPos) :
    exec (.writeStep n) s = .refused (.sinkOverrun (s.tx.txLen - s.tx.txPos) n) := by
  rw [exec_writeStep_writing hinv hs, if_pos hn]

theorem exec_writeStep_part {n : Nat} (hn : n < s.tx.txLen - s.tx.txPos) :
    exec (.writeStep n) s = .next { s with
      tx := { s.tx with txPos := s.tx.txPos + n }, out := [.sinkWrite s.tx.rest n] } := by
  rw [exec_writeStep_writing hinv hs, if_neg (by omega), if_neg (by omega)]

theorem exec_writeStep_last {n : Nat} (hn : n = s.tx.txLen - s.tx.txPos) :
    exec (.writeStep n) s = .next { s with
      tx := { s.tx with txPos := s.tx.txLen, txState := .waiting, polls := 0 }, out := [.sinkWrite s.tx.rest n] } := by
  have hend : s.tx.txPos + n = s.tx.txLen := by rw [hn, Nat.add_sub_cancel' hinv.txPos_le]
  rw [exec_writeStep_writing hinv hs, if_neg (by omega), if_pos hend, hend]

end

/-- Settles O34, by how the Sink's answer compares with what it was offered. -/
theorem writeStepRule : Obligations.WriteStepRule := by
  unfold Obligations.WriteStepRule
  exact fun s n hinv hs => ⟨exec_writeStep_part hinv.tx hs, exec_writeStep_last hinv.tx hs,
    exec_writeStep_overrun hinv.tx hs⟩

/-! ### Runs of `WRITE_STEP` (R186, R206) -/

/-- The bytes the Sink took in a step. -/
def sinkTook (out : List PortOut) : List Byte :=
  (out.filterMap fun o => match o with | .sinkWrite offered k => some (offered.take k) | _ => none).flatten

theorem runWrites_cons {n : Nat} {ns : List Nat} {s t : State} (h : exec (.writeStep n) s = .next t)
    (taken : List Byte) : runWrites (n :: ns) s taken = runWrites ns t (taken ++ sinkTook t.out) := by
  rw [runWrites, h]
  rfl

theorem memReadN_add (sp : Space) (ep : Nat) (m : Memory) (i a b : Nat) :
    memReadN sp ep m i (a + b) = memReadN sp ep m i a ++ memReadN sp ep m (i + a) b := by
  simp [memReadN, List.range_add, Nat.add_assoc]

theorem TxRegs.take_rest {t : TxRegs} {n : Nat} (h : n ≤ t.txLen - t.txPos) :
    t.rest.take n = memReadN .txbuf t.epoch t.txbuf t.txPos n := by
  rw [TxRegs.rest, ← Nat.add_sub_cancel' h, memReadN_add, List.take_left' (memReadN_length ..)]

/-- What writes that took `k` bytes change, from `s` to `t`: the position. -/
structure Wrote (k : Nat) (s t : State) : Prop where
  cfg : t.cfg = s.cfg
  rx : t.rx = s.rx
  sc : t.sc = s.sc
  txbuf : t.tx.txbuf = s.tx.txbuf
  epoch : t.tx.epoch = s.tx.epoch
  txLen : t.tx.txLen = s.tx.txLen
  txPos : t.tx.txPos = s.tx.txPos + k

theorem Wrote.refl (s : State) : Wrote 0 s s := ⟨rfl, rfl, rfl, rfl, rfl, rfl, rfl⟩

theorem Wrote.trans {a b : Nat} {s t u : State} (h : Wrote a s t) (h' : Wrote b t u) : Wrote (a + b) s u where
  cfg := h'.cfg.trans h.cfg
  rx := h'.rx.trans h.rx
  sc := h'.sc.trans h.sc
  txbuf := h'.txbuf.trans h.txbuf
  epoch := h'.epoch.trans h.epoch
  txLen := h'.txLen.trans h.txLen
  txPos := by rw [h'.txPos, h.txPos, Nat.add_assoc]

/-- A frame is under way: it is being written, or out and waited on. -/
def State.UnderWay (s : State) : Prop := s.tx.txState = .writing ∨ s.tx.txState = .waiting

/-- While a frame is under way, the wait has begun exactly if the whole frame is out. -/
theorem State.UnderWay.waiting_iff {s : State} (h : s.UnderWay) (hinv : TxInv s.cfg s.tx) :
    s.tx.txState = .waiting ↔ s.tx.txPos = s.tx.txLen := by
  rcases h with hs | hs
  · have hopen := hinv.writing_open hs
    simp only [hs, reduceCtorEq, false_iff]
    omega
  · simp only [hs, (hinv.waiting_open hs).1]

/-- One `WRITE_STEP` that takes no more than the rest of the frame, 0 bytes once it is out. -/
theorem exec_writeStep_wrote {s : State} {n : Nat} (hinv : TxInv s.cfg s.tx) (hs : s.UnderWay)
    (hn : n ≤ s.tx.txLen - s.tx.txPos) :
    ∃ t, exec (.writeStep n) s = .next t ∧ Wrote n s t ∧ t.UnderWay
      ∧ sinkTook t.out = memReadN .txbuf s.tx.epoch s.tx.txbuf s.tx.txPos n := by
  have htook : sinkTook [.sinkWrite s.tx.rest n] = memReadN .txbuf s.tx.epoch s.tx.txbuf s.tx.txPos n := by
    simp [sinkTook, TxRegs.take_rest hn]
  rcases hs with hs | hs
  · rcases hn.lt_or_eq with hpart | hlast
    · exact ⟨_, exec_writeStep_part hinv hs hpart, ⟨rfl, rfl, rfl, rfl, rfl, rfl, rfl⟩, .inl hs, htook⟩
    · have hend : s.tx.txLen = s.tx.txPos + n := by rw [hlast, Nat.add_sub_cancel' hinv.txPos_le]
      exact ⟨_, exec_writeStep_last hinv hs hlast, ⟨rfl, rfl, rfl, rfl, rfl, rfl, hend⟩, .inr rfl, htook⟩
  · obtain rfl : n = 0 := by
      have hout := (hinv.waiting_open hs).1
      omega
    exact ⟨_, exec_writeStep_disabled (by simp [hs]) 0, ⟨rfl, rfl, rfl, rfl, rfl, rfl, rfl⟩, .inr hs, rfl⟩

/-- By induction on the Sink's answers: each step takes the next bytes, and the rest of the run those behind them. -/
theorem runWrites_wrote {ns : List Nat} {s : State} (hinv : TxInv s.cfg s.tx) (hs : s.UnderWay)
    (hsum : ns.sum ≤ s.tx.txLen - s.tx.txPos) (taken : List Byte) :
    ∃ t, runWrites ns s taken = some (taken ++ memReadN .txbuf s.tx.epoch s.tx.txbuf s.tx.txPos ns.sum, t)
      ∧ Wrote ns.sum s t ∧ TxInv t.cfg t.tx ∧ t.UnderWay := by
  induction ns generalizing s taken with
  | nil => exact ⟨s, by simp [runWrites, memReadN], .refl s, hinv, hs⟩
  | cons n ns ih =>
    rw [List.sum_cons] at hsum ⊢
    obtain ⟨u, hstep, hu, hus, htook⟩ := exec_writeStep_wrote hinv hs (n := n) (by omega)
    obtain ⟨huinv, hucfg, -⟩ := exec_writeStep_inv hinv hstep
    rw [← hucfg] at huinv
    obtain ⟨t, hrun, ht, htinv, hts⟩ :=
      ih huinv hus (by rw [hu.txLen, hu.txPos]; omega) (taken ++ sinkTook u.out)
    refine ⟨t, ?_, hu.trans ht, htinv, hts⟩
    rw [runWrites_cons hstep, hrun, htook, hu.epoch, hu.txbuf, hu.txPos, List.append_assoc, ← memReadN_add]

/-- Settles O35: the run of writes, and what waits at its end is a frame that is out. -/
theorem writesDeliverTheFrameInOrder : Obligations.WritesDeliverTheFrameInOrder := by
  unfold Obligations.WritesDeliverTheFrameInOrder
  intro s ns hinv hs hsum
  obtain ⟨t, hrun, ht, htinv, hts⟩ := runWrites_wrote hinv.tx (.inl hs) hsum []
  refine ⟨t, hrun, ht.txbuf, ht.txPos, ht.rx, ht.sc, ?_⟩
  have hpos := hinv.tx.txPos_le
  rw [hts.waiting_iff htinv, ht.txPos, ht.txLen]
  omega

end Sys2Proof.Machine
end

section
/-! PROOFS. The frame that `SEND` assembles (42_tx_encoder R184, R189, 40_rx_parser R114, R125): its bytes, that they
determine the record, and what a receive half makes of them. -/

namespace Sys2Proof.Machine

/-! ### The bytes of a frame determine its record (R184) -/

/-- The fields after a frame's `00` are told apart by the length that stands first (R85). -/
theorem frameFields_injective {p p' rest rest' : List Byte} {crc crc' : Word} (hp : p.length < 2 ^ 32)
    (hp' : p'.length < 2 ^ 32)
    (h : le32 (BitVec.ofNat 32 p.length) ++ p ++ le32 crc ++ rest
      = le32 (BitVec.ofNat 32 p'.length) ++ p' ++ le32 crc' ++ rest') : p = p' ∧ crc = crc' := by
  generalize ht : le32 (BitVec.ofNat 32 p.length) ++ p ++ le32 crc ++ rest = t at h
  obtain ⟨hlen, -, hpay, hcrc, -⟩ := frameFields_read hp ht.symm
  obtain ⟨hlen', -, hpay', hcrc', -⟩ := frameFields_read hp' h
  rw [hlen.symm.trans hlen'] at hpay hcrc
  exact ⟨hpay.symm.trans hpay', hcrc.symm.trans hcrc'⟩

/-- A frame's name ends at its first `00` and its length field tells where its payload ends (R82, R85). -/
theorem frameBytes_injective {c : Config} {id id' : Nat} {p p' : List Byte} {crc crc' : Word}
    (hid : id < c.nameTable.length) (hid' : id' < c.nameTable.length) (hp : p.length < 2 ^ 32)
    (hp' : p'.length < 2 ^ 32) (h : frameBytes c id p crc = frameBytes c id' p' crc') :
    id = id' ∧ p = p' ∧ crc = crc' := by
  have hbytes := congrArg (· ++ []) h
  simp only [frameBytes_append, List.append_cancel_left_eq] at hbytes
  have hsplit := congrArg splitAtZero hbytes
  rw [splitAtZero_append _ _ (spelling_no_zero hid), splitAtZero_append _ _ (spelling_no_zero hid'),
    Option.some.injEq, Prod.mk.injEq] at hsplit
  obtain ⟨hname, hfields⟩ := hsplit
  have hindex := congrArg (nameIndex c) hname
  rw [nameIndex_spelling hid, nameIndex_spelling hid', Option.some.injEq] at hindex
  exact ⟨hindex, frameFields_injective hp hp' hfields⟩

/-- The sub-decoder reads a well-formed record off its variant and its payload, so these determine it. -/
theorem payloadOf_injective {c : Config} {cmd cmd' : Cmd} (hwf : wellFormedCmd c cmd = true)
    (hwf' : wellFormedCmd c cmd' = true) (hid : cmd.nameId = cmd'.nameId) (hp : payloadOf cmd = payloadOf cmd') :
    cmd = cmd' := by
  obtain ⟨e, he, hwords, helems⟩ := exists_entry_of_wellFormedCmd hwf
  obtain ⟨hwords', helems'⟩ := (wellFormedCmd_iff (hid ▸ he)).1 hwf'
  have hread := subDecode_payloadOf .reject hwords helems
  rw [hid, hp, subDecode_payloadOf .reject hwords' helems'] at hread
  exact (Option.some.inj hread).symm

theorem encodeCmd_injective {c : Config} {cmd cmd' : Cmd} (hwf : wellFormedCmd c cmd = true)
    (hwf' : wellFormedCmd c cmd' = true) (hcap : (payloadOf cmd).length ≤ c.lenCap)
    (hcap' : (payloadOf cmd').length ≤ c.lenCap) (h : encodeCmd c cmd = encodeCmd c cmd') : cmd = cmd' := by
  obtain ⟨-, -, -, hword, -⟩ := c.legal_iff.1 c.isLegal
  obtain ⟨hid, hp, -⟩ := frameBytes_injective (nameId_lt_of_wellFormedCmd hwf) (nameId_lt_of_wellFormedCmd hwf')
    (hcap.trans_lt hword) (hcap'.trans_lt hword) h
  exact payloadOf_injective hwf hwf' hid hp

/-- What an accepted `SEND` leaves in `TXBUF[0..tx_len)` is the frame of its record, whatever stood there (R184). -/
theorem exec_send_leaves_frame {s : State} {cmd : Cmd} (hmem : memWf s.tx.txbuf = true)
    (hidle : s.tx.txState = .idle) (hwf : wellFormedCmd s.cfg cmd = true)
    (hcap : (payloadOf cmd).length ≤ s.cfg.lenCap) :
    ∃ t, exec (.send cmd) s = .next t
      ∧ memReadN .txbuf t.tx.epoch t.tx.txbuf 0 t.tx.txLen = encodeCmd s.cfg cmd :=
  ⟨_, exec_send_accepted hidle hmem hwf hcap, memReadN_memWriteN ..⟩

/-- Settles O4: the frame is what `SEND` has written, and its bytes give back the variant and the payload. -/
theorem assembledFrameExactAndInjective : Obligations.AssembledFrameExactAndInjective := by
  unfold Obligations.AssembledFrameExactAndInjective
  exact ⟨fun s cmd hinv hidle hwf hcap => exec_send_leaves_frame hinv.tx.txbuf_wf hidle hwf hcap,
    fun c cmd cmd' hwf hwf' hcap hcap' => encodeCmd_injective hwf hwf' hcap hcap'⟩

/-! ### A frame that comes while the parser hunts for a marker (R189) -/

/-- A frame that the empty FIFO takes whole: the parser's run over its bytes. -/
theorem feedAndDecode_of_empty {s : State} {bytes : List Byte} {r : RxRegs} {es : List Event} (hq : s.rx.rxq = [])
    (hlen : bytes.length ≤ s.cfg.rxbufCap) (hrun : runRx s.cfg bytes s.rx = some (r, es)) :
    feedAndDecode bytes s = some (es, fedAndDecoded r es s) :=
  feedAndDecode_run (by simpa [hq] using hlen) (by simpa [hq] using hrun)

/-- Settles O30: the bytes fed are the record's frame, whose run from `SEEK_MARKER` is `FRAME_OK`. -/
theorem sentFrameIsReceived : Obligations.SentFrameIsReceived := by
  unfold Obligations.SentFrameIsReceived
  intro s r cmd hcfg hborder hinv hidle hwf hfits hfree hrinv hseek hfifo hlen
  obtain ⟨t, hsend, hframe⟩ :=
    exec_send_leaves_frame hinv.tx.txbuf_wf hidle hwf (payload_length_bounds hfits).1
  rw [← hcfg] at hborder hwf hfits hfree hframe hlen
  have hrun := runRx_encodeCmd hborder hrinv.rx hseek hwf hfits hfree
  have hreceived := feedAndDecode_of_empty hfifo hlen hrun
  exact ⟨t, _, hsend, by rw [hframe]; exact hreceived, rfl⟩

/-! ### The history of the marker test over a run (R113) -/

theorem nameByte_mhist {c : Config} {b : Byte} {r r' : RxRegs} {ev : Option Event}
    (h : nameByte c b r = .ok (r', ev)) : r'.mhist = r.mhist := by
  rw [nameByte] at h
  repeat' split at h
  all_goals cases h
  all_goals rfl

theorem nameEnd_mhist {c : Config} {r r' : RxRegs} {ev : Option Event} (h : nameEnd c r = .ok (r', ev)) :
    r'.mhist = r.mhist := by
  rw [nameEnd] at h
  repeat' split at h
  all_goals cases h
  all_goals rfl

theorem lengthByte_mhist (c : Config) (b : Byte) (r : RxRegs) : (lengthByte c b r).1.mhist = r.mhist := by
  simp only [lengthByte]
  repeat' split
  all_goals rfl

theorem payloadByte_mhist {c : Config} {b : Byte} {r r' : RxRegs} {ev : Option Event}
    (h : payloadByte c b r = .ok (r', ev)) : r'.mhist = r.mhist := by
  rw [payloadByte] at h
  split at h <;> cases h
  rfl

theorem crcByte_mhist {c : Config} {b : Byte} {r r' : RxRegs} {ev : Option Event}
    (h : crcByte c b r = .ok (r', ev)) : r'.mhist = r.mhist := by
  rw [crcByte] at h
  repeat' split at h
  all_goals cases h
  all_goals rfl

/-- No rule of a phase touches the history: it is the marker test's, whatever else the byte does. -/
theorem byteStep_mhist {c : Config} {b : Byte} {r r' : RxRegs} {ev : Option Event}
    (h : byteStep c b r = .ok (r', ev)) : r'.mhist = nextMhist c r.mhist b := by
  by_cases hm : completesMarker c r.mhist b = true
  · rw [byteStep_of_completes hm] at h
    cases h
    exact (nextMhist_of_completes hm).symm
  · rw [Bool.not_eq_true] at hm
    cases hp : r.phase with
    | seekMarker =>
      cases (byteStep_seekMarker hm hp).symm.trans h
      rfl
    | readName =>
      by_cases hb : b = 0#8
      · subst hb
        exact nameEnd_mhist ((byteStep_nameEnd hm hp).symm.trans h)
      · exact nameByte_mhist ((byteStep_nameByte hm hp hb).symm.trans h)
    | readLength =>
      have hrule := Except.ok.inj ((byteStep_lengthByte hm hp).symm.trans h)
      have hkept := lengthByte_mhist c b (r.tested c b)
      rwa [hrule] at hkept
    | readPayload => exact payloadByte_mhist ((byteStep_payloadByte hm hp).symm.trans h)
    | readCrc => exact crcByte_mhist ((byteStep_crcByte hm hp).symm.trans h)

theorem runRx_mhist {c : Config} {bs : List Byte} {r r' : RxRegs} {es : List Event}
    (h : runRx c bs r = some (r', es)) : r'.mhist = bs.foldl (nextMhist c) r.mhist := by
  induction bs generalizing r es with
  | nil =>
    simp only [runRx, Option.some.injEq, Prod.mk.injEq] at h
    rw [← h.1, List.foldl_nil]
  | cons b bs ih =>
    simp only [runRx] at h
    split at h
    · next r₁ ev hstep =>
      obtain ⟨⟨r₂, es₂⟩, hrun, hr⟩ := Option.map_eq_some_iff.1 h
      cases hr
      rw [ih hrun, byteStep_mhist hstep, List.foldl_cons]
    · cases h

/-- While no byte completes a marker, the history is the last bytes of the whole string. -/
theorem foldl_nextMhist_quiet {c : Config} {u bs : List Byte} (h : Quiet c u bs) :
    bs.foldl (nextMhist c) (lastN (c.marker.length - 1) u) = lastN (c.marker.length - 1) (u ++ bs) := by
  induction bs generalizing u with
  | nil => rw [List.foldl_nil, List.append_nil]
  | cons b bs ih =>
    obtain ⟨hb, hbs⟩ := h.cons
    rw [List.foldl_cons, nextMhist_of_not_completes hb, ih hbs, List.append_assoc, List.singleton_append]

/-- After all but the last byte of a border-free marker, whatever came before them, the last one completes it. -/
theorem completesMarker_after_dropLast {c : Config} {r r' : RxRegs} {es : List Event}
    (hb : borderFree c.marker = true) (hm : r.mhist.length < c.marker.length)
    (h : runRx c c.marker.dropLast r = some (r', es)) (hne : c.marker ≠ []) :
    completesMarker c r'.mhist (c.marker.getLast hne) = true := by
  have hquiet := quiet_marker_prefix hb r.mhist
  rw [← List.dropLast_eq_take] at hquiet
  have hhist := runRx_mhist h
  rw [← lastN_of_length_le (Nat.le_pred_of_lt hm), Nat.pred_eq_sub_one, foldl_nextMhist_quiet hquiet] at hhist
  rw [hhist, completesMarker_iff, List.append_assoc, List.dropLast_concat_getLast]
  exact List.suffix_append _ _

/-! ### A frame that comes while another is in flight (R125, R189) -/

/-- A marker from a frame in flight ends it with `ERR_RESYNC`, if its bytes before the last leave it in flight (R114,
R236; log 25). -/
theorem runRx_marker_midFrame {c : Config} {r r' : RxRegs} (hb : borderFree c.marker = true)
    (hm : r.mhist.length < c.marker.length) (hrun : runRx c c.marker.dropLast r = some (r', []))
    (hp : r'.phase ≠ .seekMarker) :
    runRx c c.marker r = some ({ msgClear r' with phase := .readName, mhist := [] }, [.err .resync]) := by
  have hne : c.marker ≠ [] := List.length_pos_iff.1 (marker_pos c)
  have hlast : byteStep c (c.marker.getLast hne) r'
      = .ok ({ msgClear r' with phase := .readName, mhist := [] }, some (.err .resync)) := by
    rw [byteStep_of_completes (completesMarker_after_dropLast hb hm hrun hne)]
    simp [markerDetected, hp, msgClear]
  have hmarker := runRx_append hrun (runRx_event hlast)
  rwa [List.dropLast_concat_getLast] at hmarker

/-- The frame of a well-formed record from a frame in flight: `ERR_RESYNC` at the marker's end, then `FRAME_OK`. -/
theorem runRx_encodeCmd_midFrame {c : Config} {cmd : Cmd} {r r' : RxRegs} (hb : borderFree c.marker = true)
    (hm : r.mhist.length < c.marker.length) (hrun : runRx c c.marker.dropLast r = some (r', []))
    (hp : r'.phase ≠ .seekMarker) (hwf : wellFormedCmd c cmd = true)
    (hfits : (payloadOf cmd).length ≤ c.payloadRamBytes)
    (hfree : markerFree c ((encodeCmd c cmd).drop c.marker.length)) :
    runRx c (encodeCmd c cmd) r
      = some (frameRx c cmd.nameId (payloadOf cmd) (crc32 (payloadOf cmd)) (.frameOk cmd) r',
          [.err .resync, .frameOk cmd]) := by
  have hbody := runRx_frameBody (r := r') (nameId_lt_of_wellFormedCmd hwf) (payload_length_bounds hfits).2 hfree
  rw [frameVerdict_of_wellFormedCmd hwf hfits] at hbody
  have hwhole := runRx_append (runRx_marker_midFrame hb hm hrun hp) hbody
  have hframe : c.marker ++ (encodeCmd c cmd).drop c.marker.length = encodeCmd c cmd := by
    rw [encodeCmd, frameBytes_drop]
    simp [frameBytes]
  rw [← hframe]
  exact hwhole

/-- Settles O31: the registers that the marker's bytes before the last have left are still in a frame, so the last one
resyncs. -/
theorem midFrameResyncs : Obligations.MidFrameResyncs := by
  unfold Obligations.MidFrameResyncs
  intro r m cmd hborder hwf hfits hfree hinv _ hfifo hlen hprefix hflight
  have hshort : r.cfg.marker.dropLast.length ≤ r.cfg.rxbufCap := by
    rw [encodeCmd, frameBytes_length] at hlen
    rw [List.length_dropLast]
    omega
  obtain ⟨r', es, hrun, -⟩ := runRx_inv hinv.rx r.cfg.marker.dropLast
  cases hprefix.symm.trans (feedAndDecode_of_empty hfifo hshort hrun)
  have hframe := runRx_encodeCmd_midFrame hborder hinv.rx.mhist_short hrun hflight hwf hfits hfree
  exact ⟨_, feedAndDecode_of_empty hfifo hlen hframe, rfl⟩

end Sys2Proof.Machine
end

section
/-! PROOFS. The handshake (43_ack_handshake R201 to R212; logs 6, 7, 10): what a poll makes of each answer, how a wait
ends, that one frame at a time is under way, and the handshake of a frame from its arrival to `ACK_OK`. -/

namespace Sys2Proof.Machine

/-! ### What a poll is answered (R201; log 10) -/

section
variable {s : State} (hw : s.tx.txState = .waiting)
include hw

/-- A line answer is taken from `SC`, or has just arrived on an empty one. -/
theorem exec_poll_line {l : Line} (hsc : s.sc = [] ∨ s.sc.head? = some l) :
    exec (.poll (some l)) s = .next (pollAnswered (some l) { s with sc := s.sc.tail, out := [] }) := by
  rcases hsc with hempty | hhead
  · simp [exec, execPoll, hw, hempty, State.clearOut]
  · obtain ⟨q, hq⟩ := List.head?_eq_some_iff.1 hhead
    simp [exec, execPoll, hw, hq, State.clearOut]

theorem exec_poll_null : exec (.poll none) s = .next (pollAnswered none s.clearOut) := by
  simp [exec, execPoll, hw]

end

/-- Settles O36: the completion line is the poll's answer, and ends the wait in success. -/
theorem pollCompletionLine : Obligations.PollCompletionLine := by
  unfold Obligations.PollCompletionLine
  intro s l hw hack hsc
  have hends := pollAnswered_completionLine (s := { s with sc := s.sc.tail, out := [] }) hack
  exact (exec_poll_line hw hsc).trans (congrArg _ hends)

/-- Settles O37: the error line is the poll's answer, and ends the wait in an error. -/
theorem pollErrorLine : Obligations.PollErrorLine := by
  unfold Obligations.PollErrorLine
  intro s l hw herr hsc
  have hends := pollAnswered_errorLine (s := { s with sc := s.sc.tail, out := [] }) herr
  exact (exec_poll_line hw hsc).trans (congrArg _ hends)

/-! ### A poll that brings no token (R204, R205, R240) -/

/-- A counted poll whose answer is no token line, null or ordinary: the last of the budget ends the wait. -/
theorem countPoll_no_token {s : State} {ans : Option Line}
    (h : ∀ l ∈ ans, ¬ s.cfg.ackToken <+: l ∧ ¬ s.cfg.errToken <+: l) :
    countPoll ans s =
      if s.tx.polls + 1 = s.cfg.retryBudget then { s with
        tx := { s.tx with
          polls := s.tx.polls + 1, txState := .idle, lastOutcome := .ackTimeout, wdArmed := armedAfterWait s }
        out := s.out ++ [.outcome .ackTimeout] }
      else { s with tx := { s.tx with polls := s.tx.polls + 1 } } := by
  cases ans with
  | none => rfl
  | some l =>
    obtain ⟨hack, herr⟩ := h l rfl
    simp only [countPoll, isAckLine_iff, isErrLine_iff, if_neg hack, if_neg herr]
    rfl

/-- Settles O38: an ordinary line is the poll's answer, and the poll is counted. -/
theorem pollOrdinaryLine : Obligations.PollOrdinaryLine := by
  unfold Obligations.PollOrdinaryLine
  intro s l hw hack herr hsc
  have hcount := countPoll_no_token (ans := some l)
    (s := { s with sc := s.sc.tail, out := [.sinkReadline s.cfg.pollTimeoutMs] })
    fun _ hl => Option.some.inj hl ▸ ⟨hack, herr⟩
  exact (exec_poll_line hw hsc).trans (congrArg _ hcount)

/-- A null answer while the watchdog counts: its time passes, and a poll that this leaves in time is counted (R237
item 5). -/
theorem pollAnswered_null_of_armed {s : State} (hw : s.tx.txState = .waiting) (harm : s.tx.wdArmed = true) :
    pollAnswered none s =
      if s.tx.wdElapsed + s.cfg.pollTimeoutMs > s.cfg.wdCeilingMs then { s with
        tx := { s.tx with
          wdElapsed := s.tx.wdElapsed + s.cfg.pollTimeoutMs, txState := .fatal, wdArmed := false
          lastOutcome := .wdFatal }
        out := s.out ++ [.sinkReadline s.cfg.pollTimeoutMs, .outcome .wdFatal] }
      else countPoll none { s with
        tx := { s.tx with wdElapsed := s.tx.wdElapsed + s.cfg.pollTimeoutMs }
        out := s.out ++ [.sinkReadline s.cfg.pollTimeoutMs] } := by
  rw [pollAnswered_none]
  rcases watchdogAdvance_cases s.cfg.pollTimeoutMs (s.emit (.sinkReadline s.cfg.pollTimeoutMs))
    with ⟨hoff, -⟩ | ⟨-, hintime, hadv⟩ | ⟨-, hlate, hadv⟩
  · simp [harm] at hoff
  · rw [State.emit_tx, State.emit_cfg] at hintime
    rw [hadv, if_neg (by simp [hw]), if_neg (Nat.not_lt.2 hintime)]
    rfl
  · rw [State.emit_tx, State.emit_cfg] at hlate
    rw [hadv, if_pos hlate]
    simp [watchdogFire, State.setOutcome, State.emit]

/-- The three outcomes of a null poll (R205, R241): the watchdog fires, the budget is used up, or the wait goes on. -/
theorem exec_poll_null_of_armed {s : State} (hw : s.tx.txState = .waiting) (harm : s.tx.wdArmed = true) :
    exec (.poll none) s = .next (
      if s.tx.wdElapsed + s.cfg.pollTimeoutMs > s.cfg.wdCeilingMs then { s with
        tx := { s.tx with
          wdElapsed := s.tx.wdElapsed + s.cfg.pollTimeoutMs, txState := .fatal, wdArmed := false
          lastOutcome := .wdFatal }
        out := [.sinkReadline s.cfg.pollTimeoutMs, .outcome .wdFatal] }
      else if s.tx.polls + 1 = s.cfg.retryBudget then { s with
        tx := { s.tx with
          wdElapsed := s.tx.wdElapsed + s.cfg.pollTimeoutMs, polls := s.tx.polls + 1
          txState := .idle, lastOutcome := .ackTimeout, wdArmed := armedAfterWait s }
        out := [.sinkReadline s.cfg.pollTimeoutMs, .outcome .ackTimeout] }
      else { s with
        tx := { s.tx with
          wdElapsed := s.tx.wdElapsed + s.cfg.pollTimeoutMs, polls := s.tx.polls + 1 }
        out := [.sinkReadline s.cfg.pollTimeoutMs] }) := by
  rw [exec_poll_null hw, pollAnswered_null_of_armed (s := s.clearOut) hw harm, countPoll_no_token (by simp)]
  rfl

/-- What a wait without success leaves of an armed watchdog is the policy's alone (R5, R205). -/
theorem armedAfterWait_of_armed {s : State} (harm : s.tx.wdArmed = true) :
    armedAfterWait s = match s.cfg.wdClearOn with | .waitEnd => false | .ackOnly => true := by
  cases hpolicy : s.cfg.wdClearOn <;> simp only [armedAfterWait, hpolicy, harm]

/-- Settles O39: the watchdog of a waiting sender is armed. -/
theorem pollNull : Obligations.PollNull := by
  unfold Obligations.PollNull
  intro s hinv hw
  have harm := hinv.tx.armed_busy (.inr hw)
  have hpoll := exec_poll_null_of_armed hw harm
  rw [armedAfterWait_of_armed harm] at hpoll
  exact hpoll

/-! ### Runs of polls (R200, R208) -/

theorem runOps_cons_eq_some {i : Instr} {is : List Instr} {s t : State} :
    runOps (i :: is) s = some t ↔ ∃ u, exec i s = .next u ∧ runOps is u = some t := by
  rw [runOps]
  cases exec i s <;> simp

/-- The invariant holds along every run of operations. -/
theorem runOps_keepsInv {ops : List Instr} {s t : State} (h : runOps ops s = some t) : KeepsInv s t := by
  induction ops generalizing s with
  | nil =>
    cases h
    exact fun hinv => ⟨hinv, rfl⟩
  | cons i is ih =>
    obtain ⟨u, hu, ht⟩ := runOps_cons_eq_some.1 h
    intro hinv
    obtain ⟨huinv, hucfg⟩ := exec_keepsInv hu hinv
    obtain ⟨htinv, htcfg⟩ := ih ht huinv
    exact ⟨htinv, htcfg.trans hucfg⟩

/-- By induction on the polls that are left: each but the last is counted, and the wait goes on. -/
theorem null_polls_time_out {n : Nat} {s : State} (hw : s.tx.txState = .waiting) (harm : s.tx.wdArmed = true)
    (hbudget : s.tx.polls + (n + 1) = s.cfg.retryBudget)
    (htime : s.tx.wdElapsed + (n + 1) * s.cfg.pollTimeoutMs ≤ s.cfg.wdCeilingMs) :
    ∃ t, runOps (List.replicate (n + 1) (.poll none)) s = some t
      ∧ t.tx = { s.tx with
        polls := s.cfg.retryBudget
        wdElapsed := s.tx.wdElapsed + (n + 1) * s.cfg.pollTimeoutMs
        txState := .idle, lastOutcome := .ackTimeout, wdArmed := armedAfterWait s }
      ∧ t.rx = s.rx ∧ t.sc = s.sc := by
  induction n generalizing s with
  | zero =>
    have hpoll := exec_poll_null_of_armed hw harm
    rw [if_neg (by omega), if_pos hbudget, hbudget] at hpoll
    exact ⟨_, runOps_cons hpoll, by simp, rfl, rfl⟩
  | succ n ih =>
    have hpoll := exec_poll_null_of_armed hw harm
    have helapsed : s.tx.wdElapsed + (n + 1 + 1) * s.cfg.pollTimeoutMs
        = s.tx.wdElapsed + s.cfg.pollTimeoutMs + (n + 1) * s.cfg.pollTimeoutMs := by ring
    rw [helapsed] at htime ⊢
    rw [if_neg (by omega), if_neg (by omega)] at hpoll
    rw [List.replicate_succ, runOps_cons hpoll]
    exact ih hw harm (by simp only; omega) htime

/-- Settles O41: no poll is counted yet, so the whole budget is left. -/
theorem silenceTimesOut : Obligations.SilenceTimesOut := by
  unfold Obligations.SilenceTimesOut
  intro s hinv hw hpolls htime
  have harm := hinv.tx.armed_busy (.inr hw)
  obtain ⟨n, hn⟩ := Nat.exists_eq_add_one.2 (retryBudget_pos s.cfg)
  rw [hn] at htime ⊢
  have hrun := null_polls_time_out hw harm (by rw [hpolls, hn, Nat.zero_add]) htime
  rw [armedAfterWait_of_armed harm, hn] at hrun
  exact hrun

/-- What a counted poll changes of the send half: the count, and how the wait stands. -/
theorem countPoll_tx (ans : Option Line) (s : State) :
    ∃ mode o armed, (countPoll ans s).tx
      = { s.tx with polls := s.tx.polls + 1, txState := mode, lastOutcome := o, wdArmed := armed } := by
  cases ans with
  | none =>
    simp only [countPoll]
    split <;> exact ⟨_, _, _, rfl⟩
  | some l =>
    simp only [countPoll]
    repeat' split
    all_goals exact ⟨_, _, _, rfl⟩

/-- A poll is counted, unless the watchdog fires first (R237 item 5). -/
theorem pollAnswered_fatal_or_counted (ans : Option Line) (s : State) :
    (pollAnswered ans s).tx.txState = .fatal ∨ (pollAnswered ans s).tx.polls = s.tx.polls + 1 := by
  cases ans with
  | some l =>
    obtain ⟨-, hcount, -⟩ := countPoll_plain (some l) (s.emit (.sinkReadline s.cfg.pollTimeoutMs))
    exact .inr hcount
  | none =>
    rw [pollAnswered_none]
    split
    · next hfatal => exact .inl hfatal
    · obtain ⟨-, hcount, -⟩ := countPoll_plain none
        (watchdogAdvance s.cfg.pollTimeoutMs (s.emit (.sinkReadline s.cfg.pollTimeoutMs)))
      rw [hcount, (watchdogAdvance_plain _ _).1]
      exact .inr rfl

/-- A poll after which the sender still waits was made while it waited, and is counted. -/
theorem exec_poll_counted_of_waiting {ans : Option Line} {s t : State} (h : exec (.poll ans) s = .next t)
    (ht : t.tx.txState = .waiting) : s.tx.txState = .waiting ∧ t.tx.polls = s.tx.polls + 1 := by
  rcases exec_poll_cases h with ⟨hs, rfl⟩ | ⟨hs, q, rfl⟩
  · exact absurd ht hs
  · exact ⟨hs, (pollAnswered_fatal_or_counted ans _).resolve_left
      fun hfatal => absurd (ht.symm.trans hfatal) (by decide)⟩

/-- By induction on the answers: the count is that of the polls made. -/
theorem runOps_polls_counted {answers : List (Option Line)} {s t : State}
    (h : runOps (answers.map .poll) s = some t) (ht : t.tx.txState = .waiting) :
    s.tx.txState = .waiting ∧ t.tx.polls = s.tx.polls + answers.length := by
  induction answers generalizing s with
  | nil =>
    cases h
    exact ⟨ht, rfl⟩
  | cons ans answers ih =>
    obtain ⟨u, hu, hrest⟩ := runOps_cons_eq_some.1 h
    obtain ⟨huw, hrest⟩ := ih hrest
    obtain ⟨hsw, hone⟩ := exec_poll_counted_of_waiting hu huw
    exact ⟨hsw, by rw [hrest, hone, List.length_cons]; omega⟩

/-- Settles O42: a sender that still waits has counted every poll, and a waiting sender's count is below the budget. -/
theorem waitIsBounded : Obligations.WaitIsBounded := by
  unfold Obligations.WaitIsBounded
  intro s t answers hinv _ hbudget hrun ht
  obtain ⟨-, hcount⟩ := runOps_polls_counted hrun ht
  obtain ⟨htinv, hcfg⟩ := runOps_keepsInv hrun hinv
  obtain ⟨-, hbelow⟩ := htinv.tx.waiting_open ht
  rw [hcfg] at hbelow
  omega

/-! ### One frame at a time (R65, R74, R207) -/

/-- The frame in TXBUF is the same in `t` as in `s`. -/
def SameFrame (s t : State) : Prop := t.tx.txbuf = s.tx.txbuf ∧ t.tx.txLen = s.tx.txLen

theorem SameFrame.of_tx {s t : State} (h : t.tx = s.tx) : SameFrame s t := ⟨by rw [h], by rw [h]⟩

theorem SameFrame.trans {s t u : State} (h : SameFrame s t) (h' : SameFrame t u) : SameFrame s u :=
  ⟨h'.1.trans h.1, h'.2.trans h.2⟩

theorem watchdogAdvance_sameFrame (d : Nat) (s : State) : SameFrame s (watchdogAdvance d s) := by
  rcases watchdogAdvance_cases d s with ⟨-, e⟩ | ⟨-, -, e⟩ | ⟨-, -, e⟩ <;> rw [e] <;> exact ⟨rfl, rfl⟩

theorem countPoll_sameFrame (ans : Option Line) (s : State) : SameFrame s (countPoll ans s) := by
  obtain ⟨mode, o, armed, htx⟩ := countPoll_tx ans s
  exact ⟨by rw [htx], by rw [htx]⟩

theorem pollAnswered_sameFrame (ans : Option Line) (s : State) : SameFrame s (pollAnswered ans s) := by
  cases ans with
  | some l => exact countPoll_sameFrame (some l) (s.emit _)
  | none =>
    have htime := watchdogAdvance_sameFrame s.cfg.pollTimeoutMs (s.emit (.sinkReadline s.cfg.pollTimeoutMs))
    rw [pollAnswered_none]
    split
    · exact htime
    · exact htime.trans (countPoll_sameFrame none _)

theorem lineArrives_sameFrame (l : Line) (s : State) : SameFrame s (lineArrives l s) := by
  rcases lineArrives_eq l s with ⟨-, e⟩ | ⟨-, e⟩ <;> rw [e]
  · exact ⟨rfl, rfl⟩
  · exact pollAnswered_sameFrame _ { s.clearOut with sc := (s.sc ++ [l]).tail }

/-- Every instruction leaves the frame in TXBUF, but a `SEND` that an idle sender accepts and `RESET_TX`. -/
theorem exec_sameFrame {s t : State} {i : Instr} (h : exec i s = .next t) :
    SameFrame s t ∨ (s.tx.txState = .idle ∧ (∃ cmd, i = .send cmd) ∧ t.tx.txState = .writing) ∨ i = .resetTx := by
  cases i with
  | setColor p crc | breathe p crc | gradient p crc | movingGradient p crc | crossFade p crc | rainbow p crc
  | fire p crc | twinkle p crc | neuralDrop p crc | waterDrop p crc | startRain p crc | stopRain p crc
  | status p crc | encodedBuffer p crc | fullBuffer p crc | speedTest p crc | feed bytes | drain | resetRx =>
    cases h
    exact .inl ⟨rfl, rfl⟩
  | decode => exact .inl (.of_tx (exec_decode_tx h))
  | cmdDone => exact .inl (.of_tx (exec_cmdDone_tx h))
  | send cmd =>
    rcases exec_send_cases h with ⟨-, rfl⟩ | ⟨-, o, -, rfl⟩ | ⟨hs, -, -, r, -, rfl⟩
    · exact .inl ⟨rfl, rfl⟩
    · exact .inl ⟨rfl, rfl⟩
    · exact .inr (.inl ⟨hs, ⟨cmd, rfl⟩, rfl⟩)
  | writeStep n =>
    rcases exec_writeStep_cases h with ⟨-, rfl⟩ | ⟨-, -, out, ⟨-, rfl⟩ | ⟨-, rfl⟩⟩ <;> exact .inl ⟨rfl, rfl⟩
  | poll ans =>
    rcases exec_poll_cases h with ⟨-, rfl⟩ | ⟨-, q, rfl⟩
    · exact .inl ⟨rfl, rfl⟩
    · exact .inl (pollAnswered_sameFrame ans { s.clearOut with sc := q })
  | time d =>
    cases h
    exact .inl (watchdogAdvance_sameFrame d s.clearOut)
  | resetTx => exact .inr (.inr rfl)
  | ackLine rest | errLine rest =>
    cases h
    exact .inl (lineArrives_sameFrame _ s)

/-- Settles O48: an instruction that changed the frame is one of the two that do. -/
theorem singleFlight : Obligations.SingleFlight := by
  unfold Obligations.SingleFlight
  intro s t i h hchanged
  refine (exec_sameFrame h).resolve_left fun ⟨hbuf, hlen⟩ => ?_
  exact hchanged.elim (absurd hbuf) (absurd hlen)

/-! ### From a frame's arrival to the end of the wait (R210, R212) -/

theorem exec_cmdDone_owed {s : State} (h : s.rx.acksOwed > 0) :
    exec .cmdDone s = .next { s with
      rx := { s.rx with acksOwed := s.rx.acksOwed - 1 }
      sc := s.sc ++ [s.cfg.ackToken]
      out := [.scOut (wireLine s.cfg.ackToken)] } := by
  simp only [exec, execCmdDone, if_pos h]
  rfl

theorem exec_cmdDone_none_owed {s : State} (h : s.rx.acksOwed = 0) :
    exec .cmdDone s = .next { s with out := [] } := by
  simp only [exec, execCmdDone, h, gt_iff_lt, Nat.lt_irrefl, if_false]
  rfl

/-- Settles O23: the two cases of `CMD_DONE`. -/
theorem cmdDoneAcknowledges : Obligations.CmdDoneAcknowledges := by
  unfold Obligations.CmdDoneAcknowledges
  exact fun s => ⟨exec_cmdDone_owed, exec_cmdDone_none_owed⟩

/-- The frame of a well-formed record arrives whole and is decoded as that record (R121, R184). -/
theorem decodesTo_of_wellFormedCmd {s : State} {cmd : Cmd} {i : Instr} (hi : cmdInstr cmd = some i)
    (hwf : wellFormedCmd s.cfg cmd = true) (hfits : (payloadOf cmd).length ≤ s.cfg.payloadRamBytes)
    (ha : FrameArrives s cmd.nameId (payloadOf cmd) (crc32 (payloadOf cmd))) :
    DecodesTo i cmd.nameId (payloadOf cmd) (crc32 (payloadOf cmd)) cmd s := by
  have hlen := (wellFormed_frame hi).2 (payload_length_bounds hfits).2
  have hone := wholeFrameGivesOneEvent s cmd.nameId _ _ i hi hlen ha
  rwa [frameVerdict_of_wellFormedCmd hwf hfits] at hone

/-- A completion line that `CMD_DONE` puts on an empty side channel is the next poll's answer. -/
theorem runOps_cmdDone_poll {s : State} (howed : s.rx.acksOwed > 0) (hw : s.tx.txState = .waiting) (hsc : s.sc = []) :
    ∃ t, runOps [.cmdDone, .poll (some s.cfg.ackToken)] s = some t
      ∧ t.rx.acksOwed = s.rx.acksOwed - 1 ∧ t.sc = []
      ∧ t.tx = { s.tx with
        polls := s.tx.polls + 1, txState := .idle, lastOutcome := .ackOk, wdArmed := false } := by
  have hdone := exec_cmdDone_owed howed
  rw [hsc, List.nil_append] at hdone
  have hpoll := pollCompletionLine { s with
    rx := { s.rx with acksOwed := s.rx.acksOwed - 1 }
    sc := [s.cfg.ackToken]
    out := [.scOut (wireLine s.cfg.ackToken)] } s.cfg.ackToken hw (List.prefix_refl _) (.inr rfl)
  exact ⟨_, (runOps_cons hdone).trans (runOps_cons hpoll), rfl, rfl, rfl⟩

/-- Settles O50: the frame's arrival leaves a command that is owed its acknowledgment, and changes neither the sender
nor the side channel; `CMD_DONE` and a poll then end the wait. -/
theorem handshakeCompletes : Obligations.HandshakeCompletes := by
  unfold Obligations.HandshakeCompletes
  intro s cmd i hi hwf hfits ha hw hsc
  have hdecoded := decodesTo_of_wellFormedCmd hi hwf hfits ha
  obtain ⟨t, hrun, howed, hempty, htx⟩ := runOps_cmdDone_poll
    (s := delivered cmd.nameId (payloadOf cmd) (crc32 (payloadOf cmd)) (.frameOk cmd) s)
    (Nat.succ_pos _) hw (by simp [delivered, arrived, responseLines, hsc])
  exact ⟨_, t, hdecoded, hrun, howed, hempty, htx⟩

end Sys2Proof.Machine
end

section
/-! PROOFS. Exceptions (60_exceptions R235, R239 to R241): the one recovery of every receive error but `ERR_RESYNC`,
time on the watchdog, and the sender in `FATAL`. -/

namespace Sys2Proof.Machine

/-! ### The recovery of a receive error (R235) -/

section
variable {c : Config} {b : Byte} {r r' : RxRegs} {e : RxError}

theorem nameByte_err (h : nameByte c b r = .ok (r', some (.err e))) : r' = recovered r.mhist r := by
  rw [nameByte] at h
  repeat' split at h
  all_goals cases h
  rfl

theorem nameEnd_err (h : nameEnd c r = .ok (r', some (.err e))) : r' = recovered r.mhist r := by
  rw [nameEnd] at h
  repeat' split at h
  all_goals cases h
  rfl

theorem lengthByte_err (h : lengthByte c b r = (r', some (.err e))) : r' = recovered r.mhist r := by
  simp only [lengthByte] at h
  repeat' split at h
  all_goals cases h
  all_goals rfl

/-- A payload byte is stored, and raises nothing (R119). -/
theorem payloadByte_no_event {ev : Option Event} (h : payloadByte c b r = .ok (r', ev)) : ev = none := by
  rw [payloadByte] at h
  split at h <;> cases h
  rfl

theorem crcByte_err (h : crcByte c b r = .ok (r', some (.err e))) : r' = recovered r.mhist r := by
  rw [crcByte] at h
  repeat' split at h
  all_goals cases h
  all_goals rfl

/-- Whichever rule raised the error, a byte step that gives one other than `ERR_RESYNC` completed no marker and ends
in the recovery of R235. -/
theorem byteStep_err (h : byteStep c b r = .ok (r', some (.err e))) (hne : e ≠ .resync) :
    r' = recovered (nextMhist c r.mhist b) r := by
  by_cases hm : completesMarker c r.mhist b = true
  · rw [byteStep_of_completes hm, markerDetected] at h
    split at h <;> cases h
    exact absurd rfl hne
  · rw [Bool.not_eq_true] at hm
    cases hp : r.phase with
    | seekMarker => cases (byteStep_seekMarker hm hp).symm.trans h
    | readName =>
      by_cases hb : b = 0#8
      · subst hb
        exact nameEnd_err ((byteStep_nameEnd hm hp).symm.trans h)
      · exact nameByte_err ((byteStep_nameByte hm hp hb).symm.trans h)
    | readLength => exact lengthByte_err (Except.ok.inj ((byteStep_lengthByte hm hp).symm.trans h))
    | readPayload => cases payloadByte_no_event ((byteStep_payloadByte hm hp).symm.trans h)
    | readCrc => exact crcByte_err ((byteStep_crcByte hm hp).symm.trans h)

end

theorem mem_eventsOf {e : Event} {out : List PortOut} : e ∈ eventsOf out ↔ .event e ∈ out := by
  rw [eventsOf, List.mem_filterMap]
  constructor
  · rintro ⟨o, ho, he⟩
    split at he <;> cases he
    exact ho
  · exact fun h => ⟨_, h, rfl⟩

/-- The event on the ports is the byte step's own (R45). -/
theorem event_mem_byteTaken {q : List Byte} {r : RxRegs} {ev : Option Event} {s : State} {e : Event}
    (h : .event e ∈ (byteTaken q r ev s).out) : ev = some e := by
  rwa [← mem_eventsOf, eventsOf_byteTaken, Option.mem_toList] at h

/-- The response to an error other than `ERR_RESYNC` is its event and its line (R211). -/
theorem byteTaken_err {q : List Byte} {r : RxRegs} {s : State} {e : RxError} (hne : e ≠ .resync) :
    byteTaken q r (some (.err e)) s = { s with
      rx := { r with rxq := q, decoding := false }
      sc := s.sc ++ [errorLine s.cfg e]
      out := [.event (.err e), .scOut (wireLine (errorLine s.cfg e))] } := by
  simp [byteTaken, responseLines, responsePorts, hne]

/-- Settles O20: the event comes from a byte step, which ends in the recovery, and its response is one line. -/
theorem errorRecoveryIsPrecise : Obligations.ErrorRecoveryIsPrecise := by
  unfold Obligations.ErrorRecoveryIsPrecise
  intro s t e h hev hne
  rcases exec_decode_cases h with ⟨-, rfl⟩ | ⟨b, q, r, ev, hq, hstep, rfl⟩
  · simp at hev
  · obtain rfl := event_mem_byteTaken hev
    obtain rfl := byteStep_err hstep hne
    exact ⟨b, q, hq, byteTaken_err hne⟩

/-! ### Time on the watchdog (R240, R241) -/

theorem watchdogAdvance_of_disarmed {s : State} (h : s.tx.wdArmed = false) (d : Nat) :
    watchdogAdvance d s = s := by
  simp [watchdogAdvance, h]

section
variable {s : State} {d : Nat} (harm : s.tx.wdArmed = true)
include harm

theorem watchdogAdvance_in_time (h : s.tx.wdElapsed + d ≤ s.cfg.wdCeilingMs) :
    watchdogAdvance d s = { s with tx := { s.tx with wdElapsed := s.tx.wdElapsed + d } } := by
  simp [watchdogAdvance, harm, Nat.not_lt.2 h]

theorem watchdogAdvance_too_late (h : s.tx.wdElapsed + d > s.cfg.wdCeilingMs) :
    watchdogAdvance d s = watchdogFire { s with tx := { s.tx with wdElapsed := s.tx.wdElapsed + d } } := by
  simp [watchdogAdvance, harm, h]

end

/-- Settles O43: the three cases of the watchdog's advance, on ports that carry nothing yet. -/
theorem timeRule : Obligations.TimeRule := by
  unfold Obligations.TimeRule
  intro s d
  refine ⟨fun hoff => ?disarmed, fun harm hin => ?inTime, fun harm hlate => ?fires⟩
  case disarmed => exact congrArg _ (watchdogAdvance_of_disarmed (s := s.clearOut) hoff d)
  case inTime => exact congrArg _ (watchdogAdvance_in_time (s := s.clearOut) harm hin)
  case fires => exact congrArg _ (watchdogAdvance_too_late (s := s.clearOut) harm hlate)

/-! ### The sender in `FATAL` (R239, R241) -/

/-- In `FATAL`, with the watchdog disarmed, every operation of the send half but `RESET_TX` is not enabled or has
nothing to count, and the receive half does not reach the send half. -/
theorem exec_tx_of_fatal {i : Instr} {s t : State} (hfatal : s.tx.txState = .fatal) (hoff : s.tx.wdArmed = false)
    (hi : i ≠ .resetTx) (h : exec i s = .next t) : t.tx = s.tx := by
  have hwait : s.tx.txState ≠ .waiting := by simp [hfatal]
  have hwrite : s.tx.txState ≠ .writing := by simp [hfatal]
  have hidle : s.tx.txState ≠ .idle := by simp [hfatal]
  cases i with
  | setColor p crc | breathe p crc | gradient p crc | movingGradient p crc | crossFade p crc | rainbow p crc
  | fire p crc | twinkle p crc | neuralDrop p crc | waterDrop p crc | startRain p crc | stopRain p crc
  | status p crc | encodedBuffer p crc | fullBuffer p crc | speedTest p crc | feed bytes | drain | resetRx =>
    cases h
    rfl
  | decode => exact exec_decode_tx h
  | cmdDone => exact exec_cmdDone_tx h
  | send cmd =>
    cases (exec_send_held hidle cmd).symm.trans h
    rfl
  | writeStep n =>
    cases (exec_writeStep_disabled hwrite n).symm.trans h
    rfl
  | poll ans =>
    cases (exec_poll_disabled hwait ans).symm.trans h
    rfl
  | time d =>
    cases h
    rw [watchdogAdvance_of_disarmed (s := s.clearOut) hoff, State.clearOut_tx]
  | resetTx => exact absurd rfl hi
  | ackLine rest | errLine rest =>
    cases h
    rw [lineArrives_of_not_waiting hwait]

/-- Settles O44: the invariant keeps the watchdog disarmed in `FATAL`, so time cannot change anything either. -/
theorem fatalUntilResetTx : Obligations.FatalUntilResetTx := by
  unfold Obligations.FatalUntilResetTx
  intro s t i hinv hfatal h
  refine ⟨fun hi => exec_tx_of_fatal hfatal (hinv.tx.disarmed_fatal hfatal) hi h, ?reset⟩
  case reset =>
    rintro rfl
    cases h
    rfl

end Sys2Proof.Machine
end

section
/-! PROOFS. Reset (70_reset_and_hazards R270, R271): what each reset makes of its half, and the machine right after
both. -/

namespace Sys2Proof.Machine

/-! ### The resets as operations (R270, R271, R273) -/

/-- `RESET_RX` puts the receive half at its reset values, and starts new free bytes (log 12). -/
theorem exec_resetRx (s : State) :
    exec .resetRx s = .next { s with rx := { RxRegs.reset with epoch := s.rx.epoch + 1 }, out := [] } := rfl

/-- `RESET_TX` puts the send half at its reset values, and starts new free bytes (log 12). -/
theorem exec_resetTx (s : State) :
    exec .resetTx s = .next { s with tx := { TxRegs.reset with epoch := s.tx.epoch + 1 }, out := [] } := rfl

/-- Settles O24: every register R270 lists is one of `RxRegs.reset`. -/
theorem resetRxValues : Obligations.ResetRxValues := by
  unfold Obligations.ResetRxValues
  exact fun s => ⟨_, exec_resetRx s, by simp [RxRegs.reset]⟩

/-- Settles O46: every register R271 lists is one of `TxRegs.reset`. -/
theorem resetTxValues : Obligations.ResetTxValues := by
  unfold Obligations.ResetTxValues
  exact fun s => ⟨_, exec_resetTx s, by simp [TxRegs.reset]⟩

/-! ### The machine right after reset -/

@[simp] theorem State.resetWith_cfg (c : Config) : (State.resetWith c).cfg = c := rfl
@[simp] theorem State.resetWith_rx (c : Config) : (State.resetWith c).rx = RxRegs.reset := rfl
@[simp] theorem State.resetWith_tx (c : Config) : (State.resetWith c).tx = TxRegs.reset := rfl

/-- Settles O54: both halves at their reset values, and the default parameters. -/
theorem resetValues : Obligations.ResetValues := by
  unfold Obligations.ResetValues
  simp only [State.reset, State.resetWith_cfg, State.resetWith_rx, State.resetWith_tx]
  simp [RxRegs.reset, Phase.code, TxRegs.reset, TxMode.code, SendOutcome.code, Config.standard, Params.standard,
    standardTable]

/-- Settles O56: each half at its reset values has its invariant. -/
theorem invAtReset : Obligations.InvAtReset := by
  unfold Obligations.InvAtReset
  exact fun c => ⟨RxInv.reset c 0, TxInv.reset c 0⟩

end Sys2Proof.Machine
end

section
/-! PROOFS. Hazards (70_reset_and_hazards R282, R288): a completion line that an earlier wait left, and a device that
acknowledges nothing under `ack_only`. -/

namespace Sys2Proof.Machine

/-! ### A stale completion line (R282) -/

/-- An idle sender accepts a record and writes it whole, and then waits; `SC` and the receive half play no part. -/
theorem send_then_write_waits {s : State} {cmd : Cmd} (hinv : TxInv s.cfg s.tx) (hidle : s.tx.txState = .idle)
    (hwf : wellFormedCmd s.cfg cmd = true) (hcap : (payloadOf cmd).length ≤ s.cfg.lenCap) :
    ∃ u v, exec (.send cmd) s = .next u ∧ exec (.writeStep (encodeCmd s.cfg cmd).length) u = .next v
      ∧ v.tx.txState = .waiting ∧ v.cfg = s.cfg ∧ v.sc = s.sc ∧ v.rx = s.rx := by
  have hsend := exec_send_accepted hidle hinv.txbuf_wf hwf hcap
  obtain ⟨huinv, -, -⟩ := exec_send_inv hinv hsend
  exact ⟨_, _, hsend, exec_writeStep_last huinv rfl rfl, rfl, rfl, rfl, rfl⟩

/-- Settles O51: the wait's first poll takes the line that stood in `SC` before the `SEND`. -/
theorem staleAcknowledgment : Obligations.StaleAcknowledgment := by
  unfold Obligations.StaleAcknowledgment
  intro s cmd l hinv hidle hwf hcap hsc hack
  obtain ⟨u, v, hsend, hwrite, hwaits, hcfg, hvsc, hvrx⟩ := send_then_write_waits hinv.tx hidle hwf hcap
  rw [hsc] at hvsc
  have hpoll := exec_poll_line (l := l) hwaits (.inr (by rw [hvsc]; rfl))
  rw [pollAnswered_completionLine (by rwa [hcfg])] at hpoll
  refine ⟨_, (runOps_cons hsend).trans ((runOps_cons hwrite).trans (runOps_cons hpoll)), rfl, rfl, ?_, hvrx⟩
  simp only [hvsc, List.tail_cons]

/-! ### A device that stays silent (R240, R241, R288) -/

/-- From `s` to `t` the watchdog has fired, or it is armed and has counted at least `ms` more. -/
def FiredOrCounted (ms : Nat) (s t : State) : Prop :=
  t.tx.txState = .fatal ∨ (t.tx.wdArmed = true ∧ s.tx.wdElapsed + ms ≤ t.tx.wdElapsed)

theorem FiredOrCounted.of_tx {s t : State} (harm : s.tx.wdArmed = true) (h : t.tx = s.tx) :
    FiredOrCounted 0 s t := .inr (by rw [h]; exact ⟨harm, Nat.le_refl _⟩)

/-- The time of a run is that of its first operation and that of the rest. -/
theorem timeReported_cons (i : Instr) (is : List Instr) :
    timeReported (i :: is) = timeReported [i] + timeReported is := by
  cases i with
  | time d => rfl
  | _ => exact (Nat.zero_add _).symm

theorem ne_resetTx_of_bringsNoLine {i : Instr} (h : bringsNoLine i = true) : i ≠ .resetTx := by
  rintro rfl
  cases h

/-- What concerns the receive half leaves the send half (R73). -/
theorem exec_tx_of_receiveSide {i : Instr} {s t : State} (hi : concernsSend i = false) (h : exec i s = .next t) :
    t.tx = s.tx := by
  obtain ⟨u, rfl, -⟩ := exec_receiveSide hi h
  rfl

section
variable {s t : State} (harm : s.tx.wdArmed = true)
include harm

/-- Time that passes is counted by an armed watchdog, which fires past the ceiling (R240, R241). -/
theorem watchdogAdvance_firedOrCounted (d : Nat) : FiredOrCounted d s (watchdogAdvance d s) := by
  rcases watchdogAdvance_cases d s with ⟨hoff, -⟩ | ⟨-, -, hadv⟩ | ⟨-, -, hadv⟩
  · simp [harm] at hoff
  · rw [hadv]
    exact .inr ⟨harm, Nat.le_refl _⟩
  · rw [hadv]
    exact .inl rfl

/-- A `SEND` does not restart a watchdog that is armed (R185). -/
theorem exec_send_firedOrCounted {cmd : Cmd} (hinv : TxInv s.cfg s.tx) (h : exec (.send cmd) s = .next t) :
    FiredOrCounted 0 s t := by
  rcases exec_send_cases h with ⟨-, rfl⟩ | ⟨-, o, -, rfl⟩ | ⟨-, hwf, hcap, r, hr, rfl⟩
  · exact .of_tx harm rfl
  · exact .inr ⟨harm, Nat.le_refl _⟩
  · rw [assemble_eq hinv.txbuf_wf (nameId_lt_of_wellFormedCmd hwf) hcap] at hr
    cases hr
    exact .inr ⟨rfl, by simp [beginWrite, harm]⟩

theorem exec_writeStep_firedOrCounted {n : Nat} (h : exec (.writeStep n) s = .next t) : FiredOrCounted 0 s t := by
  rcases exec_writeStep_cases h with ⟨-, rfl⟩ | ⟨-, -, out, ⟨-, rfl⟩ | ⟨-, rfl⟩⟩ <;>
    exact .inr ⟨harm, Nat.le_refl _⟩

/-- Under `ack_only` a poll that brings no line leaves an armed watchdog armed, a timeout too, unless it fires
(R205, R240). -/
theorem exec_poll_null_firedOrCounted (hpolicy : s.cfg.wdClearOn = .ackOnly) (h : exec (.poll none) s = .next t) :
    FiredOrCounted 0 s t := by
  by_cases hw : s.tx.txState = .waiting
  · cases (exec_poll_null_of_armed hw harm).symm.trans h
    split
    · exact .inl rfl
    · split
      · exact .inr ⟨by rw [armedAfterWait_of_armed harm, hpolicy], Nat.le_add_right _ _⟩
      · exact .inr ⟨harm, Nat.le_add_right _ _⟩
  · cases (exec_poll_disabled hw none).symm.trans h
    exact .of_tx harm rfl

/-- Under `ack_only` no operation that brings no line disarms the watchdog, and the time it reports is counted. -/
theorem exec_firedOrCounted {i : Instr} (hinv : TxInv s.cfg s.tx) (hpolicy : s.cfg.wdClearOn = .ackOnly)
    (hi : bringsNoLine i = true) (h : exec i s = .next t) : FiredOrCounted (timeReported [i]) s t := by
  cases i with
  | send cmd => exact exec_send_firedOrCounted harm hinv h
  | writeStep n => exact exec_writeStep_firedOrCounted harm h
  | poll ans =>
    cases ans with
    | none => exact exec_poll_null_firedOrCounted harm hpolicy h
    | some l => cases hi
  | time d =>
    cases h
    exact watchdogAdvance_firedOrCounted (s := s.clearOut) harm d
  | resetTx | ackLine rest | errLine rest => cases hi
  | _ => exact .of_tx harm (exec_tx_of_receiveSide rfl h)

end

/-- A sender in `FATAL` stays there along every run without `RESET_TX` (R241). -/
theorem runOps_fatal {ops : List Instr} {s t : State} (hinv : s.Inv) (hfatal : s.tx.txState = .fatal)
    (hops : ∀ i ∈ ops, i ≠ .resetTx) (h : runOps ops s = some t) : t.tx.txState = .fatal := by
  induction ops generalizing s with
  | nil =>
    cases h
    exact hfatal
  | cons i is ih =>
    obtain ⟨hi, his⟩ := List.forall_mem_cons.1 hops
    obtain ⟨u, hu, hrest⟩ := runOps_cons_eq_some.1 h
    obtain ⟨huinv, -⟩ := exec_keepsInv hu hinv
    have htx := exec_tx_of_fatal hfatal (hinv.tx.disarmed_fatal hfatal) hi hu
    exact ih huinv (by rw [htx, hfatal]) his hrest

/-- By induction on the run: until the watchdog fires, each operation adds its time to what is counted. -/
theorem runOps_firedOrCounted {ops : List Instr} {s t : State} (hinv : s.Inv)
    (hpolicy : s.cfg.wdClearOn = .ackOnly) (harm : s.tx.wdArmed = true) (hops : ∀ i ∈ ops, bringsNoLine i = true)
    (h : runOps ops s = some t) : FiredOrCounted (timeReported ops) s t := by
  induction ops generalizing s with
  | nil =>
    cases h
    exact .of_tx harm rfl
  | cons i is ih =>
    obtain ⟨hi, his⟩ := List.forall_mem_cons.1 hops
    obtain ⟨u, hu, hrest⟩ := runOps_cons_eq_some.1 h
    obtain ⟨huinv, hucfg⟩ := exec_keepsInv hu hinv
    rcases exec_firedOrCounted harm hinv.tx hpolicy hi hu with hfatal | ⟨huarm, hcount⟩
    · exact .inl (runOps_fatal huinv hfatal (fun j hj => ne_resetTx_of_bringsNoLine (his j hj)) hrest)
    · refine (ih huinv (by rw [hucfg, hpolicy]) huarm his hrest).imp_right fun ⟨htarm, hrun⟩ => ⟨htarm, ?_⟩
      rw [timeReported_cons]
      omega

/-- Settles O45: a watchdog that had not fired would be armed past the ceiling, which the invariant excludes. -/
theorem silentDeviceEndsInFatal : Obligations.SilentDeviceEndsInFatal := by
  unfold Obligations.SilentDeviceEndsInFatal
  intro s t ops hinv hpolicy harm hops hlate hrun
  refine (runOps_firedOrCounted hinv hpolicy harm hops hrun).resolve_right fun ⟨htarm, hcount⟩ => ?_
  obtain ⟨htinv, hcfg⟩ := runOps_keepsInv hrun hinv
  have hin := htinv.tx.elapsed_le htarm
  rw [hcfg] at hin
  omega

end Sys2Proof.Machine
end
